-- ==== Sys2Proof/Word.lean ====
section
/-! DEFINITION. The machine's words. An SXLEN-bit register is held in a 64-bit word; with SXLEN = 32
its upper half is zero (log 2). -/

namespace Sys2Proof

/-- Holder of an SXLEN-bit value, SXLEN being 32 or 64 (00_scope.md R5). -/
abbrev Word := BitVec 64

/-- The smallest addressable unit of memory (20_memory.md R100). -/
abbrev Byte := BitVec 8

/-- The number of an integer register: a 5-bit operand field (30_encoding.md R183). -/
abbrev Reg := BitVec 5

/-- The number of a CSR: the 12-bit operand field (30_encoding.md R183). -/
abbrev CsrNum := BitVec 12

end Sys2Proof
end

