-- ==== Sys2Proof/Config.lean ====
section
/-! DEFINITION. What one implementation fixes (00_scope.md R5), the vocabulary those parameters use, and the
free values: constants with no body, one for each draw the spec leaves open (00_scope.md R7, `choose`). -/

namespace Sys2Proof

/-- Width of the registers in S-mode, `SXLEN` (00_scope.md R5). -/
inductive Xlen where
  | rv32
  | rv64
deriving DecidableEq, Repr

/-- The privilege modes visible to this model (10_state.md R20). -/
inductive Priv where
  | user
  | supervisor
deriving DecidableEq, Repr

/-- Access types of translation (21_address_translation.md R150). An implicit PTE read is checked as a
`load`, an implicit PTE update as a `store` (R155; log 14). -/
inductive AccessType where
  | fetch
  | load
  | store
deriving DecidableEq, Repr

/-- Address-translation schemes of `satp.MODE` (10_state.md R73). -/
inductive SatpMode where
  | bare
  | sv32
  | sv39
  | sv48
deriving DecidableEq, Repr

/-- Supported values of `stvec.MODE` (10_state.md R42). -/
inductive TvecMode where
  | direct
  | vectored
deriving DecidableEq, Repr

/-- Accessed/dirty management, `AD_SCHEME` (21_address_translation.md R148). -/
inductive AdScheme where
  | hwUpdate
  | fault
  | either
deriving DecidableEq, Repr

/-- Behaviour of misaligned loads and stores, `MISALIGNED` (20_memory.md R104(g)). -/
inductive Misaligned where
  | perform
  | refuse
deriving DecidableEq, Repr

/-- `stval` written by EBREAK, `EBREAK_TVAL` (43_environment_and_fence.md R263). -/
inductive EbreakTval where
  | zero
  | pc
deriving DecidableEq, Repr

/-- The six interrupts (60_exceptions.md R281). -/
inductive Interrupt where
  | userSoftware
  | supervisorSoftware
  | userTimer
  | supervisorTimer
  | userExternal
  | supervisorExternal
deriving DecidableEq, Repr

/-- The synchronous exceptions (60_exceptions.md R282). -/
inductive Exc where
  | instrMisaligned
  | instrAccessFault
  | illegalInstruction
  | breakpoint
  | loadAccessFault
  | amoMisaligned
  | storeAccessFault
  | environmentCall
  | instrPageFault
  | loadPageFault
  | storePageFault
deriving DecidableEq, Repr

/-- What a trap reports in `scause` (60_exceptions.md R280). -/
inductive Cause where
  | interrupt (i : Interrupt)
  | exception (e : Exc)
deriving DecidableEq, Repr

/-- The CSRs of this spec (10_state.md R23); a counter is named by its number 0 to 31
(0 `cycle`, 1 `time`, 2 `instret`, n `hpmcounter`n), `counterHigh` being its `h` half. -/
inductive Csr where
  | sstatus
  | sie
  | stvec
  | scounteren
  | sscratch
  | sepc
  | scause
  | stval
  | sip
  | satp
  | counter (n : BitVec 5)
  | counterHigh (n : BitVec 5)
deriving DecidableEq, Repr

/-- An entry of the translation cache: the tuple of 21_address_translation.md R161. -/
structure TcEntry where
  asid : BitVec 16
  global : Bool
  level : Nat
  vpnPrefix : Nat
  pteAddr : Nat
  pte : Word
deriving DecidableEq, Repr

/-- One grant of `PhysCheck` (00_scope.md R5): accesses of the listed types, privileges and widths that lie
inside `[base, base + size)` pass the PMA and PMP checks (log 14). -/
structure PhysRegion where
  base : Nat
  size : Nat
  types : List AccessType
  privs : List Priv
  widths : List Nat
deriving DecidableEq, Repr

/-- A liberty of the SEE during an SBI call that this hart can see, beside the registers, memory and CSRs the
contract names (60_exceptions.md R335). A remote fence or IPI for another hart changes nothing here. -/
inductive SbiLiberty where
  /-- Set or clear STIP. -/
  | stip
  /-- Set or clear SEIP. -/
  | seip
  /-- Set or clear UTIP, with the N extension. -/
  | utip
  /-- Set SSIP. -/
  | ssip
  /-- Change counter values. -/
  | counters
  /-- Schedule a timer interrupt (60_exceptions.md R331). -/
  | timer
deriving DecidableEq, Repr

/-- The SBI contract `SbiSpec` (00_scope.md R5, 43_environment_and_fence.md R261): the registers a call
reads, the registers it may change, the memory bytes (base, length) and the CSRs its contract names, and the
liberties it may use. -/
structure SbiSpec where
  args : List Reg
  results : List Reg
  memory : List (Nat × Nat)
  csrs : List Csr
  liberties : List SbiLiberty
deriving DecidableEq, Repr

/-- A part of the hart's state that `EndOfRun` can look at (70_reset_and_hazards.md R353). -/
inductive EndPlace where
  /-- 1 in S-mode, 0 in U-mode. -/
  | priv
  | pc
  | reg (r : Reg)
  /-- A CSR as it reads; a counter, or its high half, as it was last observed. -/
  | csr (c : Csr)
  /-- The software UEIP bit on its own. -/
  | ueipSw
  /-- The interrupt controller's wire on its own. -/
  | ueipSig
  /-- A byte of physical memory. -/
  | byte (pa : Nat)
  /-- 1 where the translation cache holds the entry. -/
  | cached (e : TcEntry)
  /-- 1 once an SBI call has been made. -/
  | sbiCalled
  /-- A register as it was when the last SBI call was made, 0 before the first. -/
  | sbiReg (r : Reg)
deriving DecidableEq, Repr

/-- The predicate `EndOfRun` as plain data (70_reset_and_hazards.md R353): tests of masked values, and what `not`,
`and` and `or` make of them, so every predicate on a bounded part of the hart's state is one (log 41). -/
inductive EndOfRun where
  | never
  | test (place : EndPlace) (mask value : Word)
  | neg (p : EndOfRun)
  | both (p q : EndOfRun)
  | either (p q : EndOfRun)
deriving DecidableEq, Repr

/-- The implementation's parameters, the record `Cfg` of 00_scope.md R5. It is carried in `State` and no
step changes it (log 1). -/
structure Config where
  sxlen : Xlen
  hasN : Bool
  ialign16 : Bool
  satpModes : List SatpMode
  asidLen : Nat
  paLen : Nat
  adScheme : AdScheme
  stvalInsn : Bool
  ilenMax : Nat
  stvecModes : List TvecMode
  stvecVecAlign : Nat
  scounterenMask : BitVec 32
  physRegions : List PhysRegion
  misaligned : Misaligned
  entryPc : Word
  nharts : Nat
  sbi : SbiSpec
  ebreakTval : EbreakTval
  intPriority : List Interrupt
  endOfRun : EndOfRun
  /-- May a walk use a cached PTE that was read from another table than the one it has come to, as
  70_reset_and_hazards.md R345(a) has it, or only one read from the address it computes, as 21_address_translation.md
  R162 has it? The model's own row: the two rules differ, and every statement holds for either (log 49). -/
  tcAcrossTables : Bool
deriving DecidableEq, Repr

/-- SXLEN as a number of bits. -/
def Xlen.bits : Xlen → Nat
  | .rv32 => 32
  | .rv64 => 64

/-- The parameters of the state after reset: those 95_test_vectors.md's heading fixes for every vector, the
defaults of 00_scope.md R5 where it names none, and for the rest the choices of log 1. -/
def Config.vectors : Config where
  sxlen := .rv32
  hasN := false
  ialign16 := false
  satpModes := [.bare, .sv32]
  asidLen := 9
  paLen := 34
  adScheme := .either
  stvalInsn := false
  ilenMax := 32
  stvecModes := [.direct, .vectored]
  stvecVecAlign := 128
  scounterenMask := 7
  physRegions :=
    [{ base := 0, size := 2 ^ 34, types := [.fetch, .load, .store], privs := [.user, .supervisor],
       widths := [1, 2, 4, 8] }]
  misaligned := .perform
  entryPc := 0x80000000
  nharts := 1
  sbi :=
    { args := [], results := (List.range 32).map (BitVec.ofNat 5), memory := [], csrs := [],
      liberties := [.stip, .seip, .utip, .ssip, .counters, .timer] }
  ebreakTval := .zero
  intPriority :=
    [.supervisorExternal, .supervisorSoftware, .supervisorTimer, .userExternal, .userSoftware, .userTimer]
  endOfRun := .never
  tcAcrossTables := false

/-! ## Free values

Each takes the number of the draw (State's `draws`); nothing in Lean knows what it answers (log 9). -/

/-- Does the hart take a takeable interrupt at this boundary (60_exceptions.md R305 (1), D36)? -/
opaque Config.takesInterrupt : Nat → Bool

/-- Which of the matching cache entries, or memory, step 2 of a walk uses (21_address_translation.md R161). -/
opaque Config.walkSource : Nat → Nat

/-- How many passes of a translation may use the cache again after a restart (21_address_translation.md R157). -/
opaque Config.walkRestarts : Nat → Nat

/-- Does the A/D step fault under `AD_SCHEME = either` (21_address_translation.md R148)? -/
opaque Config.adFaults : Nat → Bool

/-- Does SFENCE.VMA remove this entry although it need not (40_sfence_vma.md R205)? -/
opaque Config.fenceDropsAlso : Nat → TcEntry → Bool

/-- By how much a counter has advanced when it is read (60_exceptions.md R330). -/
opaque Config.counterAdvance : Nat → Nat

/-- Which of the values a byte has held a fetch returns (20_memory.md R115). -/
opaque Config.fetchSource : Nat → Nat

/-- Do the earlier parts of a split access that then faults stay done (60_exceptions.md R302(b))? -/
opaque Config.keepsFirstPart : Nat → Bool

/-- Do the earlier bytes of a split store that then faults stay written, beside the A and D bits set for them
(60_exceptions.md R302(b))? -/
opaque Config.keepsFirstBytes : Nat → Bool

/-- What an SBI call leaves in a register, given the call's arguments (43_environment_and_fence.md R261). -/
opaque Config.sbiRegister : Nat → List Word → Reg → Word

/-- What an SBI call leaves in an interrupt-pending bit (60_exceptions.md R335). -/
opaque Config.sbiPending : Nat → List Word → Interrupt → Bool

/-- What an SBI call leaves in a counter (60_exceptions.md R335). -/
opaque Config.sbiCounter : Nat → List Word → Nat → Word

/-- The time an SBI call leaves a timer interrupt scheduled for, given the one that was scheduled
(60_exceptions.md R331). -/
opaque Config.sbiTimer : Nat → List Word → Option Word → Option Word

/-- What an SBI call leaves in a byte of memory its contract names (60_exceptions.md R335). -/
opaque Config.sbiByte : Nat → List Word → Nat → Byte

/-- What an SBI call writes to a CSR its contract names (60_exceptions.md R335). -/
opaque Config.sbiCsr : Nat → List Word → Csr → Word

end Sys2Proof
end

