-- ==== Sys2Proof/Machine/State.lean ====
section
/-! DEFINITION. The state of one hart, everything 10_state.md gives it, with the physical memory it shares
and the model's own five fields. Plain data throughout. -/

namespace Sys2Proof.Machine

/-- The fields of `sstatus` that are storage (10_state.md R25 to R37); the rest of the register is hardwired
and appears where it is read. -/
structure Sstatus where
  mxr : Bool
  sum : Bool
  spp : Bool
  spie : Bool
  sie : Bool
  upie : Bool
  uie : Bool
deriving DecidableEq, Repr

/-- The enable bits of `sie` (10_state.md R45). -/
structure Sie where
  seie : Bool
  ueie : Bool
  stie : Bool
  utie : Bool
  ssie : Bool
  usie : Bool
deriving DecidableEq, Repr

/-- The pending bits of `sip` (10_state.md R44 to R52): UEIP is the software bit `ueipSw` and the interrupt
controller's wire `ueipSig`. -/
structure Sip where
  seip : Bool
  ueipSw : Bool
  ueipSig : Bool
  stip : Bool
  utip : Bool
  ssip : Bool
  usip : Bool
deriving DecidableEq, Repr

/-- The three fields of `satp` (10_state.md R71, R72). -/
structure Satp where
  mode : SatpMode
  asid : BitVec 16
  ppn : BitVec 44
deriving DecidableEq, Repr

/-- Physical memory: (address, byte) pairs, addresses strictly rising, no entry equal to what an unlisted
address reads as (`Memory.wf`, Machine/Ops.lean). -/
abbrev Memory := List Host.Cell

/-- A step of an agent outside the hart's instruction stream: the rows of 60_exceptions.md R335. -/
inductive AgentStep where
  /-- The SEE sets or clears `sip.STIP` (R311); it sets it no earlier than the time scheduled (R331). -/
  | setStip (b : Bool)
  /-- The SEE or the interrupt controller sets or clears `sip.SEIP` (R311). -/
  | setSeip (b : Bool)
  /-- The SEE sets or clears `sip.UTIP`, with the N extension (R335). -/
  | setUtip (b : Bool)
  /-- The SEE sets `sip.SSIP` for another hart's request (R335); it may not clear it. -/
  | raiseSsip
  /-- The interrupt controller raises or drops `ueip_sig` (R335). -/
  | setUeipSig (b : Bool)
  /-- The real-time counter reaches a value; it never goes back (R335). -/
  | timeReaches (t : Word)
  /-- Another hart, where there is one, stores bytes to shared memory, page tables included, in one step
  (R333, R335). -/
  | otherStore (pa : Nat) (bytes : List Byte)
  /-- The translation hardware walks a virtual address and caches the PTEs it reads
  (21_address_translation.md R163). -/
  | fill (va : Word)
  /-- The cache loses its k-th entry, on its own or for a remote fence (21_address_translation.md R164). -/
  | evict (k : Nat)
deriving DecidableEq, Repr

/-- One turn: the hart's own, or another agent's (00_scope.md R9, R10). -/
inductive Turn where
  /-- The hart executes an instruction, leaving any takeable interrupt for later (60_exceptions.md R305 (1),
  "may"). -/
  | hartExecutes
  /-- The hart takes its highest-priority takeable interrupt; where none is takeable it executes. -/
  | hartInterrupted
  /-- Another agent moves. -/
  | agent (a : AgentStep)
deriving DecidableEq, Repr

/-- The state of the hart. -/
structure State where
  /-- `Cfg`, fixed for the machine (00_scope.md R5). -/
  cfg : Config
  /-- Current privilege mode (10_state.md R20). -/
  priv : Priv
  /-- Program counter (10_state.md R22). -/
  pc : Word
  /-- Integer registers; slot 0 stays 0 (10_state.md R21). -/
  x : Vector Word 32
  /-- `sstatus` (10_state.md R25). -/
  sstatus : Sstatus
  /-- `stvec`, BASE and MODE as read (10_state.md R40). -/
  stvec : Word
  /-- `sie` (10_state.md R45). -/
  sie : Sie
  /-- `sip` (10_state.md R44). -/
  sip : Sip
  /-- `scounteren` (10_state.md R57). -/
  scounteren : BitVec 32
  /-- `sscratch` (10_state.md R60). -/
  sscratch : Word
  /-- `sepc` (10_state.md R61). -/
  sepc : Word
  /-- `scause` (10_state.md R65). -/
  scause : Word
  /-- `stval` (10_state.md R69). -/
  stval : Word
  /-- `satp` (10_state.md R71). -/
  satp : Satp
  /-- The 64-bit counters by number: 0 `cycle`, 1 `time`, 2 `instret`, n `hpmcounter`n (10_state.md R56). All
  but `instret` hold the value last observed. -/
  counters : Vector Word 32
  /-- The address-translation cache (10_state.md R79). -/
  tc : List TcEntry
  /-- The time supervisor software has scheduled a timer interrupt for, where it has: the SEE's own state
  (60_exceptions.md R331; log 48). -/
  timer : Option Word
  /-- Physical memory (20_memory.md R100). -/
  mem : Memory
  /-- The model's own: overwritten bytes a fetch may still return (20_memory.md R115; log 18). -/
  oldBytes : List Host.Cell
  /-- The model's own: a translation has used a PTE with reserved contents, so the program relies on reserved
  behaviour (21_address_translation.md R149, D28; log 35). Nothing reads it back. -/
  reservedPte : Bool
  /-- The model's own: the registers when the last SBI call was made, for `EndOfRun` to look at
  (70_reset_and_hazards.md R353; log 41). No step reads it back. -/
  lastCall : Option (Vector Word 32)
  /-- The model's own: which agent moves next; empty, the hart moves (log 7). -/
  turns : List Turn
  /-- The model's own: the number of the next free value (log 9). -/
  draws : Nat
deriving DecidableEq, Repr

/-- Reasons the machine stops. -/
inductive Fault where
  /-- Raised by `step` alone, where the pc is not aligned as 10_state.md R22 requires. 60_exceptions.md R306
  says this cannot happen, and no step reaches such a state. Safe: the machine stops where the spec gives
  it nothing to do (log 39). -/
  | pcMisaligned
deriving DecidableEq, Repr

/-- Reasons the model gives no meaning. -/
inductive Refusal where
  /-- Raised by an arm of `exec` whose instruction has no meaning yet. Safe. -/
  | notModelled (mnemonic : String)
  /-- Raised by `step` on a word that a level above S defines (30_encoding.md R187). Safe. -/
  | higherLevelEncoding (word : BitVec 32)
  /-- Raised by URET where the N extension is present: the user-level CSRs it needs are not in the spec
  (41_trap_return.md R225, 90_conflicts.md C15). Safe. -/
  | uretWithN
  /-- Raised by a misaligned data access where `MISALIGNED = refuse` (20_memory.md R104(g)). Safe. -/
  | misalignedAccess
deriving DecidableEq, Repr

/-- The state at supervisor entry with given parameters (10_state.md R83): every value R83 fixes, and for
each one it leaves unspecified the value log 3 names. That no stale byte is left to fetch (`oldBytes` empty), so that a
fetch finds the program the SEE placed, is the model's choice (20_memory.md R115; DESIGN CHOICE, unsafe, log 18);
that no timer interrupt is scheduled is another (log 48). -/
def State.resetFor (c : Config) : State where
  cfg := c
  priv := .supervisor
  pc := c.entryPc
  x := Vector.replicate 32 0
  sstatus := { mxr := false, sum := false, spp := false, spie := false, sie := false, upie := false, uie := false }
  stvec := if c.stvecModes.contains .direct then 0 else 1
  sie := { seie := false, ueie := false, stie := false, utie := false, ssie := false, usie := false }
  sip :=
    { seip := false, ueipSw := false, ueipSig := false, stip := false, utip := false, ssip := false, usip := false }
  scounteren := 0
  sscratch := 0
  sepc := 0
  scause := 0
  stval := 0
  satp := { mode := .bare, asid := 0, ppn := 0 }
  counters := Vector.replicate 32 0
  tc := []
  timer := none
  mem := []
  oldBytes := []
  reservedPte := false
  lastCall := none
  turns := []
  draws := 0

/-- The machine right after reset: supervisor entry (70_reset_and_hazards.md R340, R341) with the
parameters of `Config.vectors`. -/
def State.reset : State := State.resetFor Config.vectors

end Sys2Proof.Machine
end

