-- ==== Sys2Proof/Machine/Ops.lean ====
section
/-! DEFINITION. The named operations every meaning is built from: values of SXLEN bits, registers, draws,
physical memory and its checks, retiring, and taking a trap. -/

namespace Sys2Proof.Machine

/-! ## Values of SXLEN bits -/

/-- A value modulo `2^SXLEN` (00_scope.md R6). -/
def truncX (xl : Xlen) (v : Word) : Word :=
  match xl with
  | .rv32 => v &&& 0xFFFFFFFF
  | .rv64 => v

/-- The word with only bit `i`, set or clear. -/
def bitAt (b : Bool) (i : Nat) : Word :=
  if b then BitVec.twoPow 64 i else 0

/-! ## Integer registers -/

/-- `x[r]`: `x0` reads 0 (00_scope.md R7, 10_state.md R21). -/
def getX (r : Reg) (s : State) : Word :=
  if r = 0 then 0 else s.x[r.toNat]'(r.isLt)

/-- `x[r] <- v`: a write to `x0` is discarded (00_scope.md R7). -/
def setX (r : Reg) (v : Word) (s : State) : State :=
  if r = 0 then s else { s with x := s.x.set r.toNat (truncX s.cfg.sxlen v) r.isLt }

/-! ## Draws -/

/-- The state after one free value has been used (log 9). -/
def drawn (s : State) : State :=
  { s with draws := s.draws + 1 }

/-- The `k`-th of a choice among `first` and the others, `k` any number. -/
def choose {α : Type} (k : Nat) (first : α) (others : List α) : α :=
  match k % (others.length + 1) with
  | 0 => first
  | i + 1 => others.getD i first

/-! ## Physical memory -/

/-- What an unlisted byte reads as: the spec gives memory no contents at entry (10_state.md R83); DESIGN
CHOICE 0, unsafe (log 4). -/
def Memory.unlisted : Byte := 0

/-- One byte of physical memory. -/
def Memory.read : Memory → Nat → Byte
  | [], _ => Memory.unlisted
  | (a, b) :: m, k => if a = k then b else Memory.read m k

/-- Store one byte, keeping the canonical form. -/
def Memory.write : Memory → Nat → Byte → Memory
  | [], k, v => if v = Memory.unlisted then [] else [(k, v)]
  | (a, b) :: m, k, v =>
    if k < a then (if v = Memory.unlisted then (a, b) :: m else (k, v) :: (a, b) :: m)
    else if k = a then (if v = Memory.unlisted then m else (k, v) :: m)
    else (a, b) :: Memory.write m k v

/-- The canonical form from an address on: addresses strictly rising from `lo`, no entry equal to what an
unlisted address reads as. -/
def Memory.wfFrom : Nat → Memory → Bool
  | _, [] => true
  | lo, (a, b) :: m => decide (lo ≤ a) && decide (b ≠ Memory.unlisted) && Memory.wfFrom (a + 1) m

/-- The canonical form. -/
def Memory.wf (m : Memory) : Bool :=
  Memory.wfFrom 0 m

/-- The value of `n` bytes, the lowest address holding bits 7:0 (20_memory.md R103). -/
def Memory.readLe (m : Memory) (pa : Nat) : Nat → Word
  | 0 => 0
  | n + 1 => (m.read pa).setWidth 64 ||| (Memory.readLe m (pa + 1) n <<< 8)

/-- The `n` low bytes of a value, the lowest address first (20_memory.md R103). -/
def leBytes (v : Word) : Nat → List Byte
  | 0 => []
  | n + 1 => v.setWidth 8 :: leBytes (v >>> 8) n

/-- Store one byte. A fetch may still return the byte overwritten (20_memory.md R115; log 18). -/
def storeByte (pa : Nat) (v : Byte) (s : State) : State :=
  { s with
    mem := s.mem.write pa v
    oldBytes := if s.mem.read pa = v then s.oldBytes else (pa, s.mem.read pa) :: s.oldBytes }

/-- Store bytes at rising addresses. -/
def storeBytes (pa : Nat) : List Byte → State → State
  | [], s => s
  | b :: bs, s => storeBytes (pa + 1) bs (storeByte pa b s)

/-- Memory with the bytes of a list stored from an address on. -/
def placeBytes (pa : Nat) : List Byte → Memory → Memory
  | [], m => m
  | b :: bs, m => placeBytes (pa + 1) bs (m.write pa b)

/-- `PhysRead(pa, n)` (00_scope.md R7). That no read has a side effect, at any address, is the model's choice: S1
is silent on which addresses have one (20_memory.md R108; DESIGN CHOICE, unsafe, log 47). -/
def physRead (pa n : Nat) (s : State) : Word :=
  s.mem.readLe pa n

/-- `PhysWrite(pa, n, v)` (00_scope.md R7). -/
def physWrite (pa n : Nat) (v : Word) (s : State) : State :=
  storeBytes pa (leBytes v n) s

/-- One byte of an instruction: memory's, or one that was overwritten (20_memory.md R115; log 18). -/
def fetchByte (pa : Nat) (s : State) : Byte × State :=
  match s.oldBytes.filter (fun c => c.1 == pa) with
  | [] => (s.mem.read pa, s)
  | old :: more => (choose (Config.fetchSource s.draws) (s.mem.read pa) ((old :: more).map (·.2)), drawn s)

/-- `n` bytes of an instruction, the lowest address holding bits 7:0 (20_memory.md R103). -/
def fetchBytes (pa : Nat) : Nat → State → Word × State
  | 0, s => (0, s)
  | n + 1, s =>
    ((fetchByte pa s).1.setWidth 64 ||| ((fetchBytes (pa + 1) n (fetchByte pa s).2).1 <<< 8),
      (fetchBytes (pa + 1) n (fetchByte pa s).2).2)

/-- `Cfg.PhysCheck(pa, n, t, priv)`: the address exists (21_address_translation.md R152(e)) and the platform
grants the access (20_memory.md R109, R110; log 14). -/
def physCheck (c : Config) (pa n : Nat) (t : AccessType) (p : Priv) : Bool :=
  decide (pa + n ≤ 2 ^ c.paLen) &&
    c.physRegions.any fun r =>
      decide (r.base ≤ pa) && decide (pa + n ≤ r.base + r.size) && r.types.contains t && r.privs.contains p &&
        r.widths.contains n

/-! ## The outcome of an access -/

/-- What an operation that may raise answers: a value and the state after it, an exception with its trap
value and the state it is raised in (`raise` of 00_scope.md R7), or a refusal. -/
inductive Access (α : Type) where
  | ok (v : α) (s : State)
  | raise (e : Exc) (tval : Word) (s : State)
  | refuse (r : Refusal)
deriving DecidableEq, Repr

/-- Continue after an access that raised nothing. -/
def Access.andThen {α β : Type} (a : Access α) (f : α → State → Access β) : Access β :=
  match a with
  | .ok v s => f v s
  | .raise e tval s => .raise e tval s
  | .refuse r => .refuse r

/-! ## The supervisor timer -/

/-- May the SEE set STIP: is no timer interrupt scheduled, or has `time` reached it (60_exceptions.md R331)? -/
def timerDue (s : State) : Bool :=
  match s.timer with
  | none => true
  | some t => decide (t.toNat ≤ s.counters[1].toNat)

/-- STIP after the SEE sets it, which it does not do before the time scheduled, or clears it (60_exceptions.md R331,
R335). -/
def stipAfter (b : Bool) (s : State) : Bool :=
  b && (s.sip.stip || timerDue s)

/-! ## Retiring -/

/-- An instruction retires and the next one is at `target`; `instret` counts it (60_exceptions.md R305 (5),
R330). -/
def retireTo (target : Word) (s : State) : State :=
  { s with pc := truncX s.cfg.sxlen target, counters := s.counters.set 2 (s.counters[2] + 1) }

/-- An instruction that transfers no control retires: `pc <- pc + 4` modulo `2^SXLEN` (10_state.md R22). -/
def retire (s : State) : State :=
  retireTo (s.pc + 4) s

/-! ## Taking a trap -/

/-- Code of an interrupt, the position of its bits in `sip` and `sie` (60_exceptions.md R281). -/
def interruptCode : Interrupt → Nat
  | .userSoftware => 0
  | .supervisorSoftware => 1
  | .userTimer => 4
  | .supervisorTimer => 5
  | .userExternal => 8
  | .supervisorExternal => 9

/-- Code of an exception (60_exceptions.md R282). -/
def exceptionCode : Exc → Nat
  | .instrMisaligned => 0
  | .instrAccessFault => 1
  | .illegalInstruction => 2
  | .breakpoint => 3
  | .loadAccessFault => 5
  | .amoMisaligned => 6
  | .storeAccessFault => 7
  | .environmentCall => 8
  | .instrPageFault => 12
  | .loadPageFault => 13
  | .storePageFault => 15

/-- The value a cause gives `scause`: the Interrupt bit at SXLEN-1 over the code (10_state.md R65, R66;
60_exceptions.md R281, R282). -/
def causeWord (xl : Xlen) : Cause → Word
  | .interrupt i => bitAt true (xl.bits - 1) ||| BitVec.ofNat 64 (interruptCode i)
  | .exception e => BitVec.ofNat 64 (exceptionCode e)

/-- `legal_sepc(v)`: bit 0 is zero, and bit 1 unless instructions may be 2-byte aligned (10_state.md R62). -/
def legalSepc (c : Config) (v : Word) : Word :=
  truncX c.sxlen v &&& (if c.ialign16 then ~~~1 else ~~~3)

/-- `stvec.BASE` (10_state.md R40). -/
def tvecBase (stvec : Word) : Word :=
  stvec &&& ~~~3

/-- Is `stvec.MODE` Vectored (10_state.md R42)? -/
def tvecVectored (stvec : Word) : Bool :=
  decide (stvec.extractLsb' 0 2 = 1)

/-- `TrapPC(interrupt, code)` (10_state.md R42, 60_exceptions.md R303). -/
def trapPc (xl : Xlen) (stvec : Word) : Cause → Word
  | .interrupt i =>
    if tvecVectored stvec then truncX xl (tvecBase stvec + BitVec.ofNat 64 (4 * interruptCode i))
    else truncX xl (tvecBase stvec)
  | .exception _ => truncX xl (tvecBase stvec)

/-- `TrapToS(interrupt, code, tval, epc)`: the one way into a supervisor trap handler (60_exceptions.md
R300). -/
def trapToS (cause : Cause) (tval epc : Word) (s : State) : State :=
  { s with
    sepc := legalSepc s.cfg epc
    scause := causeWord s.cfg.sxlen cause
    stval := truncX s.cfg.sxlen tval
    sstatus :=
      { s.sstatus with spp := decide (s.priv = .supervisor), spie := s.sstatus.sie, sie := false }
    priv := .supervisor
    pc := trapPc s.cfg.sxlen s.stvec cause }

/-- The return from a supervisor trap (41_trap_return.md R220): the mode by SPP, SPP to 0, SIE from SPIE, SPIE
to 1, the pc from `sepc` as it reads. -/
def returnFromS (s : State) : State :=
  retireTo (legalSepc s.cfg s.sepc)
    { s with
      priv := if s.sstatus.spp then .supervisor else .user
      sstatus := { s.sstatus with spp := false, sie := s.sstatus.spie, spie := true } }

/-- The part of URET that S1 states: UIE from UPIE, UPIE to 1 (10_state.md R31, 41_trap_return.md R225). No
instruction takes it: the rest of URET needs CSRs the spec does not have (log 22). -/
def uretStatus (st : Sstatus) : Sstatus :=
  { st with uie := st.upie, upie := true }

/-- `N` of 10_state.md R70, the width of what `stval` holds of an instruction: the smaller of SXLEN and
`ILEN_MAX`, which is at least 32 (30_encoding.md R180). -/
def stvalInsnBits (c : Config) : Nat :=
  min c.sxlen.bits (max 32 c.ilenMax)

/-- The trap value of an illegal instruction whose bits are `insn`, of any supported length: its first SXLEN bits
where `STVAL_INSN`, else 0 (60_exceptions.md R293). -/
def insnTval (c : Config) (insn : Nat) : Word :=
  if c.stvalInsn then BitVec.ofNat 64 (insn % 2 ^ stvalInsnBits c) else 0

/-- The trap value of an illegal 32-bit instruction (60_exceptions.md R293). DESIGN CHOICE (log 51): a word that no
rule defines counts as 32 bits long too, whatever its low bits, since how a length is told is not in the source
(30_encoding.md R180). -/
def illegalTval (c : Config) (word : BitVec 32) : Word :=
  insnTval c word.toNat

/-- `raise IllegalInstruction` by the instruction at the pc. -/
def raiseIllegal (word : BitVec 32) (s : State) : State :=
  trapToS (.exception .illegalInstruction) (illegalTval s.cfg word) s.pc s

end Sys2Proof.Machine
end

