-- ==== Sys2Proof/Machine/Flags.lean ====
section
/-! DEFINITION. The registers made of flags and fields, `sstatus`, `sie`, `sip` and `satp`: the word each
reads as, and the fields a written word leaves. Bits with no storage read 0 and ignore writes (10_state.md
R38, R39, R44, R45). -/

namespace Sys2Proof.Machine

/-! ## sstatus (10_state.md R25, R26, R39) -/

/-- The hardwired UXL field, 2 in bits 33:32 with SXLEN = 64 (10_state.md R34). -/
def uxlWord (xl : Xlen) : Word :=
  match xl with
  | .rv32 => 0
  | .rv64 => bitAt true 33

/-- The word `sstatus` reads as. -/
def sstatusWord (c : Config) (st : Sstatus) : Word :=
  bitAt st.mxr 19 ||| bitAt st.sum 18 ||| bitAt st.spp 8 ||| bitAt st.spie 5 ||| bitAt (c.hasN && st.upie) 4 |||
    bitAt st.sie 1 ||| bitAt (c.hasN && st.uie) 0 ||| uxlWord c.sxlen

/-- The fields a written word leaves in `sstatus`. -/
def sstatusOfWord (c : Config) (v : Word) : Sstatus where
  mxr := v.getLsbD 19
  sum := v.getLsbD 18
  spp := v.getLsbD 8
  spie := v.getLsbD 5
  sie := v.getLsbD 1
  upie := c.hasN && v.getLsbD 4
  uie := c.hasN && v.getLsbD 0

/-! ## sie (10_state.md R45) -/

/-- The word `sie` reads as. -/
def sieWord (c : Config) (e : Sie) : Word :=
  bitAt e.seie 9 ||| bitAt (c.hasN && e.ueie) 8 ||| bitAt e.stie 5 ||| bitAt (c.hasN && e.utie) 4 |||
    bitAt e.ssie 1 ||| bitAt (c.hasN && e.usie) 0

/-- The fields a written word leaves in `sie`. -/
def sieOfWord (c : Config) (v : Word) : Sie where
  seie := v.getLsbD 9
  ueie := c.hasN && v.getLsbD 8
  stie := v.getLsbD 5
  utie := c.hasN && v.getLsbD 4
  ssie := v.getLsbD 1
  usie := c.hasN && v.getLsbD 0

/-! ## sip (10_state.md R44, R48, R52 to R54) -/

/-- The word made of the pending bits with `ueip` at bit 8. -/
def sipWordWith (c : Config) (p : Sip) (ueip : Bool) : Word :=
  bitAt p.seip 9 ||| bitAt (c.hasN && ueip) 8 ||| bitAt p.stip 5 ||| bitAt (c.hasN && p.utip) 4 |||
    bitAt p.ssip 1 ||| bitAt (c.hasN && p.usip) 0

/-- The word `sip` reads as: UEIP is the software bit or the controller's signal (10_state.md R53). -/
def sipWord (c : Config) (p : Sip) : Word :=
  sipWordWith c p (p.ueipSw || p.ueipSig)

/-- The word CSRRS and CSRRC modify: UEIP is the software bit alone (42_csr_access.md R248). -/
def sipBaseWord (c : Config) (p : Sip) : Word :=
  sipWordWith c p p.ueipSw

/-- The pending bits after a word is written: SSIP, and with N USIP and the software UEIP bit (10_state.md
R48). -/
def sipOfWord (c : Config) (old : Sip) (v : Word) : Sip :=
  { old with
    ssip := v.getLsbD 1
    usip := if c.hasN then v.getLsbD 0 else old.usip
    ueipSw := if c.hasN then v.getLsbD 8 else old.ueipSw }

/-! ## satp (10_state.md R71 to R76) -/

/-- Number a scheme has in `satp.MODE` (10_state.md R73). -/
def satpModeNum : SatpMode → Nat
  | .bare => 0
  | .sv32 => 1
  | .sv39 => 8
  | .sv48 => 9

/-- The scheme a MODE field names, where it is one of S1's for the width (10_state.md R73). -/
def satpModeOf (xl : Xlen) (field : Nat) : Option SatpMode :=
  match xl with
  | .rv32 => if field = 0 then some .bare else if field = 1 then some .sv32 else none
  | .rv64 =>
    if field = 0 then some .bare else if field = 8 then some .sv39 else if field = 9 then some .sv48 else none

/-- Is a scheme implemented? Bare always is (00_scope.md R5, `SATP_MODES`). -/
def satpSupported (c : Config) (m : SatpMode) : Bool :=
  decide (m = .bare) || c.satpModes.contains m

/-- The word `satp` reads as. -/
def satpWord (xl : Xlen) (p : Satp) : Word :=
  match xl with
  | .rv32 =>
    (BitVec.ofNat 64 (satpModeNum p.mode) <<< 31) ||| ((p.asid.setWidth 64 &&& 0x1FF) <<< 22) |||
      (p.ppn.setWidth 64 &&& 0x3FFFFF)
  | .rv64 =>
    (BitVec.ofNat 64 (satpModeNum p.mode) <<< 60) ||| (p.asid.setWidth 64 <<< 44) ||| p.ppn.setWidth 64

/-- The MODE field of a word written to `satp`. -/
def satpModeField (xl : Xlen) (v : Word) : Nat :=
  match xl with
  | .rv32 => (v.extractLsb' 31 1).toNat
  | .rv64 => (v.extractLsb' 60 4).toNat

/-- The ASID field of a word written to `satp`, unimplemented bits 0 (10_state.md R76). -/
def satpAsidField (c : Config) (v : Word) : BitVec 16 :=
  match c.sxlen with
  | .rv32 => (v.extractLsb' 22 9).setWidth 16 &&& BitVec.ofNat 16 (2 ^ c.asidLen - 1)
  | .rv64 => v.extractLsb' 44 16 &&& BitVec.ofNat 16 (2 ^ c.asidLen - 1)

/-- The PPN field of a word written to `satp`, unimplemented bits 0 (10_state.md R75). -/
def satpPpnField (c : Config) (v : Word) : BitVec 44 :=
  match c.sxlen with
  | .rv32 => (v.extractLsb' 0 22).setWidth 44 &&& BitVec.ofNat 44 (2 ^ (c.paLen - 12) - 1)
  | .rv64 => v.extractLsb' 0 44 &&& BitVec.ofNat 44 (2 ^ (c.paLen - 12) - 1)

/-- `satp` after a word is written: with an unsupported MODE the whole write has no effect (10_state.md
R74). -/
def satpOfWord (c : Config) (old : Satp) (v : Word) : Satp :=
  match satpModeOf c.sxlen (satpModeField c.sxlen v) with
  | none => old
  | some m =>
    if satpSupported c m then { mode := m, asid := satpAsidField c v, ppn := satpPpnField c v } else old

/-! ## stvec (10_state.md R43) -/

/-- `stvec` after a word is written: an unsupported MODE leaves it unchanged; Vectored clears the low BASE
bits to the required alignment (10_state.md R43). -/
def stvecOfWord (c : Config) (old v : Word) : Word :=
  if v.extractLsb' 0 2 = 0 ∧ c.stvecModes.contains .direct then truncX c.sxlen v &&& ~~~3
  else if v.extractLsb' 0 2 = 1 ∧ c.stvecModes.contains .vectored then
    (truncX c.sxlen v &&& ~~~(BitVec.ofNat 64 (c.stvecVecAlign - 1)) &&& ~~~3) ||| 1
  else old

end Sys2Proof.Machine
end

