-- ==== Sys2Proof/Machine/Translate.lean ====
section
/-! DEFINITION. Address translation (21_address_translation.md): the formats of the three paged schemes, the
walk of R150 with its cache (R160 to R166), the permission and A/D rules, and the accesses that use it. -/

namespace Sys2Proof.Machine

/-! ## Constants and formats (R132 to R138) -/

/-- LEVELS of a scheme (R132); Bare has none. -/
def levels : SatpMode → Nat
  | .bare => 0
  | .sv32 => 2
  | .sv39 => 3
  | .sv48 => 4

/-- PTESIZE in bytes (R132). -/
def pteBytes : SatpMode → Nat
  | .bare => 0
  | .sv32 => 4
  | .sv39 => 8
  | .sv48 => 8

/-- Width of one VPN field (R132). -/
def vpnBits : SatpMode → Nat
  | .bare => 0
  | .sv32 => 10
  | .sv39 => 9
  | .sv48 => 9

/-- Width of a PTE's PPN (R132). -/
def ppnBits : SatpMode → Nat
  | .bare => 0
  | .sv32 => 22
  | .sv39 => 44
  | .sv48 => 44

/-- Width of a translated virtual address (R132). -/
def vaBits (m : SatpMode) : Nat :=
  12 + levels m * vpnBits m

/-- `va.vpn[i]` (R133, R135, R137). -/
def vpn (m : SatpMode) (va : Word) (i : Nat) : Nat :=
  va.toNat / 2 ^ (12 + i * vpnBits m) % 2 ^ vpnBits m

/-- `va.vpn[LEVELS-1:i]` (R161), as one number. DESIGN CHOICE (log 50): the number does not say of which scheme the
fields are, so an entry cached under Sv39 and one cached under Sv48 are told apart by the number alone, and of a level
that the scheme has not the number is 0; the spec is silent on entries of another scheme. -/
def vpnPrefix (m : SatpMode) (va : Word) (i : Nat) : Nat :=
  va.toNat % 2 ^ vaBits m / 2 ^ (12 + i * vpnBits m)

/-- Is the address one the scheme translates? Sv32 takes every address; Sv39 and Sv48 want the upper bits all
equal (R140). -/
def canonical (m : SatpMode) (va : Word) : Bool :=
  match m with
  | .bare => true
  | .sv32 => true
  | .sv39 => decide (va.extractLsb' 38 26 = 0) || decide (va.extractLsb' 38 26 = BitVec.allOnes 26)
  | .sv48 => decide (va.extractLsb' 47 17 = 0) || decide (va.extractLsb' 47 17 = BitVec.allOnes 17)

/-! PTE fields (R134, R136, R138). -/

def pteV (pte : Word) : Bool := pte.getLsbD 0
def pteR (pte : Word) : Bool := pte.getLsbD 1
def pteW (pte : Word) : Bool := pte.getLsbD 2
def pteX (pte : Word) : Bool := pte.getLsbD 3
def pteU (pte : Word) : Bool := pte.getLsbD 4
def pteG (pte : Word) : Bool := pte.getLsbD 5
def pteA (pte : Word) : Bool := pte.getLsbD 6
def pteD (pte : Word) : Bool := pte.getLsbD 7

/-- `pte.ppn`; bits above the field are ignored (R149). -/
def ptePpn (m : SatpMode) (pte : Word) : Nat :=
  pte.toNat / 2 ^ 10 % 2 ^ ppnBits m

/-- Does step 3 let the PTE pass: valid, and not the reserved W without R (R150 step 3)? -/
def pteValid (pte : Word) : Bool :=
  pteV pte && (pteR pte || !pteW pte)

/-- Is a valid PTE a leaf (R150 step 4)? -/
def pteLeaf (pte : Word) : Bool :=
  pteR pte || pteX pte

/-- Does the PTE hold contents that are reserved for future use: D, A or U in a pointer, or any of bits 63:54,
which an Sv32 PTE does not have (R149)? The walk ignores them. -/
def pteReserved (pte : Word) : Bool :=
  (!pteLeaf pte && (pteD pte || pteA pte || pteU pte)) || decide (pte.extractLsb' 54 10 ≠ 0)

/-- Note that a PTE has been used: reserved contents flag the program (R149, D28). -/
def notePte (pte : Word) (s : State) : State :=
  { s with reservedPte := s.reservedPte || pteReserved pte }

/-- `Permitted` (R153). -/
def permitted (pte : Word) (t : AccessType) (p : Priv) (sum mxr : Bool) : Bool :=
  (match p with
    | .user => pteU pte
    | .supervisor => !pteU pte || sum) &&
  (match t with
    | .fetch => pteX pte
    | .load => pteR pte || (mxr && pteX pte)
    | .store => pteW pte)

/-- Is the superpage's own PPN unaligned (R154)? -/
def superpageMisaligned (m : SatpMode) (pte : Word) (i : Nat) : Bool :=
  decide (ptePpn m pte % 2 ^ (i * vpnBits m) ≠ 0)

/-- Does the access need the A or D bit set (R155)? -/
def needsAdUpdate (pte : Word) (t : AccessType) : Bool :=
  !pteA pte || (decide (t = .store) && !pteD pte)

/-- The PTE with A set, and D for a store (R155, R157). -/
def pteUpdated (pte : Word) (t : AccessType) : Word :=
  pte ||| bitAt true 6 ||| bitAt (decide (t = .store)) 7

/-- The physical address of a leaf at level `i` (R150 step 8, R156). -/
def leafPa (m : SatpMode) (pte : Word) (i : Nat) (va : Word) : Nat :=
  ptePpn m pte / 2 ^ (i * vpnBits m) * 2 ^ (12 + i * vpnBits m) + va.toNat % 2 ^ (12 + i * vpnBits m)

/-- Page fault of an access type (R151). -/
def pageFaultOf : AccessType → Exc
  | .fetch => .instrPageFault
  | .load => .loadPageFault
  | .store => .storePageFault

/-- Access fault of an access type (R151). -/
def accessFaultOf : AccessType → Exc
  | .fetch => .instrAccessFault
  | .load => .loadAccessFault
  | .store => .storeAccessFault

/-! ## The walk (R150 steps 1 to 4) -/

/-- Does a cache entry match a step-2 lookup for the PTE at `pteAddr` (R162)? A global entry matches from another
address space's table too (93_implementation_defined.md U9), and any other entry where `tcAcrossTables` has it so
(70_reset_and_hazards.md R345(a); log 49). Whether an entry of another scheme matches is log 50. -/
def tcMatches (c : Config) (m : SatpMode) (va : Word) (i pteAddr : Nat) (asid : BitVec 16) (e : TcEntry) : Bool :=
  decide (e.level = i) && decide (e.vpnPrefix = vpnPrefix m va i) && (e.global || decide (e.asid = asid)) &&
    (decide (e.pteAddr = pteAddr) || e.global || c.tcAcrossTables)

/-- The PTE step 2 uses and the address it was read from: memory's, or with `useTc` any matching cached copy (R161,
R162). -/
def readPte (useTc : Bool) (m : SatpMode) (va : Word) (i pteAddr : Nat) (s : State) : (Word × Nat) × State :=
  match s.tc.filter (fun e => useTc && tcMatches s.cfg m va i pteAddr s.satp.asid e) with
  | [] => ((physRead pteAddr (pteBytes m) s, pteAddr), s)
  | e :: es =>
    (choose (Config.walkSource s.draws) (physRead pteAddr (pteBytes m) s, pteAddr)
      ((e :: es).map fun e => (e.pte, e.pteAddr)), drawn s)

/-- A PTE a walk has read: its value, the address step 2 computes for it, the address the value was read from, which
is another one only for a cached copy from another table (log 49), and its level. -/
structure FoundPte where
  pte : Word
  pteAddr : Nat
  source : Nat
  level : Nat
deriving DecidableEq, Repr

/-- Steps 2 and 3 at level `i` of the table at `a`: the PTE's address and its check, the PTE, its validity
(R150); reserved contents of a valid PTE are noted (R149). -/
def readLevel (useTc : Bool) (m : SatpMode) (t : AccessType) (va : Word) (i a : Nat) (s : State) :
    Access FoundPte :=
  if physCheck s.cfg (a + vpn m va i * pteBytes m) (pteBytes m) .load .supervisor then
    match readPte useTc m va i (a + vpn m va i * pteBytes m) s with
    | ((pte, source), s1) =>
      if pteValid pte then
        .ok { pte := pte, pteAddr := a + vpn m va i * pteBytes m, source := source, level := i } (notePte pte s1)
      else .raise (pageFaultOf t) va s1
  else .raise (accessFaultOf t) va s

/-- Steps 2 to 4 from level `i` of the table at `a` down to a leaf (R150); a pointer at level 0 faults. -/
def walk (useTc : Bool) (m : SatpMode) (t : AccessType) (va : Word) : Nat → Nat → State → Access FoundPte
  | 0, a, s =>
    (readLevel useTc m t va 0 a s).andThen fun f s1 =>
      if pteLeaf f.pte then .ok f s1 else .raise (pageFaultOf t) va s1
  | i + 1, a, s =>
    (readLevel useTc m t va (i + 1) a s).andThen fun f s1 =>
      if pteLeaf f.pte then .ok f s1 else walk useTc m t va i (ptePpn m f.pte * 4096) s1

/-! ## The leaf (R150 steps 5 to 8) -/

/-- A PTE to be written when the access is carried out. -/
structure PteUpdate where
  addr : Nat
  size : Nat
  new : Word
deriving DecidableEq, Repr

/-- A successful translation. The A/D update is written only when the access is carried out, since an access
that faults sets neither bit (60_exceptions.md R302(c), 20_memory.md R113; log 13). -/
structure Translation where
  pa : Nat
  update : Option PteUpdate
deriving DecidableEq, Repr

/-- The arm of step 7: does the access fault rather than update the PTE (R148)? -/
def adFaultArm (s : State) : Bool × State :=
  match s.cfg.adScheme with
  | .hwUpdate => (false, s)
  | .fault => (true, s)
  | .either => (Config.adFaults s.draws, drawn s)

/-- Steps 5 to 8 at a leaf (R150): permission, superpage alignment, A and D, the physical address. `none` asks
for a restart: memory no longer holds the PTE the walk used (R157). -/
def leafSteps (m : SatpMode) (t : AccessType) (va : Word) (f : FoundPte) (s : State) :
    Access (Option Translation) :=
  if permitted f.pte t s.priv s.sstatus.sum s.sstatus.mxr then
    if superpageMisaligned m f.pte f.level then .raise (pageFaultOf t) va s
    else if needsAdUpdate f.pte t then
      match adFaultArm s with
      | (true, s1) => .raise (pageFaultOf t) va s1
      | (false, s1) =>
        if physCheck s1.cfg f.pteAddr (pteBytes m) .store .supervisor then
          if physRead f.pteAddr (pteBytes m) s1 = f.pte then
            .ok (some { pa := leafPa m f.pte f.level va,
                        update := some { addr := f.pteAddr, size := pteBytes m, new := pteUpdated f.pte t } }) s1
          else .ok none s1
        else .raise (accessFaultOf t) va s1
    else .ok (some { pa := leafPa m f.pte f.level va, update := none }) s
  else .raise (pageFaultOf t) va s

/-- One pass of steps 1 to 8 in a paged scheme; the root table is at `satp.PPN * 4096` (R141). -/
def attempt (useTc : Bool) (m : SatpMode) (t : AccessType) (va : Word) (s : State) :
    Access (Option Translation) :=
  (walk useTc m t va (levels m - 1) (s.satp.ppn.toNat * 4096) s).andThen (leafSteps m t va)

/-- Translation by passes: a pass whose PTE memory no longer holds restarts from step 1 (R157), at most `n`
times over the cache and then once over memory alone, whose PTE the update finds again in the same step. -/
def passes (m : SatpMode) (t : AccessType) (va : Word) : Nat → State → Access Translation
  | 0, s =>
    (attempt false m t va s).andThen fun r s1 =>
      match r with
      | some tr => .ok tr s1
      | none => .raise (pageFaultOf t) va s1
  | n + 1, s =>
    (attempt true m t va s).andThen fun r s1 =>
      match r with
      | some tr => .ok tr s1
      | none => passes m t va n s1

/-- Translation in a paged scheme. How many passes may use the cache again after a restart is a free value
(log 12). -/
def translatePaged (m : SatpMode) (t : AccessType) (va : Word) (s : State) : Access Translation :=
  if canonical m va then passes m t va (Config.walkRestarts s.draws + 1) s else .raise (pageFaultOf t) va s

/-- `Translate(va, t, priv)` (R150). -/
def translate (t : AccessType) (va : Word) (s : State) : Access Translation :=
  match s.satp.mode with
  | .bare => .ok { pa := va.toNat, update := none } s
  | .sv32 => translatePaged .sv32 t va s
  | .sv39 => translatePaged .sv39 t va s
  | .sv48 => translatePaged .sv48 t va s

/-! ## Accesses (20_memory.md R101, 43_environment_and_fence.md R267) -/

/-- Write the PTE of a translation's A/D update (R157). -/
def commitUpdate (u : Option PteUpdate) (s : State) : State :=
  match u with
  | none => s
  | some u => physWrite u.addr u.size u.new s

/-- Translate an `n`-byte access and check its physical address; answers that address once the access may be
carried out. -/
def access (t : AccessType) (va : Word) (n : Nat) (s : State) : Access Nat :=
  (translate t va s).andThen fun tr s1 =>
    if physCheck s1.cfg tr.pa n t s1.priv then .ok tr.pa (commitUpdate tr.update s1)
    else .raise (accessFaultOf t) va s1

/-- `MemRead(va, n, t)` (00_scope.md R7). -/
def memRead (t : AccessType) (va : Word) (n : Nat) (s : State) : Access Word :=
  (access t va n s).andThen fun pa s1 => .ok (physRead pa n s1) s1

/-- `MemWrite(va, n, v)` (00_scope.md R7). -/
def memWrite (va : Word) (n : Nat) (v : Word) (s : State) : Access Unit :=
  (access .store va n s).andThen fun pa s1 => .ok () (physWrite pa n v s1)

/-- A split access that faults in a later part may leave its earlier parts done, or not: a free value decides
(60_exceptions.md R302(b); log 19). `s` is the state before the access. -/
def mayUndo {α : Type} (s : State) (a : Access α) : Access α :=
  match a with
  | .ok v s1 => .ok v s1
  | .raise e tval s1 =>
    if Config.keepsFirstPart s1.draws then .raise e tval (drawn s1)
    else .raise e tval (drawn { s with draws := s1.draws, reservedPte := s1.reservedPte })
  | .refuse r => .refuse r

/-! ## The cache's own steps (R163, R164) -/

/-- The entry a walk under the current `satp` makes of a PTE, `g` saying whether the PTE or a pointer on the path to it
is global (R161); the entry keeps the address its PTE was read from. -/
def tcEntryOf (m : SatpMode) (va : Word) (f : FoundPte) (g : Bool) (asid : BitVec 16) : TcEntry :=
  { asid := asid, global := g, level := f.level, vpnPrefix := vpnPrefix m va f.level,
    pteAddr := f.source, pte := f.pte }

/-- Put an entry into the cache, a set. -/
def tcInsert (e : TcEntry) (s : State) : State :=
  if s.tc.contains e then s else { s with tc := e :: s.tc }

/-- The PTEs a fill reads from level `i` of the table at `a`, each valid one cached, `g` saying whether the path
so far is global (R163, R145). -/
def fillFrom (m : SatpMode) (va : Word) : Nat → Nat → Bool → State → State
  | i, a, g, s =>
    match readLevel true m .load va i a s with
    | .raise _ _ s1 => s1
    | .refuse _ => s
    | .ok f s1 =>
      let s2 := tcInsert (tcEntryOf m va f (g || pteG f.pte) s1.satp.asid) s1
      if pteLeaf f.pte then s2
      else
        match i with
        | 0 => s2
        | j + 1 => fillFrom m va j (ptePpn m f.pte * 4096) (g || pteG f.pte) s2

/-- A fill for a virtual address: steps 1 to 4 under the current `satp`, MODE not Bare; a read only (R163). -/
def fill (va : Word) (s : State) : State :=
  if s.satp.mode = .bare then s
  else if canonical s.satp.mode va then
    fillFrom s.satp.mode va (levels s.satp.mode - 1) (s.satp.ppn.toNat * 4096) false s
  else s

/-- The cache loses its `k`-th entry (R164). -/
def evict (k : Nat) (s : State) : State :=
  { s with tc := s.tc.eraseIdx k }

end Sys2Proof.Machine
end

