-- ==== Sys2Proof/Machine/Agents.lean ====
section
/-! DEFINITION. The steps of the agents outside the hart's instruction stream (60_exceptions.md R335). -/

namespace Sys2Proof.Machine

/-- A step of another agent: what R335 says it may do, and nothing else. -/
def agentStep (a : AgentStep) (s : State) : State :=
  match a with
  | .setStip b => { s with sip := { s.sip with stip := stipAfter b s } }
  | .setSeip b => { s with sip := { s.sip with seip := b } }
  | .setUtip b => { s with sip := { s.sip with utip := s.cfg.hasN && b } }
  | .raiseSsip => { s with sip := { s.sip with ssip := true } }
  | .setUeipSig b => { s with sip := { s.sip with ueipSig := b } }
  | .timeReaches t =>
    { s with counters := s.counters.set 1 (if s.counters[1].toNat ≤ t.toNat then t else s.counters[1]) }
  | .otherStore pa bytes => if 1 < s.cfg.nharts ∧ pa + bytes.length ≤ 2 ^ s.cfg.paLen then storeBytes pa bytes s else s
  | .fill va => fill va s
  | .evict k => evict k s

end Sys2Proof.Machine
end

