-- ==== Sys2Proof/Syntax.lean ====
section
/-! DEFINITION. The instructions: one constructor for each row of spec/opcode_table.json. -/

namespace Sys2Proof

/-- A set of access kinds ordered by FENCE: device input, device output, reads, writes
(30_encoding.md R186). -/
structure FenceSet where
  i : Bool
  o : Bool
  r : Bool
  w : Bool
deriving DecidableEq, Repr

/-- The twelve instructions (30_encoding.md R184, R186). `uimm` is the 5-bit unsigned immediate of
30_encoding.md R183, a number; `Instr.wf` bounds it. -/
inductive Instr where
  | ecall
  | ebreak
  | uret
  | sret
  | sfenceVma (rs1 rs2 : Reg)
  | csrrw (rd : Reg) (csr : CsrNum) (rs1 : Reg)
  | csrrs (rd : Reg) (csr : CsrNum) (rs1 : Reg)
  | csrrc (rd : Reg) (csr : CsrNum) (rs1 : Reg)
  | csrrwi (rd : Reg) (csr : CsrNum) (uimm : Nat)
  | csrrsi (rd : Reg) (csr : CsrNum) (uimm : Nat)
  | csrrci (rd : Reg) (csr : CsrNum) (uimm : Nat)
  | fence (pred succ : FenceSet)
deriving DecidableEq, Repr

end Sys2Proof
end

