-- ==== Sys2Proof/WellFormed.lean ====
section
/-! DEFINITION. Which instructions an encoding can hold, and which parameters S1 admits. -/

namespace Sys2Proof

/-- An instruction whose operands fit its encoding: the immediate of the three immediate forms is 5 bits
(30_encoding.md R183); the other operand types have the width of their field. -/
def Instr.wf : Instr → Bool
  | .ecall | .ebreak | .uret | .sret => true
  | .sfenceVma _ _ => true
  | .csrrw _ _ _ | .csrrs _ _ _ | .csrrc _ _ _ => true
  | .csrrwi _ _ uimm => decide (uimm < 32)
  | .csrrsi _ _ uimm => decide (uimm < 32)
  | .csrrci _ _ uimm => decide (uimm < 32)
  | .fence _ _ => true

/-- Does a width of S-mode registers have this scheme (10_state.md R73)? -/
def SatpMode.fitsXlen : SatpMode → Xlen → Bool
  | .bare, _ => true
  | .sv32, .rv32 => true
  | .sv32, .rv64 => false
  | .sv39, .rv32 => false
  | .sv39, .rv64 => true
  | .sv48, .rv32 => false
  | .sv48, .rv64 => true

/-- ASIDMAX (10_state.md R76). -/
def Xlen.asidMax : Xlen → Nat
  | .rv32 => 9
  | .rv64 => 16

/-- The widest supervisor physical address (00_scope.md R5, `PALEN`). -/
def Xlen.paMax : Xlen → Nat
  | .rv32 => 34
  | .rv64 => 56

/-- Every interrupt of 60_exceptions.md R281. -/
def Interrupt.all : List Interrupt :=
  [.userSoftware, .supervisorSoftware, .userTimer, .supervisorTimer, .userExternal, .supervisorExternal]

/-- `SATP_MODES` holds Bare and otherwise only schemes of the width (00_scope.md R5). -/
def Config.satpModesWf (c : Config) : Bool :=
  c.satpModes.contains .bare && c.satpModes.all (·.fitsXlen c.sxlen)

/-- `STVEC_VEC_ALIGN` is a power of two, 4 up to 4*XLEN bytes (00_scope.md R5). -/
def Config.vecAlignWf (c : Config) : Bool :=
  (List.range 7).any fun k => decide (c.stvecVecAlign = 2 ^ (k + 2) ∧ c.stvecVecAlign ≤ 4 * c.sxlen.bits)

/-- `ENTRY_PC` is an SXLEN-bit, 4-byte aligned address (00_scope.md R5). -/
def Config.entryPcWf (c : Config) : Bool :=
  decide (c.entryPc.toNat < 2 ^ c.sxlen.bits) && decide (c.entryPc.toNat % 4 = 0)

/-- `IntPriority` orders all six interrupts (00_scope.md R5). -/
def Config.intPriorityWf (c : Config) : Bool :=
  Interrupt.all.all c.intPriority.contains && decide c.intPriority.Nodup

/-- The ranges 00_scope.md R5 allows each parameter; `PALEN` is at least the 12 bits of a page offset, `ILEN_MAX`
at least the 32 bits of this spec's instructions (30_encoding.md R180). -/
def Config.wf (c : Config) : Bool :=
  c.satpModesWf && decide (c.asidLen ≤ c.sxlen.asidMax) && decide (12 ≤ c.paLen) &&
    decide (c.paLen ≤ c.sxlen.paMax) && decide (c.stvecModes ≠ []) && c.vecAlignWf && c.entryPcWf &&
    c.intPriorityWf && decide (32 ≤ c.ilenMax) && decide (1 ≤ c.nharts)

end Sys2Proof
end

