-- ==== Sys2Proof/Decode.lean ====
section
/-! DEFINITION. Decoding of 32-bit words and of bytes, and the encoder, both written from the tables of
30_encoding.md R184 to R186. All field values are PRESUMED (log 23). -/

namespace Sys2Proof

/-- Why bytes are no instruction of this spec. -/
inductive DecodeError where
  /-- Fewer than the four bytes of a word (30_encoding.md R180). -/
  | tooShort
  /-- A SYSTEM word that is no row of 30_encoding.md R184 (R187, R188). -/
  | undefinedSystem
  /-- A word a level above S defines: wait-for-interrupt or the machine-mode return (30_encoding.md R187). -/
  | higherLevel
  /-- A word outside the SYSTEM opcode that is no FENCE: no rule of this spec matches it
  (60_exceptions.md R305 (3)). -/
  | noRule
deriving DecidableEq, Repr

/-! ## Fields of a word (30_encoding.md R181, R182) -/

def fieldOpcode (w : BitVec 32) : BitVec 7 := w.extractLsb' 0 7
def fieldRd (w : BitVec 32) : Reg := w.extractLsb' 7 5
def fieldFunct3 (w : BitVec 32) : BitVec 3 := w.extractLsb' 12 3
def fieldRs1 (w : BitVec 32) : Reg := w.extractLsb' 15 5
def fieldRs2 (w : BitVec 32) : Reg := w.extractLsb' 20 5
def fieldFunct7 (w : BitVec 32) : BitVec 7 := w.extractLsb' 25 7
def fieldCsr (w : BitVec 32) : CsrNum := w.extractLsb' 20 12
def fieldPred (w : BitVec 32) : BitVec 4 := w.extractLsb' 24 4
def fieldSucc (w : BitVec 32) : BitVec 4 := w.extractLsb' 20 4
def fieldFm (w : BitVec 32) : BitVec 4 := w.extractLsb' 28 4

/-- The opcode SYSTEM (30_encoding.md R184). -/
def opSystem : BitVec 7 := 0b1110011#7

/-- The opcode MISC-MEM (30_encoding.md R186). -/
def opMiscMem : BitVec 7 := 0b0001111#7

/-- A FENCE set from its four bits, I the highest (30_encoding.md R186, 43_environment_and_fence.md R265). -/
def fenceSetOf (b : BitVec 4) : FenceSet :=
  { i := b.getLsbD 3, o := b.getLsbD 2, r := b.getLsbD 1, w := b.getLsbD 0 }

/-- The four bits of a FENCE set. -/
def fenceSetBits (f : FenceSet) : BitVec 4 :=
  BitVec.ofBool f.i ++ BitVec.ofBool f.o ++ BitVec.ofBool f.r ++ BitVec.ofBool f.w

/-! ## Decoding -/

/-- Words of the SYSTEM opcode with `funct3 = PRIV` (30_encoding.md R184, R187, R188). -/
def decodePriv (w : BitVec 32) : Except DecodeError Instr :=
  if w = 0x00000073#32 then .ok .ecall
  else if w = 0x00100073#32 then .ok .ebreak
  else if w = 0x00200073#32 then .ok .uret
  else if w = 0x10200073#32 then .ok .sret
  else if fieldFunct7 w = 0b0001001#7 ∧ fieldRd w = 0 then .ok (.sfenceVma (fieldRs1 w) (fieldRs2 w))
  else if w = 0x10500073#32 ∨ w = 0x30200073#32 then .error .higherLevel
  else .error .undefinedSystem

/-- Words of the SYSTEM opcode, by `funct3` (30_encoding.md R184). -/
def decodeSystem (w : BitVec 32) : Except DecodeError Instr :=
  if fieldFunct3 w = 0b000#3 then decodePriv w
  else if fieldFunct3 w = 0b001#3 then .ok (.csrrw (fieldRd w) (fieldCsr w) (fieldRs1 w))
  else if fieldFunct3 w = 0b010#3 then .ok (.csrrs (fieldRd w) (fieldCsr w) (fieldRs1 w))
  else if fieldFunct3 w = 0b011#3 then .ok (.csrrc (fieldRd w) (fieldCsr w) (fieldRs1 w))
  else if fieldFunct3 w = 0b101#3 then .ok (.csrrwi (fieldRd w) (fieldCsr w) (fieldRs1 w).toNat)
  else if fieldFunct3 w = 0b110#3 then .ok (.csrrsi (fieldRd w) (fieldCsr w) (fieldRs1 w).toNat)
  else if fieldFunct3 w = 0b111#3 then .ok (.csrrci (fieldRd w) (fieldCsr w) (fieldRs1 w).toNat)
  else .error .undefinedSystem

/-- Every 32-bit word is an instruction or is rejected by name. -/
def decodeWord (w : BitVec 32) : Except DecodeError Instr :=
  if fieldOpcode w = opSystem then decodeSystem w
  else if fieldOpcode w = opMiscMem ∧ fieldFunct3 w = 0 ∧ fieldRd w = 0 ∧ fieldRs1 w = 0 ∧ fieldFm w = 0 then
    .ok (.fence (fenceSetOf (fieldPred w)) (fenceSetOf (fieldSucc w)))
  else .error .noRule

/-- The 32-bit word of four bytes, the first at the lowest address (20_memory.md R103). -/
def wordOfBytes (b0 b1 b2 b3 : Byte) : BitVec 32 := b3 ++ b2 ++ b1 ++ b0

/-- The first instruction of a list of bytes, and the bytes after it. -/
def decode : List Byte → Except DecodeError (Instr × List Byte)
  | b0 :: b1 :: b2 :: b3 :: rest => (decodeWord (wordOfBytes b0 b1 b2 b3)).map fun i => (i, rest)
  | _ => .error .tooShort

/-! ## Encoding -/

/-- A word of the R or I format from its fields (30_encoding.md R181, R182). -/
def assemble (imm : BitVec 12) (rs1 : BitVec 5) (funct3 : BitVec 3) (rd : BitVec 5) (opcode : BitVec 7) :
    BitVec 32 :=
  imm ++ rs1 ++ funct3 ++ rd ++ opcode

/-- The word of an instruction (30_encoding.md R184, R185, R186). -/
def encode : Instr → BitVec 32
  | .ecall => assemble 0x000 0 0 0 opSystem
  | .ebreak => assemble 0x001 0 0 0 opSystem
  | .uret => assemble 0x002 0 0 0 opSystem
  | .sret => assemble 0x102 0 0 0 opSystem
  | .sfenceVma rs1 rs2 => assemble (0b0001001#7 ++ rs2) rs1 0 0 opSystem
  | .csrrw rd csr rs1 => assemble csr rs1 0b001 rd opSystem
  | .csrrs rd csr rs1 => assemble csr rs1 0b010 rd opSystem
  | .csrrc rd csr rs1 => assemble csr rs1 0b011 rd opSystem
  | .csrrwi rd csr uimm => assemble csr (BitVec.ofNat 5 uimm) 0b101 rd opSystem
  | .csrrsi rd csr uimm => assemble csr (BitVec.ofNat 5 uimm) 0b110 rd opSystem
  | .csrrci rd csr uimm => assemble csr (BitVec.ofNat 5 uimm) 0b111 rd opSystem
  | .fence pred succ => assemble (0b0000#4 ++ fenceSetBits pred ++ fenceSetBits succ) 0 0 0 opMiscMem

/-- The four bytes of a word, the lowest address first (20_memory.md R103). -/
def bytesOfWord (w : BitVec 32) : List Byte :=
  [w.extractLsb' 0 8, w.extractLsb' 8 8, w.extractLsb' 16 8, w.extractLsb' 24 8]

/-- The instruction the decoder reads from the low `nbits` bits of `w`, the bits above being 0: `w` is laid
out as the hardware stores it and given to `decode`. -/
def decodeTableWord (nbits w : Nat) : Option Instr :=
  match decode (bytesOfWord (BitVec.ofNat 32 (w % 2 ^ nbits))) with
  | .ok (i, _) => some i
  | .error _ => none

end Sys2Proof
end

