-- ==== Sys2Proof/Machine/Operands.lean ====
section
/-! DEFINITION. Operand forms: the CSR a number names, the immediate, and the two selectors of SFENCE.VMA. -/

namespace Sys2Proof.Machine

/-- The CSR a number names: the ten supervisor CSRs, the counters, and on SXLEN = 32 their `h` halves; any
other number is not implemented (10_state.md R23, 42_csr_access.md R247). -/
def csrOf (xl : Xlen) (num : CsrNum) : Option Csr :=
  if num = 0x100 then some .sstatus
  else if num = 0x104 then some .sie
  else if num = 0x105 then some .stvec
  else if num = 0x106 then some .scounteren
  else if num = 0x140 then some .sscratch
  else if num = 0x141 then some .sepc
  else if num = 0x142 then some .scause
  else if num = 0x143 then some .stval
  else if num = 0x144 then some .sip
  else if num = 0x180 then some .satp
  else if num.extractLsb' 5 7 = 0b1100000#7 then some (.counter (num.extractLsb' 0 5))
  else if num.extractLsb' 5 7 = 0b1100100#7 ∧ xl = .rv32 then some (.counterHigh (num.extractLsb' 0 5))
  else none

/-- The immediate operand, zero-extended to SXLEN (30_encoding.md R183). -/
def uimmValue (uimm : Nat) : Word :=
  (BitVec.ofNat 5 uimm).setWidth 64

/-- The address selector of SFENCE.VMA: `none` is ALL, chosen by the register number (40_sfence_vma.md
R200, R208(b)). -/
def vaSelector (rs1 : Reg) (s : State) : Option Word :=
  if rs1 = 0 then none else some (getX rs1 s)

/-- The ASID selector of SFENCE.VMA: `none` is ALL; the value's bits from ASIDLEN up are ignored
(40_sfence_vma.md R200, R206). -/
def asidSelector (rs2 : Reg) (s : State) : Option (BitVec 16) :=
  if rs2 = 0 then none
  else some ((getX rs2 s).setWidth 16 &&& BitVec.ofNat 16 (2 ^ s.cfg.asidLen - 1))

end Sys2Proof.Machine
end

