-- ==== Sys2Proof/Machine/Csr.lean ====
section
/-! DEFINITION. The CSR access instructions (42_csr_access.md). -/

namespace Sys2Proof.Machine

/-! ## Checks, reads and writes (R242 to R248) -/

/-- The `scounteren` bit of a counter, where the CSR is one (R246). -/
def counterBit : Csr → Option (BitVec 5)
  | .counter n => some n
  | .counterHigh n => some n
  | .sstatus => none
  | .sie => none
  | .stvec => none
  | .scounteren => none
  | .sscratch => none
  | .sepc => none
  | .scause => none
  | .stval => none
  | .sip => none
  | .satp => none

/-- Does `scounteren` keep this CSR from the current mode (R246)? -/
def counterDenied (c : Csr) (s : State) : Bool :=
  match counterBit c with
  | none => false
  | some n => decide (s.priv = .user) && !s.scounteren.getLsbD n.toNat

/-- The privilege a mode has over CSR numbers: `csr[9:8]` may not exceed it (R241, R242). -/
def privLevel : Priv → Nat
  | .user => 0
  | .supervisor => 1

/-- `CsrCheck(csr, wr, priv)`: the CSR, or none where the access is illegal (R242). -/
def csrCheck (num : CsrNum) (wr : Bool) (s : State) : Option Csr :=
  match csrOf s.cfg.sxlen num with
  | none => none
  | some c =>
    if privLevel s.priv < (num.extractLsb' 8 2).toNat then none
    else if wr ∧ num.extractLsb' 10 2 = 3 then none
    else if counterDenied c s then none
    else some c

/-- A counter's value when it is next observed: not before the value last observed (60_exceptions.md R330). -/
def advanceCounter (k : Nat) (old : Word) : Word :=
  BitVec.ofNat 64 (old.toNat + k % (2 ^ 64 - old.toNat))

/-- Observe a counter. `instret` is the exact count of retired instructions; every other counter has advanced
by a free amount (60_exceptions.md R330; log 16). -/
def observeCounter (n : BitVec 5) (s : State) : Word × State :=
  if n = 2 then (s.counters[2], s)
  else
    (advanceCounter (Config.counterAdvance s.draws) (s.counters[n.toNat]'(n.isLt)),
      drawn { s with
        counters :=
          s.counters.set n.toNat (advanceCounter (Config.counterAdvance s.draws) (s.counters[n.toNat]'(n.isLt)))
            n.isLt })

/-- `CsrRead(csr)` (R243), and the state after it (a counter has been observed). -/
def csrRead (c : Csr) (s : State) : Word × State :=
  match c with
  | .sstatus => (sstatusWord s.cfg s.sstatus, s)
  | .sie => (sieWord s.cfg s.sie, s)
  | .stvec => (s.stvec, s)
  | .scounteren => (s.scounteren.setWidth 64, s)
  | .sscratch => (s.sscratch, s)
  | .sepc => (legalSepc s.cfg s.sepc, s)
  | .scause => (s.scause, s)
  | .stval => (s.stval, s)
  | .sip => (sipWord s.cfg s.sip, s)
  | .satp => (satpWord s.cfg.sxlen s.satp, s)
  | .counter n => (truncX s.cfg.sxlen (observeCounter n s).1, (observeCounter n s).2)
  | .counterHigh n => ((observeCounter n s).1 >>> 32, (observeCounter n s).2)

/-- `CsrWrite(csr, v)` (R244). Counters are read-only; `csrCheck` stops a write to one. -/
def csrWrite (c : Csr) (v : Word) (s : State) : State :=
  match c with
  | .sstatus => { s with sstatus := sstatusOfWord s.cfg v }
  | .sie => { s with sie := sieOfWord s.cfg v }
  | .stvec => { s with stvec := stvecOfWord s.cfg s.stvec v }
  | .scounteren => { s with scounteren := v.setWidth 32 &&& s.cfg.scounterenMask }
  | .sscratch => { s with sscratch := truncX s.cfg.sxlen v }
  | .sepc => { s with sepc := legalSepc s.cfg v }
  | .scause => { s with scause := truncX s.cfg.sxlen v }
  | .stval => { s with stval := truncX s.cfg.sxlen v }
  | .sip => { s with sip := sipOfWord s.cfg s.sip v }
  | .satp => { s with satp := satpOfWord s.cfg s.satp v }
  | .counter _ => s
  | .counterHigh _ => s

/-- The value the modify step works on: the value read, but for `sip` with the software UEIP bit alone
(R248). -/
def csrBase (c : Csr) (read : Word) (s : State) : Word :=
  match c with
  | .sip => sipBaseWord s.cfg s.sip
  | .sstatus => read
  | .sie => read
  | .stvec => read
  | .scounteren => read
  | .sscratch => read
  | .sepc => read
  | .scause => read
  | .stval => read
  | .satp => read
  | .counter _ => read
  | .counterHigh _ => read

/-- Read the CSR, write `rd` and, where the instruction writes, the CSR, and retire; `op` forms the new value
from the base value (42_csr_access.md section 2). -/
def csrAccess (c : Csr) (rd : Reg) (writes : Bool) (op : Word → Word) (s : State) : State :=
  match csrRead c s with
  | (old, s1) =>
    if writes then retire (csrWrite c (op (csrBase c old s)) (setX rd old s1)) else retire (setX rd old s1)

/-- The pseudocode common to the six instructions (42_csr_access.md section 2); `i` is the instruction, for
the trap value. -/
def csrInstr (i : Instr) (num : CsrNum) (rd : Reg) (writes : Bool) (op : Word → Word) (s : State) :
    Host.Outcome State Fault Refusal :=
  match csrCheck num writes s with
  | none => .next (raiseIllegal (encode i) s)
  | some c => .next (csrAccess c rd writes op s)

/-! ## The six instructions -/

/-- CSRRW (R250): writes always; it reads only where `rd` is not `x0`, which no read of this spec lets anyone
see, a counter being unwritable (R245). -/
def execCsrrw (rd : Reg) (csr : CsrNum) (rs1 : Reg) (s : State) : Host.Outcome State Fault Refusal :=
  csrInstr (.csrrw rd csr rs1) csr rd true (fun _ => getX rs1 s) s

/-- CSRRS (R251): writes only where the register number is not 0 (R245). -/
def execCsrrs (rd : Reg) (csr : CsrNum) (rs1 : Reg) (s : State) : Host.Outcome State Fault Refusal :=
  csrInstr (.csrrs rd csr rs1) csr rd (decide (rs1 ≠ 0)) (fun base => base ||| getX rs1 s) s

/-- CSRRC (R252): writes only where the register number is not 0 (R245). -/
def execCsrrc (rd : Reg) (csr : CsrNum) (rs1 : Reg) (s : State) : Host.Outcome State Fault Refusal :=
  csrInstr (.csrrc rd csr rs1) csr rd (decide (rs1 ≠ 0)) (fun base => base &&& ~~~(getX rs1 s)) s

/-- CSRRWI (R253): writes always. -/
def execCsrrwi (rd : Reg) (csr : CsrNum) (uimm : Nat) (s : State) : Host.Outcome State Fault Refusal :=
  csrInstr (.csrrwi rd csr uimm) csr rd true (fun _ => uimmValue uimm) s

/-- CSRRSI (R254): writes only where the immediate is not 0 (R245). -/
def execCsrrsi (rd : Reg) (csr : CsrNum) (uimm : Nat) (s : State) : Host.Outcome State Fault Refusal :=
  csrInstr (.csrrsi rd csr uimm) csr rd (decide (uimm ≠ 0)) (fun base => base ||| uimmValue uimm) s

/-- CSRRCI (R255): writes only where the immediate is not 0 (R245). -/
def execCsrrci (rd : Reg) (csr : CsrNum) (uimm : Nat) (s : State) : Host.Outcome State Fault Refusal :=
  csrInstr (.csrrci rd csr uimm) csr rd (decide (uimm ≠ 0)) (fun base => base &&& ~~~(uimmValue uimm)) s

end Sys2Proof.Machine
end

