-- ==== Sys2Proof/Machine/Environment.lean ====
section
/-! DEFINITION. ECALL, EBREAK and FENCE (43_environment_and_fence.md), with the SBI call. -/

namespace Sys2Proof.Machine

/-! ## The SBI call: one step of the SEE (R261, 60_exceptions.md R335) -/

/-- The registers the call's contract names take free values. -/
def sbiRegisters (d : Nat) (args : List Word) : List Reg → State → State
  | [], s => s
  | r :: rs, s => sbiRegisters d args rs (setX r (Config.sbiRegister d args r) s)

/-- The CSRs the call's contract names take legal free values. -/
def sbiCsrs (d : Nat) (args : List Word) : List Csr → State → State
  | [], s => s
  | c :: cs, s => sbiCsrs d args cs (csrWrite c (Config.sbiCsr d args c) s)

/-- `n` bytes of memory from an address take free values. -/
def sbiBytes (d : Nat) (args : List Word) (pa : Nat) : Nat → State → State
  | 0, s => s
  | n + 1, s => sbiBytes d args (pa + 1) n (storeByte pa (Config.sbiByte d args pa) s)

/-- The memory the call's contract names takes free values. -/
def sbiMemory (d : Nat) (args : List Word) : List (Nat × Nat) → State → State
  | [], s => s
  | r :: rs, s => sbiMemory d args rs (sbiBytes d args r.1 r.2 s)

/-- A timer interrupt may be scheduled, where the contract has the liberty (60_exceptions.md R331). -/
def sbiTimer (d : Nat) (args : List Word) (s : State) : State :=
  { s with timer := if s.cfg.sbi.liberties.contains .timer then Config.sbiTimer d args s.timer else s.timer }

/-- The pending bits the SEE owns take free values, each where the contract has the liberty; STIP is not set before the
time scheduled (60_exceptions.md R331), and SSIP may be set, not cleared (60_exceptions.md R335). -/
def sbiPendingBits (d : Nat) (args : List Word) (s : State) : State :=
  { s with
    sip :=
      { s.sip with
        stip :=
          if s.cfg.sbi.liberties.contains .stip then stipAfter (Config.sbiPending d args .supervisorTimer) s
          else s.sip.stip
        seip := if s.cfg.sbi.liberties.contains .seip then Config.sbiPending d args .supervisorExternal else s.sip.seip
        utip :=
          if s.cfg.hasN && s.cfg.sbi.liberties.contains .utip then Config.sbiPending d args .userTimer else s.sip.utip
        ssip :=
          s.sip.ssip || (s.cfg.sbi.liberties.contains .ssip && Config.sbiPending d args .supervisorSoftware) } }

/-- The values a call leaves in the counters. -/
@[irreducible] def sbiCounterValues (d : Nat) (args : List Word) : Vector Word 32 :=
  Vector.ofFn fun i => Config.sbiCounter d args i.val

/-- The counters take free values, where the contract has the liberty (60_exceptions.md R335). -/
def sbiCounters (d : Nat) (args : List Word) (s : State) : State :=
  { s with counters := if s.cfg.sbi.liberties.contains .counters then sbiCounterValues d args else s.counters }

/-- What the SEE does in a call: what it may, and nothing else (R261). -/
def sbiServe (d : Nat) (args : List Word) (s : State) : State :=
  sbiCsrs d args s.cfg.sbi.csrs <| sbiPendingBits d args <| sbiTimer d args <| sbiCounters d args <|
    sbiMemory d args s.cfg.sbi.memory <| sbiRegisters d args s.cfg.sbi.results s

/-- Note the registers of a call that is made (70_reset_and_hazards.md R353). -/
def noteCall (x : Vector Word 32) (s : State) : State :=
  { s with lastCall := some x }

/-- `SbiCall()`: the SEE serves the call and the hart resumes in S-mode at `pc + 4` (R261), the instruction having
retired (60_exceptions.md R305 (5)). -/
def sbiCall (s : State) : State :=
  drawn (retire (noteCall s.x (sbiServe s.draws (s.cfg.sbi.args.map fun r => getX r s) s)))

/-! ## The instructions -/

/-- ECALL (R260): in U-mode the Environment call exception with trap value 0; in S-mode an SBI call. -/
def execEcall (s : State) : Host.Outcome State Fault Refusal :=
  match s.priv with
  | .user => .next (trapToS (.exception .environmentCall) 0 s.pc s)
  | .supervisor => .next (sbiCall s)

/-- The trap value of EBREAK (R263). -/
def ebreakTvalOf (s : State) : Word :=
  match s.cfg.ebreakTval with
  | .zero => 0
  | .pc => s.pc

/-- EBREAK (R262): the Breakpoint exception in either mode. -/
def execEbreak (s : State) : Host.Outcome State Fault Refusal :=
  .next (trapToS (.exception .breakpoint) (ebreakTvalOf s) s.pc s)

/-- FENCE (R265): what it orders is the order other harts and devices see; this hart's own accesses are in
program order already, so only the pc moves (log 40). -/
def execFence (_pred _succ : FenceSet) (s : State) : Host.Outcome State Fault Refusal :=
  .next (retire s)

end Sys2Proof.Machine
end

