-- ==== Sys2Proof/Machine/SfenceVma.lean ====
section
/-! DEFINITION. SFENCE.VMA (40_sfence_vma.md). -/

namespace Sys2Proof.Machine

/-- Does the fence's ASID selector reach an entry (R205)? Global entries only by ALL. -/
def asidCovers (sel : Option (BitVec 16)) (e : TcEntry) : Bool :=
  match sel with
  | none => true
  | some a => !e.global && decide (e.asid = a)

/-- Does the fence's address selector reach an entry (R205)? By one address only leaves of its VPN fields in the
current scheme; under Bare every leaf. How an entry cached under another scheme compares is DESIGN CHOICE (log 50). -/
def vaCovers (m : SatpMode) (sel : Option Word) (e : TcEntry) : Bool :=
  match sel with
  | none => true
  | some va => pteLeaf e.pte && (decide (m = .bare) || decide (e.vpnPrefix = vpnPrefix m va e.level))

/-- `Covered(e, va_sel, asid_sel)` (R205). -/
def covered (m : SatpMode) (vaSel : Option Word) (asidSel : Option (BitVec 16)) (e : TcEntry) : Bool :=
  asidCovers asidSel e && vaCovers m vaSel e

/-- Remove the covered entries, and with them any others a free value names: a superset of the covered set
(R205). -/
def fenceTc (vaSel : Option Word) (asidSel : Option (BitVec 16)) (s : State) : State :=
  drawn { s with
    tc := s.tc.filter fun e =>
      !covered s.satp.mode vaSel asidSel e && !Config.fenceDropsAlso s.draws e }

/-- SFENCE.VMA (R200): illegal in U-mode (R207). Earlier stores are in memory already, so later implicit reads
that no surviving entry serves see them (R201). -/
def execSfenceVma (rs1 rs2 : Reg) (s : State) : Host.Outcome State Fault Refusal :=
  match s.priv with
  | .user => .next (raiseIllegal (encode (.sfenceVma rs1 rs2)) s)
  | .supervisor => .next (retire (fenceTc (vaSelector rs1 s) (asidSelector rs2 s) s))

end Sys2Proof.Machine
end

