-- ==== Sys2Proof/Machine/TrapReturn.lean ====
section
/-! DEFINITION. The trap-return instructions SRET and URET (41_trap_return.md). -/

namespace Sys2Proof.Machine

/-- SRET (R220): illegal in U-mode (R222); in S-mode the return of `returnFromS`. -/
def execSret (s : State) : Host.Outcome State Fault Refusal :=
  match s.priv with
  | .user => .next (raiseIllegal (encode .sret) s)
  | .supervisor => .next (returnFromS s)

/-- URET (R225): illegal without the N extension; with it refused, since the CSRs it returns by are not in the
spec (90_conflicts.md C15; log 22). -/
def execUret (s : State) : Host.Outcome State Fault Refusal :=
  if s.cfg.hasN then .refused .uretWithN else .next (raiseIllegal (encode .uret) s)

end Sys2Proof.Machine
end

