-- ==== Sys2Proof/Machine/BaseIsa.lean ====
section
/-! DEFINITION. The contract of base-ISA instructions with the supervisor architecture
(43_environment_and_fence.md R267, R268): what their loads, stores, atomics and control transfers do to this
state. No instruction of the table calls these operations; a base ISA from elsewhere would (log 38). -/

namespace Sys2Proof.Machine

/-- A misaligned load, byte by byte in ascending order, each byte translated on its own (20_memory.md R105,
D14). -/
def loadSplit (va : Word) : Nat → State → Access Word
  | 0, s => .ok 0 s
  | n + 1, s =>
    (memRead .load va 1 s).andThen fun b s1 =>
      (loadSplit (truncX s1.cfg.sxlen (va + 1)) n s1).andThen fun rest s2 => .ok (b ||| (rest <<< 8)) s2

/-- A misaligned store, byte by byte in ascending order (20_memory.md R105, D14). -/
def storeSplit (va : Word) : List Byte → State → Access Unit
  | [], s => .ok () s
  | b :: bs, s =>
    (memWrite va 1 (b.setWidth 64) s).andThen fun _ s1 => storeSplit (truncX s1.cfg.sxlen (va + 1)) bs s1

/-- What the first `n` bytes of a misaligned store leave where they are not written: the A and D bits of their PTEs,
set as far as each byte's access succeeds (60_exceptions.md R302(b)). -/
def markSplit (va : Word) : Nat → State → State
  | 0, s => s
  | n + 1, s =>
    match access .store va 1 s with
    | .ok _ s1 => markSplit (truncX s1.cfg.sxlen (va + 1)) n s1
    | .raise _ _ _ => s
    | .refuse _ => s

/-- A split store from `ea` on that faults may have written its earlier bytes, or have set only A and D for them: a
free value decides (60_exceptions.md R301, R302(b); log 19). `s` is the state before the store. -/
def mayUnwrite (ea : Word) (s : State) (a : Access Unit) : Access Unit :=
  match a with
  | .ok v s1 => .ok v s1
  | .raise e tval s1 =>
    if Config.keepsFirstBytes s1.draws then .raise e tval (drawn s1)
    else
      .raise e tval
        (drawn { markSplit ea (truncX s.cfg.sxlen (tval - ea)).toNat s with
          draws := s1.draws, reservedPte := s1.reservedPte })
  | .refuse r => .refuse r

/-- The data a load of `n` bytes at `ea` reads (R267). -/
def dataLoad (ea : Word) (n : Nat) (s : State) : Access Word :=
  if ea.toNat % n = 0 then memRead .load ea n s
  else
    match s.cfg.misaligned with
    | .perform => mayUndo s (loadSplit ea n s)
    | .refuse => .refuse .misalignedAccess

/-- A store of the low `n` bytes of `v` at `ea` (R267). -/
def dataStore (ea : Word) (n : Nat) (v : Word) (s : State) : Access Unit :=
  if ea.toNat % n = 0 then memWrite ea n v s
  else
    match s.cfg.misaligned with
    | .perform => mayUndo s (mayUnwrite ea s (storeSplit ea (leBytes v n) s))
    | .refuse => .refuse .misalignedAccess

/-- The access of a load-reserve: aligned, translated as a load (R267, 21_address_translation.md R150). -/
def atomicLoad (ea : Word) (n : Nat) (s : State) : Access Word :=
  if ea.toNat % n = 0 then memRead .load ea n s else .raise .amoMisaligned ea s

/-- The access of a store-conditional that stores: aligned, translated as a store (R267). -/
def atomicStore (ea : Word) (n : Nat) (v : Word) (s : State) : Access Unit :=
  if ea.toNat % n = 0 then memWrite ea n v s else .raise .amoMisaligned ea s

/-- The access of an AMO, one atomic step: aligned, translated as a store, the old value answered and `f` of it
stored (R267). -/
def atomicUpdate (ea : Word) (n : Nat) (f : Word → Word) (s : State) : Access Word :=
  if ea.toNat % n = 0 then
    (access .store ea n s).andThen fun pa s1 => .ok (physRead pa n s1) (physWrite pa n (f (physRead pa n s1)) s1)
  else .raise .amoMisaligned ea s

/-- Is an instruction address aligned (10_state.md R22)? -/
def alignedPc (c : Config) (v : Word) : Bool :=
  if c.ialign16 then decide (v.toNat % 2 = 0) else decide (v.toNat % 4 = 0)

/-- A control transfer to `target`: a misaligned target raises on the transferring instruction, with the
target as trap value (R268, D20). -/
def jumpTo (target : Word) (s : State) : State :=
  if alignedPc s.cfg (truncX s.cfg.sxlen target) then retireTo target s
  else trapToS (.exception .instrMisaligned) target s.pc s

/-- The end of an instruction made of one access: it retires, or takes the exception the access raised. -/
def finishAccess (a : Access Unit) : Host.Outcome State Fault Refusal :=
  match a with
  | .ok _ s => .next (retire s)
  | .raise e tval s => .next (trapToS (.exception e) tval s.pc s)
  | .refuse r => .refused r

/-- The end of a load: the register takes the value, extended as the base instruction says, only where no
exception was raised (R267). -/
def finishLoad (rd : Reg) (extend : Word → Word) (a : Access Word) : Host.Outcome State Fault Refusal :=
  match a with
  | .ok v s => .next (retire (setX rd (extend v) s))
  | .raise e tval s => .next (trapToS (.exception e) tval s.pc s)
  | .refuse r => .refused r

end Sys2Proof.Machine
end

