-- ==== Sys2Proof/Machine/Fetch.lean ====
section
/-! DEFINITION. Fetching an instruction (60_exceptions.md R306). -/

namespace Sys2Proof.Machine

/-- One portion of an instruction, translated with access type fetch (R306). -/
def fetchPortion (va : Word) (n : Nat) (s : State) : Access Word :=
  (access .fetch va n s).andThen fun pa s1 => .ok (fetchBytes pa n s1).1 (fetchBytes pa n s1).2

/-- `Fetch(pc)`: one aligned 4-byte portion, or two 2-byte portions where 16-bit alignment allows a pc in the
middle of a word; a fault on the second reports its own address (R292, R306). -/
def fetch (s : State) : Access (BitVec 32) :=
  if s.pc.toNat % 4 = 0 then (fetchPortion s.pc 4 s).andThen fun w s1 => .ok (w.setWidth 32) s1
  else
    mayUndo s <| (fetchPortion s.pc 2 s).andThen fun lo s1 =>
      (fetchPortion (truncX s1.cfg.sxlen (s1.pc + 2)) 2 s1).andThen fun hi s2 =>
        .ok (hi.setWidth 16 ++ lo.setWidth 16) s2

end Sys2Proof.Machine
end

