-- ==== Sys2Proof/Machine/Interrupts.lean ====
section
/-! DEFINITION. When an interrupt is takeable, which one comes first, and taking it (60_exceptions.md R310 to
R313). -/

namespace Sys2Proof.Machine

/-- Is an interrupt supervisor-level (codes 1, 5, 9) rather than user-level (R310)? -/
def supervisorLevel : Interrupt → Bool
  | .userSoftware => false
  | .supervisorSoftware => true
  | .userTimer => false
  | .supervisorTimer => true
  | .userExternal => false
  | .supervisorExternal => true

/-- `Pending(i)`: the bit of `sip` as read (R310). -/
def pending (i : Interrupt) (s : State) : Bool :=
  (sipWord s.cfg s.sip).getLsbD (interruptCode i)

/-- The enable bit of `sie` (R310). -/
def enabled (i : Interrupt) (s : State) : Bool :=
  (sieWord s.cfg s.sie).getLsbD (interruptCode i)

/-- `ModeEnabled(i)` (R310). -/
def modeEnabled (i : Interrupt) (s : State) : Bool :=
  match supervisorLevel i, s.priv with
  | true, .user => true
  | true, .supervisor => s.sstatus.sie
  | false, .user => s.cfg.hasN && s.sstatus.uie
  | false, .supervisor => false

/-- `Takeable(i)` (R310). -/
def takeable (i : Interrupt) (s : State) : Bool :=
  pending i s && enabled i s && modeEnabled i s

/-- The highest-priority takeable interrupt (R312). -/
def firstTakeable (s : State) : Option Interrupt :=
  s.cfg.intPriority.find? fun i => takeable i s

/-- Taking an interrupt: `TrapToS(1, i, 0, pc)` (R305 (1)); user-level interrupts go to S-mode too (R313). -/
def takeInterrupt (i : Interrupt) (s : State) : State :=
  trapToS (.interrupt i) 0 s.pc s

end Sys2Proof.Machine
end

