-- ==== Sys2Proof/Machine/Hart.lean ====
section
/-! DEFINITION. One turn of the machine: the hart step of 60_exceptions.md R305, and whose turn it is. -/

namespace Sys2Proof.Machine

/-- Steps (3) to (5) of R305 on a fetched word: an instruction executes; a word no rule matches is illegal; a
word of a higher level is refused (30_encoding.md R187). -/
def executeWord (word : BitVec 32) (s : State) : Host.Outcome State Fault Refusal :=
  match decodeWord word with
  | .ok i => exec i s
  | .error .higherLevel => .refused (.higherLevelEncoding word)
  | .error .undefinedSystem => .next (raiseIllegal word s)
  | .error .tooShort => .next (raiseIllegal word s)
  | .error .noRule => .next (raiseIllegal word s)

/-- Steps (2) to (5) of R305: fetch, decode, execute. -/
def executeNext (s : State) : Host.Outcome State Fault Refusal :=
  if alignedPc s.cfg s.pc then
    match fetch s with
    | .ok word s1 => executeWord word s1
    | .raise e tval s1 => .next (trapToS (.exception e) tval s1.pc s1)
    | .refuse r => .refused r
  else .fault .pcMisaligned

/-- The hart's turn (R305): a takeable interrupt may be taken, a free value says whether; else an instruction
executes. -/
def hartTurn (s : State) : Host.Outcome State Fault Refusal :=
  match firstTakeable s with
  | some i => if Config.takesInterrupt s.draws then .next (takeInterrupt i (drawn s)) else executeNext (drawn s)
  | none => executeNext s

/-- The hart's turn where it does take a takeable interrupt. -/
def hartTurnInterrupted (s : State) : Host.Outcome State Fault Refusal :=
  match firstTakeable s with
  | some i => .next (takeInterrupt i s)
  | none => executeNext s

/-- One turn: the first of `turns`, or the hart's where none is listed (60_exceptions.md R305, R335; log 7). -/
def takeTurn (s : State) : Host.Outcome State Fault Refusal :=
  match s.turns with
  | [] => hartTurn s
  | .hartExecutes :: rest => executeNext { s with turns := rest }
  | .hartInterrupted :: rest => hartTurnInterrupted { s with turns := rest }
  | .agent a :: rest => .next (agentStep a { s with turns := rest })

/-! ## The end of a run (70_reset_and_hazards.md R353)

A harness's notion: the hart does not stop there, and no step reads it. -/

/-- What a place of the hart's state holds. -/
def endValue (p : EndPlace) (s : State) : Word :=
  match p with
  | .priv => BitVec.ofNat 64 (privLevel s.priv)
  | .pc => s.pc
  | .reg r => getX r s
  | .csr (.counter n) => s.counters[n.toNat]'(n.isLt)
  | .csr (.counterHigh n) => (s.counters[n.toNat]'(n.isLt)) >>> 32
  | .csr c => (csrRead c s).1
  | .ueipSw => bitAt s.sip.ueipSw 0
  | .ueipSig => bitAt s.sip.ueipSig 0
  | .byte pa => (s.mem.read pa).setWidth 64
  | .cached e => bitAt (s.tc.contains e) 0
  | .sbiCalled => bitAt s.lastCall.isSome 0
  | .sbiReg r =>
    match s.lastCall with
    | none => 0
    | some x => x[r.toNat]'(r.isLt)

/-- Does a predicate of this form hold? -/
def endHolds (p : EndOfRun) (s : State) : Bool :=
  match p with
  | .never => false
  | .test place mask value => decide (endValue place s &&& mask = value)
  | .neg p => !endHolds p s
  | .both p q => endHolds p s && endHolds q s
  | .either p q => endHolds p s || endHolds q s

/-- `Cfg.EndOfRun` (R353). -/
def atEnd (s : State) : Bool :=
  endHolds s.cfg.endOfRun s

end Sys2Proof.Machine
end

