-- ==== Sys2Proof/Machine/Step.lean ====
section
/-! DEFINITION. One step of the machine, and placing the next instruction. -/

namespace Sys2Proof.Machine

/-- One step: one turn (Machine/Hart.lean). -/
def step (s : State) : Host.Outcome State Fault Refusal :=
  takeTurn s

/-- The state with an instruction stored where the next fetch reads it: at the pc, translation off (at
supervisor entry it is off already). It stands for the SEE's placing of a program (log 5). -/
def State.withFetchWord (s : State) (nbits w : Nat) : State :=
  { s with
    satp := { s.satp with mode := .bare }
    mem := placeBytes s.pc.toNat (bytesOfWord (BitVec.ofNat 32 (w % 2 ^ nbits))) s.mem
    oldBytes := [] }

end Sys2Proof.Machine
end

