-- ==== Sys2Proof/Safety.lean ====
section
/-! DEFINITION. The terms claims are stated in: the legal states, supervisor entry, and what an instruction
leaves unchanged. -/

namespace Sys2Proof.Machine

/-! ## Legal states -/

/-- The value is an SXLEN-bit value. -/
abbrev fitsX (xl : Xlen) (v : Word) : Prop :=
  truncX xl v = v

/-- `x0` holds 0 and every register an SXLEN-bit value (10_state.md R21). -/
def RegistersLegal (s : State) : Prop :=
  s.x[0] = 0 ∧ ∀ r : Reg, fitsX s.cfg.sxlen (getX r s)

/-- The pc is an SXLEN-bit, aligned address (10_state.md R22). -/
def PcLegal (s : State) : Prop :=
  fitsX s.cfg.sxlen s.pc ∧ alignedPc s.cfg s.pc = true

/-- `stvec` holds a supported MODE (10_state.md R43). -/
def TvecLegal (s : State) : Prop :=
  fitsX s.cfg.sxlen s.stvec ∧
    ((s.stvec.extractLsb' 0 2 = 0 ∧ s.cfg.stvecModes.contains .direct = true) ∨
      (s.stvec.extractLsb' 0 2 = 1 ∧ s.cfg.stvecModes.contains .vectored = true))

/-- `satp` holds a supported MODE and no unimplemented ASID or PPN bit (10_state.md R74 to R76). -/
def SatpLegal (s : State) : Prop :=
  satpSupported s.cfg s.satp.mode = true ∧
    s.satp.asid &&& ~~~(BitVec.ofNat 16 (2 ^ s.cfg.asidLen - 1)) = 0 ∧
      s.satp.ppn &&& ~~~(BitVec.ofNat 44 (2 ^ (s.cfg.paLen - 12) - 1)) = 0

/-- Without the N extension its bits are 0 (10_state.md R32, R45, R47, R50, R54). -/
def UserBitsLegal (s : State) : Prop :=
  s.cfg.hasN = false →
    s.sstatus.uie = false ∧ s.sstatus.upie = false ∧ s.sie.usie = false ∧ s.sie.utie = false ∧
      s.sie.ueie = false ∧ s.sip.usip = false ∧ s.sip.utip = false ∧ s.sip.ueipSw = false

/-- Every supervisor CSR holds a legal value (10_state.md R39 to R76). -/
def CsrsLegal (s : State) : Prop :=
  UserBitsLegal s ∧ TvecLegal s ∧ SatpLegal s ∧ s.scounteren &&& ~~~s.cfg.scounterenMask = 0 ∧
    fitsX s.cfg.sxlen s.sscratch ∧ legalSepc s.cfg s.sepc = s.sepc ∧ fitsX s.cfg.sxlen s.scause ∧
      fitsX s.cfg.sxlen s.stval

/-- The translation cache holds valid PTEs only (21_address_translation.md R163). -/
def CacheLegal (s : State) : Prop :=
  ∀ e ∈ s.tc, pteValid e.pte = true

/-- A state a run can be in. -/
structure State.Inv (s : State) : Prop where
  cfg : s.cfg.wf = true
  registers : RegistersLegal s
  pc : PcLegal s
  csrs : CsrsLegal s
  memory : s.mem.wf = true
  cache : CacheLegal s

/-- What supervisor entry fixes (10_state.md R83, 70_reset_and_hazards.md R341); everything else R83 leaves
unspecified, so any legal state with these values is an entry state. -/
def State.AtEntry (s : State) : Prop :=
  s.Inv ∧ s.priv = .supervisor ∧ s.pc = s.cfg.entryPc ∧ s.sstatus.sie = false ∧ s.satp.mode = .bare

/-- A run of at most `k` steps, read at the moment `EndOfRun` first holds (70_reset_and_hazards.md R353). -/
def runToEnd : Nat → State → Host.Outcome State Fault Refusal
  | 0, s => .next s
  | k + 1, s =>
    if atEnd s then .next s
    else
      match step s with
      | .next t => runToEnd k t
      | .fault f => .fault f
      | .refused r => .refused r

/-! ## The page tables as a walk sees them (21_address_translation.md R150, R161) -/

/-- Address of the PTE a walk for `va` reads at level `i` of the table at `a` (R150 step 2). -/
def pteAddrAt (m : SatpMode) (va : Word) (i a : Nat) : Nat :=
  a + vpn m va i * pteBytes m

/-- A PTE that step 2 may use there, and the address it was read from: memory's, or that of a cache entry for the same
level and VPN fields that is global, or of the current ASID and read from that address or, where `tcAcrossTables` has
it so, from any (R161, R162, 93_implementation_defined.md U9, 70_reset_and_hazards.md R345(a); logs 49, 50). -/
def PteFrom (m : SatpMode) (va : Word) (s : State) (i a : Nat) (pte : Word) (source : Nat) : Prop :=
  (pte = physRead (pteAddrAt m va i a) (pteBytes m) s ∧ source = pteAddrAt m va i a) ∨
    ∃ e ∈ s.tc, e.pte = pte ∧ e.pteAddr = source ∧ e.level = i ∧ e.vpnPrefix = vpnPrefix m va i ∧
      (e.global = true ∨
        e.asid = s.satp.asid ∧ (e.pteAddr = pteAddrAt m va i a ∨ s.cfg.tcAcrossTables = true))

/-- A PTE that step 2 may use there. -/
def PteVisible (m : SatpMode) (va : Word) (s : State) (i a : Nat) (pte : Word) : Prop :=
  ∃ source, PteFrom m va s i a pte source

/-- The walk for `va` reaches the table at `a` with level `i`: from the root at `satp.PPN * 4096`, by readable, valid
pointer PTEs, each leading to the table at its `ppn * 4096` (R150 steps 1 to 4); `g` says whether one of them has G
set (R145). -/
inductive Reaches (m : SatpMode) (va : Word) (s : State) : Nat → Nat → Bool → Prop where
  /-- Step 1. -/
  | root : Reaches m va s (levels m - 1) (s.satp.ppn.toNat * 4096) false
  /-- Step 4: a PTE with V set and R, W and X clear. -/
  | pointer {i a : Nat} {g : Bool} {pte : Word} (h : Reaches m va s (i + 1) a g)
      (hc : physCheck s.cfg (pteAddrAt m va (i + 1) a) (pteBytes m) .load .supervisor = true)
      (hp : PteVisible m va s (i + 1) a pte) (hv : pte.extractLsb' 0 4 = 0b0001#4) :
      Reaches m va s i (ptePpn m pte * 4096) (g || pte.getLsbD 5)

/-- The PTE is a valid leaf: V set, R or X set, and not W without R (R150 steps 3, 4). -/
def LeafPte (pte : Word) : Prop :=
  pte.getLsbD 0 = true ∧ (pte.getLsbD 1 = true ∨ pte.getLsbD 3 = true) ∧
    (pte.getLsbD 2 = true → pte.getLsbD 1 = true)

/-- The leaf permits the access (R153): its U bit admits the mode, with SUM in S-mode, and its R, W, X bits the type,
with MXR for loads. -/
def LeafPermits (pte : Word) (t : AccessType) (s : State) : Prop :=
  (s.priv = .user → pte.getLsbD 4 = true) ∧
    (s.priv = .supervisor → pte.getLsbD 4 = false ∨ s.sstatus.sum = true) ∧
    (t = .fetch → pte.getLsbD 3 = true) ∧
    (t = .load → pte.getLsbD 1 = true ∨ (s.sstatus.mxr = true ∧ pte.getLsbD 3 = true)) ∧
    (t = .store → pte.getLsbD 2 = true)

/-- A, and for a store D, is set already (R155). -/
def LeafMarked (pte : Word) (t : AccessType) : Prop :=
  pte.getLsbD 6 = true ∧ (t = .store → pte.getLsbD 7 = true)

/-- Nothing but the number of the next draw and the note on reserved PTE contents differs. -/
def NotesOnly (s t : State) : Prop :=
  t = { s with draws := t.draws, reservedPte := t.reservedPte }

/-- The operation raises an exception where only draws and notes have been made since `s`. -/
def RaisesIn {α : Type} (s : State) (e : Exc) (tval : Word) (a : Access α) : Prop :=
  ∃ s1, a = .raise e tval s1 ∧ NotesOnly s s1

/-- The operation answers a value where only draws and notes have been made since `s`. -/
def AnswersIn {α : Type} (s : State) (v : α) (a : Access α) : Prop :=
  ∃ s1, a = .ok v s1 ∧ NotesOnly s s1

/-! ## Accesses made byte by byte (20_memory.md R105) -/

/-- Bytes loaded one after the other from ascending addresses, each translated on its own. -/
inductive LoadsBytes : State → Word → List Word → State → Prop where
  | nil (s : State) (va : Word) : LoadsBytes s va [] s
  | cons {s s1 s2 : State} {va b : Word} {bs : List Word} (h : memRead .load va 1 s = .ok b s1)
      (hs : LoadsBytes s1 (truncX s1.cfg.sxlen (va + 1)) bs s2) : LoadsBytes s va (b :: bs) s2

/-- Bytes stored one after the other at ascending addresses, each translated on its own. -/
inductive StoresBytes : State → Word → List Byte → State → Prop where
  | nil (s : State) (va : Word) : StoresBytes s va [] s
  | cons {s s1 s2 : State} {va : Word} {b : Byte} {bs : List Byte}
      (h : memWrite va 1 (b.setWidth 64) s = .ok () s1)
      (hs : StoresBytes s1 (truncX s1.cfg.sxlen (va + 1)) bs s2) : StoresBytes s va (b :: bs) s2

/-- The accesses of bytes stored at ascending addresses, each translated on its own and none written: the A and D bits
are set (60_exceptions.md R302(b)). -/
inductive MarksBytes : State → Word → Nat → State → Prop where
  | nil (s : State) (va : Word) : MarksBytes s va 0 s
  | cons {s s1 s2 : State} {va : Word} {pa n : Nat} (h : access .store va 1 s = .ok pa s1)
      (hs : MarksBytes s1 (truncX s1.cfg.sxlen (va + 1)) n s2) : MarksBytes s va (n + 1) s2

/-- The bytes a fetch at the pc reads first: four, or two where the pc is in the middle of a word (60_exceptions.md
R306). -/
def firstPortion (s : State) : Nat :=
  if s.pc.toNat % 4 = 0 then 4 else 2

/-- Memory, and the bytes a fetch may still return, are those of `s`, or those the accesses of its fetch leave: that
of the first portion, or those of both (R306). -/
def FetchMemory (s t : State) : Prop :=
  (t.mem = s.mem ∧ t.oldBytes = s.oldBytes) ∨
    ∃ s0 pa s1, s0 = { s with turns := s0.turns, draws := s0.draws } ∧
      access .fetch s.pc (firstPortion s) s0 = .ok pa s1 ∧
        ((t.mem = s1.mem ∧ t.oldBytes = s1.oldBytes) ∨
          ∃ s2 pa' s3, s.pc.toNat % 4 ≠ 0 ∧ NotesOnly s1 s2 ∧
            access .fetch (truncX s.cfg.sxlen (s.pc + 2)) 2 s2 = .ok pa' s3 ∧
              t.mem = s3.mem ∧ t.oldBytes = s3.oldBytes)

/-- A byte a fetch may return from a physical address: memory's, or one it held before (20_memory.md R115). -/
def Fetchable (s : State) (pa : Nat) (b : Byte) : Prop :=
  b = s.mem.read pa ∨ (pa, b) ∈ s.oldBytes

/-- The `n` bytes of the word from its byte `k0` on may be fetched from a physical address, the lowest address first
(20_memory.md R103). -/
def FetchesBytes (s : State) (pa k0 n : Nat) (w : BitVec 32) : Prop :=
  ∀ k, k < n → Fetchable s (pa + k) (w.extractLsb' (8 * (k0 + k)) 8)

/-- The word a fetch in `s` answers is made of: four bytes at the physical address of the pc, or in the middle of a word
two there and two at the physical address of pc + 2, the latter its upper half; each portion is translated before its
bytes are read (60_exceptions.md R292, R306). -/
def FetchedWord (s : State) (w : BitVec 32) (t : State) : Prop :=
  (s.pc.toNat % 4 = 0 → ∃ pa s1, access .fetch s.pc 4 s = .ok pa s1 ∧ FetchesBytes s1 pa 0 4 w ∧ NotesOnly s1 t) ∧
    (s.pc.toNat % 4 ≠ 0 → ∃ pa s1 s2 pa' s3, access .fetch s.pc 2 s = .ok pa s1 ∧ FetchesBytes s1 pa 0 2 w ∧
      NotesOnly s1 s2 ∧ access .fetch (truncX s.cfg.sxlen (s.pc + 2)) 2 s2 = .ok pa' s3 ∧
        FetchesBytes s3 pa' 2 2 w ∧ NotesOnly s3 t)

/-- The fetch in `s` faults with `e` and trap value `tv` at the portion whose access raises them: the first, at the pc,
or in the middle of a word the second, at pc + 2, after the first has been read (60_exceptions.md R292, R306). -/
def FetchFaultsAt (s : State) (e : Exc) (tv : Word) : Prop :=
  (tv = s.pc ∧ ∃ t, access .fetch s.pc (firstPortion s) s = .raise e tv t) ∨
    (s.pc.toNat % 4 ≠ 0 ∧ tv = truncX s.cfg.sxlen (s.pc + 2) ∧
      ∃ pa s1 s2 t, access .fetch s.pc 2 s = .ok pa s1 ∧ NotesOnly s1 s2 ∧ access .fetch tv 2 s2 = .raise e tv t)

/-! ## What is left unchanged -/

/-- Every byte of memory reads as before. -/
def KeepsMemory (s t : State) : Prop :=
  ∀ a, t.mem.read a = s.mem.read a

/-- Every byte outside `[lo, lo + n)` reads as before. -/
def KeepsMemoryOutside (lo n : Nat) (s t : State) : Prop :=
  ∀ a, a < lo ∨ lo + n ≤ a → t.mem.read a = s.mem.read a

/-- Every integer register reads as before. -/
def KeepsRegisters (s t : State) : Prop :=
  ∀ r, getX r t = getX r s

/-- Every integer register but one reads as before. -/
def KeepsRegistersBut (rd : Reg) (s t : State) : Prop :=
  ∀ r, r ≠ rd → getX r t = getX r s

/-- Every supervisor CSR but one is as before (a counter names none of them). -/
def KeepsCsrsBut (c : Csr) (s t : State) : Prop :=
  (c ≠ .sstatus → t.sstatus = s.sstatus) ∧ (c ≠ .sie → t.sie = s.sie) ∧ (c ≠ .stvec → t.stvec = s.stvec) ∧
    (c ≠ .scounteren → t.scounteren = s.scounteren) ∧ (c ≠ .sscratch → t.sscratch = s.sscratch) ∧
    (c ≠ .sepc → t.sepc = s.sepc) ∧ (c ≠ .scause → t.scause = s.scause) ∧ (c ≠ .stval → t.stval = s.stval) ∧
    (c ≠ .sip → t.sip = s.sip) ∧ (c ≠ .satp → t.satp = s.satp)

/-- Every supervisor CSR that a list does not name is as before. -/
def KeepsCsrsOutside (cs : List Csr) (s t : State) : Prop :=
  (.sstatus ∉ cs → t.sstatus = s.sstatus) ∧ (.sie ∉ cs → t.sie = s.sie) ∧ (.stvec ∉ cs → t.stvec = s.stvec) ∧
    (.scounteren ∉ cs → t.scounteren = s.scounteren) ∧ (.sscratch ∉ cs → t.sscratch = s.sscratch) ∧
    (.sepc ∉ cs → t.sepc = s.sepc) ∧ (.scause ∉ cs → t.scause = s.scause) ∧ (.stval ∉ cs → t.stval = s.stval) ∧
    (.sip ∉ cs → t.sip = s.sip) ∧ (.satp ∉ cs → t.satp = s.satp)

/-- Every supervisor CSR is as before. -/
def KeepsCsrs (s t : State) : Prop :=
  t.sstatus = s.sstatus ∧ t.sie = s.sie ∧ t.stvec = s.stvec ∧ t.scounteren = s.scounteren ∧
    t.sscratch = s.sscratch ∧ t.sepc = s.sepc ∧ t.scause = s.scause ∧ t.stval = s.stval ∧ t.sip = s.sip ∧
    t.satp = s.satp

/-- The supervisor CSRs a trap does not write, and the fields of `sstatus` it does not write, are as before
(60_exceptions.md R300). -/
def KeepsUntrappedCsrs (s t : State) : Prop :=
  t.sie = s.sie ∧ t.stvec = s.stvec ∧ t.scounteren = s.scounteren ∧ t.sscratch = s.sscratch ∧ t.sip = s.sip ∧
    t.satp = s.satp ∧ t.sstatus.uie = s.sstatus.uie ∧ t.sstatus.upie = s.sstatus.upie ∧
    t.sstatus.sum = s.sstatus.sum ∧ t.sstatus.mxr = s.sstatus.mxr

/-- Parameters, turns, the timer interrupt scheduled, the bytes a fetch may still return and the notes on reserved PTE
contents and on the last SBI call are as before. -/
def KeepsSurroundings (s t : State) : Prop :=
  t.cfg = s.cfg ∧ t.turns = s.turns ∧ t.timer = s.timer ∧ t.oldBytes = s.oldBytes ∧ t.reservedPte = s.reservedPte ∧
    t.lastCall = s.lastCall

/-- STIP has not been set before the time scheduled (60_exceptions.md R331). -/
def StipOnTime (s t : State) : Prop :=
  s.sip.stip = false → t.sip.stip = true → ∀ T, t.timer = some T → T.toNat ≤ t.counters[1].toNat

/-- One more instruction has retired and no other counter has moved (60_exceptions.md R330). -/
def CountsOne (s t : State) : Prop :=
  ∀ n : Fin 32, t.counters[n] = if n = 2 then s.counters[n] + 1 else s.counters[n]

/-- An instruction retires and goes on behind itself: the register `rd` takes a value (`x0` discards it), every
other register, memory, the cache, the mode and the surroundings are as before. -/
def RetiresInto (rd : Reg) (v : Word) (s t : State) : Prop :=
  getX rd t = (if rd = 0 then 0 else truncX s.cfg.sxlen v) ∧ KeepsRegistersBut rd s t ∧ KeepsMemory s t ∧
    t.tc = s.tc ∧ t.priv = s.priv ∧ t.pc = truncX s.cfg.sxlen (s.pc + 4) ∧ KeepsSurroundings s t

/-- The trap value of an illegal instruction (60_exceptions.md R293). -/
def illegalValue (c : Config) (w : BitVec 32) : Word :=
  if c.stvalInsn then w.setWidth 64 else 0

/-- The state of the hart is that of the trap `TrapToS` would make of `s` (60_exceptions.md R300), field by
field: what is saved, where the pc goes, and what nothing writes. -/
def Trapped (cause : Cause) (tval epc : Word) (s t : State) : Prop :=
  t.priv = .supervisor ∧ t.sepc = legalSepc s.cfg epc ∧ t.scause = causeWord s.cfg.sxlen cause ∧
    t.stval = truncX s.cfg.sxlen tval ∧ t.sstatus.spp = decide (s.priv = .supervisor) ∧ t.sstatus.spie = s.sstatus.sie ∧
    t.sstatus.sie = false ∧ t.pc = trapPc s.cfg.sxlen s.stvec cause ∧ KeepsUntrappedCsrs s t ∧
    KeepsRegisters s t ∧ KeepsMemory s t ∧ t.counters = s.counters ∧ t.tc = s.tc ∧ KeepsSurroundings s t

end Sys2Proof.Machine
end

