-- ==== Sys2Proof/Certificates/Slice0/Obligations.lean ====
section
/-! DEFINITION. The statements about this machine that are to be proved. Each docstring names the rules of
spec/ it formalises; a statement that rests on a choice of the model's names the log entry. -/

open Sys2Proof Sys2Proof.Machine

/-! ## Encoding (30_encoding.md) -/

/-- Every well-formed instruction is read back from its own bytes, whatever follows (R180, R184 to R186). -/
def Obligations.EncodedInstructionsDecode : Prop :=
  ∀ (i : Instr) (rest : List Byte), i.wf = true → decode (bytesOfWord (encode i) ++ rest) = .ok (i, rest)

/-- A word that decodes is the encoding of what it decodes to, which is well-formed: no two words mean the same
instruction and no bit of a word is dropped (R181, R182, R184 to R186). -/
def Obligations.DecodedWordsEncodeBack : Prop :=
  ∀ (w : BitVec 32) (i : Instr), decodeWord w = .ok i → encode i = w ∧ i.wf = true

/-- Words of 95_test_vectors.md section 2.1 decode to the instructions listed there. -/
def Obligations.ListedWordsDecode : Prop :=
  decodeWord 0x00000073 = .ok .ecall ∧ decodeWord 0x00100073 = .ok .ebreak ∧ decodeWord 0x00200073 = .ok .uret ∧
    decodeWord 0x10200073 = .ok .sret ∧ decodeWord 0x12B50073 = .ok (.sfenceVma 10 11) ∧
    decodeWord 0x14051573 = .ok (.csrrw 10 0x140 10) ∧ decodeWord 0x1002A073 = .ok (.csrrs 0 0x100 5) ∧
    decodeWord 0x1442B073 = .ok (.csrrc 0 0x144 5) ∧ decodeWord 0x1063D073 = .ok (.csrrwi 0 0x106 7) ∧
    decodeWord 0x10016073 = .ok (.csrrsi 0 0x100 2) ∧ decodeWord 0x100172F3 = .ok (.csrrci 5 0x100 2) ∧
    decodeWord 0x0330000F = .ok (.fence ⟨false, false, true, true⟩ ⟨false, false, true, true⟩)

/-- SFENCE.VMA with `rd` not 0, and ECALL, EBREAK, URET, SRET with `rs1` or `rd` not 0, trap as illegal
instructions; the trap value counts the word as 32 bits long (R188, 60_exceptions.md R293; the length of an undefined
word is the choice of log 51). -/
def Obligations.FixedFieldViolationsAreIllegal : Prop :=
  ∀ (w : BitVec 32) (s : State), fieldOpcode w = 0b1110011#7 → fieldFunct3 w = 0#3 →
    (fieldFunct7 w = 0b0001001#7 ∧ fieldRd w ≠ 0) ∨
      (fieldCsr w ∈ [0x000#12, 0x001#12, 0x002#12, 0x102#12] ∧ (fieldRs1 w ≠ 0 ∨ fieldRd w ≠ 0)) →
    ∃ t, executeWord w s = .next t ∧ Trapped (.exception .illegalInstruction) (illegalValue s.cfg w) s.pc s t

/-- The two words named as a higher level's are refused. Every other word of the SYSTEM opcode with `funct3` 000
that is no row of R184, and every one with `funct3` 100, traps as an illegal instruction; so does every word outside
that opcode that is no FENCE, since no rule of this spec matches it (R187, 60_exceptions.md R305 (3); which words a
higher level defines is the choice of log 21, that the trap value counts such a word as 32 bits long that of
log 51). -/
def Obligations.UndefinedWordsAreIllegal : Prop :=
  ∀ (w : BitVec 32) (s : State),
    (w = 0x10500073 ∨ w = 0x30200073 → executeWord w s = .refused (.higherLevelEncoding w)) ∧
    (fieldOpcode w = 0b1110011#7 →
      w ∉ [0x00000073#32, 0x00100073#32, 0x00200073#32, 0x10200073#32, 0x10500073#32, 0x30200073#32] →
      w &&& 0xFE007FFF ≠ 0x12000073 → fieldFunct3 w = 0b000#3 ∨ fieldFunct3 w = 0b100#3 →
      ∃ t, executeWord w s = .next t ∧
        Trapped (.exception .illegalInstruction) (illegalValue s.cfg w) s.pc s t) ∧
    (fieldOpcode w ≠ 0b1110011#7 → w &&& 0xF00FFFFF ≠ 0x0000000F →
      ∃ t, executeWord w s = .next t ∧
        Trapped (.exception .illegalInstruction) (illegalValue s.cfg w) s.pc s t)

/-! ## One step (60_exceptions.md) -/

/-- Where the hart moves, no interrupt is takeable, translation is off, the fetch passes its checks and reads
fresh bytes, a step runs the instruction those bytes decode to, and adds nothing. The bytes are the four at the pc,
or, where 16-bit alignment has the pc in the middle of a word, the two there and behind them the two at pc + 2, each
pair with its own check (R292, R305, R306; translation off is 21_address_translation.md R131). -/
def Obligations.StepRunsDecodedInstruction : Prop :=
  ∀ (s : State) (i : Instr) (lo hi : Nat), s.turns = [] → firstTakeable s = none → s.satp.mode = .bare →
    lo = s.pc.toNat → hi = (truncX s.cfg.sxlen (s.pc + 2)).toNat →
    (lo % 4 = 0 → physCheck s.cfg lo 4 .fetch s.priv = true →
      (∀ c ∈ s.oldBytes, c.1 < lo ∨ lo + 4 ≤ c.1) →
      decode [s.mem.read lo, s.mem.read (lo + 1), s.mem.read (lo + 2), s.mem.read (lo + 3)] = .ok (i, []) →
      step s = exec i s) ∧
    (s.cfg.ialign16 = true → lo % 4 = 2 → physCheck s.cfg lo 2 .fetch s.priv = true →
      physCheck s.cfg hi 2 .fetch s.priv = true →
      (∀ c ∈ s.oldBytes, (c.1 < lo ∨ lo + 2 ≤ c.1) ∧ (c.1 < hi ∨ hi + 2 ≤ c.1)) →
      decode [s.mem.read lo, s.mem.read (lo + 1), s.mem.read hi, s.mem.read (hi + 1)] = .ok (i, []) →
      step s = exec i s)

/-- Under any translation scheme a fetch that answers a word has read it, byte by byte, from the physical addresses that
the access of each of its portions answers: of four bytes at the pc, or in the middle of a word of two there and two
at pc + 2, the upper half; a byte is memory's, or one that memory held before (20_memory.md R115, the spec's decision
D31, log 18). Where the hart moves, no interrupt is takeable and that word decodes, a step runs that instruction in the state the fetch left (R292,
R305, R306). The hart moves where no turn is listed, or where the list says that it executes: the list of turns is
the model's own (log 7). -/
def Obligations.StepRunsFetchedInstruction : Prop :=
  ∀ (s s1 : State) (w : BitVec 32), alignedPc s.cfg s.pc = true →
    (fetch s = .ok w s1 → FetchedWord s w s1) ∧
    ∀ (i : Instr) (rest : List Turn), decodeWord w = .ok i →
      (s.turns = [] → firstTakeable s = none → fetch s = .ok w s1 → step s = exec i s1) ∧
      (s.turns = .hartExecutes :: rest → fetch { s with turns := rest } = .ok w s1 → step s = exec i s1)

/-- A fetch that faults traps with its fault, under any translation scheme: the page fault or the access fault of
fetches, the trap value the address of the portion whose access raises it, the pc saved; before the trap only the
accesses of the fetch have changed memory. With translation off a fetch the platform does not grant traps with cause 1 and the pc
as trap value. The hart moves where no turn is listed, or where the list, which is the model's own (log 7), says that
it executes (R282, R291, R292, R300, R305, R306; translation off is 21_address_translation.md R131). -/
def Obligations.FaultingFetchesTrap : Prop :=
  (∀ (s s0 s1 : State) (e : Exc) (tv : Word), alignedPc s.cfg s.pc = true →
    (s.turns = [] ∧ firstTakeable s = none ∧ s0 = s) ∨
      (∃ rest, s.turns = .hartExecutes :: rest ∧ s0 = { s with turns := rest }) →
    fetch s0 = .raise e tv s1 →
    (e = .instrPageFault ∨ e = .instrAccessFault) ∧
      FetchFaultsAt s0 e tv ∧
      s1 = { s0 with mem := s1.mem, oldBytes := s1.oldBytes, reservedPte := s1.reservedPte, draws := s1.draws } ∧
      FetchMemory s0 s1 ∧ ∃ t, step s = .next t ∧ Trapped (.exception e) tv s.pc s1 t) ∧
  ∀ (s : State), s.turns = [] → firstTakeable s = none → s.satp.mode = .bare → s.pc.toNat % 4 = 0 →
    physCheck s.cfg s.pc.toNat 4 .fetch s.priv = false →
    ∃ t, step s = .next t ∧ Trapped (.exception .instrAccessFault) s.pc s.pc s t

/-- At a boundary with a takeable interrupt the hart traps for the highest-priority one, the pc saved and the trap
value 0 (R294; the spec's decision D29), or executes on (R305 (1); that it may wait is the spec's decision D36, and
which it does is the free value of log 8); where the list of turns, which is the model's own (log 7), asks that an
interrupt be taken, it traps. -/
def Obligations.TakeableInterruptTrapsOrWaits : Prop :=
  ∀ (s : State) (i : Interrupt), firstTakeable s = some i →
    (s.turns = [] →
      (∃ t, step s = .next t ∧ Trapped (.interrupt i) 0 s.pc s t) ∨ step s = executeNext (drawn s)) ∧
    ∀ rest, s.turns = .hartInterrupted :: rest →
      ∃ t, step s = .next t ∧ Trapped (.interrupt i) 0 s.pc { s with turns := rest } t

/-- `Takeable` of each of the six interrupts, in the bits of `sip`, `sie` and `sstatus` (R310). -/
def Obligations.TakeableConditions : Prop :=
  ∀ s : State,
    (takeable .supervisorSoftware s = true ↔
      s.sip.ssip = true ∧ s.sie.ssie = true ∧ (s.priv = .user ∨ s.sstatus.sie = true)) ∧
    (takeable .supervisorTimer s = true ↔
      s.sip.stip = true ∧ s.sie.stie = true ∧ (s.priv = .user ∨ s.sstatus.sie = true)) ∧
    (takeable .supervisorExternal s = true ↔
      s.sip.seip = true ∧ s.sie.seie = true ∧ (s.priv = .user ∨ s.sstatus.sie = true)) ∧
    (takeable .userSoftware s = true ↔
      s.cfg.hasN = true ∧ s.sip.usip = true ∧ s.sie.usie = true ∧ s.priv = .user ∧ s.sstatus.uie = true) ∧
    (takeable .userTimer s = true ↔
      s.cfg.hasN = true ∧ s.sip.utip = true ∧ s.sie.utie = true ∧ s.priv = .user ∧ s.sstatus.uie = true) ∧
    (takeable .userExternal s = true ↔
      s.cfg.hasN = true ∧ (s.sip.ueipSw = true ∨ s.sip.ueipSig = true) ∧ s.sie.ueie = true ∧ s.priv = .user ∧
        s.sstatus.uie = true)

/-- The interrupt that comes first is takeable and none before it in `IntPriority` is; where none comes first,
none is takeable (R312). -/
def Obligations.FirstInterruptHasPriority : Prop :=
  ∀ s : State,
    (∀ i, firstTakeable s = some i → takeable i s = true ∧
      ∃ before after, s.cfg.intPriority = before ++ i :: after ∧ ∀ j ∈ before, takeable j s = false) ∧
    (s.cfg.intPriorityWf = true → firstTakeable s = none → ∀ i, takeable i s = false)

/-- In S-mode with `sstatus.SIE` clear the hart never takes an interrupt: its turn executes (10_state.md R28), also
where the list of turns asks that an interrupt be taken (the list is the model's own, log 7). -/
def Obligations.ClearSieMasksInterrupts : Prop :=
  ∀ (s : State) (rest : List Turn), s.priv = .supervisor → s.sstatus.sie = false →
    (s.turns = [] → step s = executeNext s) ∧
    (s.turns = .hartInterrupted :: rest → step s = executeNext { s with turns := rest })

/-! ## Traps (60_exceptions.md R300 to R304, 41_trap_return.md) -/

/-- `TrapToS` writes the saved pc, cause, trap value, SPP, SPIE, SIE, mode and pc, and nothing else (R300). -/
def Obligations.TrapEntryState : Prop :=
  ∀ (cause : Cause) (tval epc : Word) (s : State), Trapped cause tval epc s (trapToS cause tval epc s)

/-- Where a trap goes: Direct, BASE for all; Vectored, BASE for exceptions and BASE plus four times the code for
interrupts, modulo `2^SXLEN` (10_state.md R42). -/
def Obligations.TrapVectorAddresses : Prop :=
  ∀ (xl : Xlen) (base : Word), base &&& 3 = 0 →
    (∀ cause, trapPc xl base cause = truncX xl base) ∧
    (∀ e, trapPc xl (base ||| 1) (.exception e) = truncX xl base) ∧
    trapPc xl (base ||| 1) (.interrupt .userSoftware) = truncX xl base ∧
    trapPc xl (base ||| 1) (.interrupt .supervisorSoftware) = truncX xl (base + 0x04) ∧
    trapPc xl (base ||| 1) (.interrupt .userTimer) = truncX xl (base + 0x10) ∧
    trapPc xl (base ||| 1) (.interrupt .supervisorTimer) = truncX xl (base + 0x14) ∧
    trapPc xl (base ||| 1) (.interrupt .userExternal) = truncX xl (base + 0x20) ∧
    trapPc xl (base ||| 1) (.interrupt .supervisorExternal) = truncX xl (base + 0x24)

/-- The value `scause` takes for each of the six interrupts and the eleven exceptions: the code, and for an
interrupt the top bit (R280 to R282). So a handler can tell every cause from every other, and an interrupt from an
exception. -/
def Obligations.CauseWordsTellCauses : Prop :=
  (∀ xl : Xlen,
    let top : Word := if xl = .rv32 then 0x80000000 else 0x8000000000000000
    causeWord xl (.interrupt .userSoftware) = top + 0 ∧ causeWord xl (.interrupt .supervisorSoftware) = top + 1 ∧
    causeWord xl (.interrupt .userTimer) = top + 4 ∧ causeWord xl (.interrupt .supervisorTimer) = top + 5 ∧
    causeWord xl (.interrupt .userExternal) = top + 8 ∧ causeWord xl (.interrupt .supervisorExternal) = top + 9 ∧
    causeWord xl (.exception .instrMisaligned) = 0 ∧ causeWord xl (.exception .instrAccessFault) = 1 ∧
    causeWord xl (.exception .illegalInstruction) = 2 ∧ causeWord xl (.exception .breakpoint) = 3 ∧
    causeWord xl (.exception .loadAccessFault) = 5 ∧ causeWord xl (.exception .amoMisaligned) = 6 ∧
    causeWord xl (.exception .storeAccessFault) = 7 ∧ causeWord xl (.exception .environmentCall) = 8 ∧
    causeWord xl (.exception .instrPageFault) = 12 ∧ causeWord xl (.exception .loadPageFault) = 13 ∧
    causeWord xl (.exception .storePageFault) = 15) ∧
  ∀ (xl : Xlen) (a b : Cause),
    (causeWord xl a = causeWord xl b → a = b) ∧
    ((causeWord xl a).getLsbD (xl.bits - 1) = true ↔ ∃ i, a = .interrupt i)

/-- ECALL in U-mode traps with cause 8 and trap value 0, its own address saved (43_environment_and_fence.md
R260). -/
def Obligations.EcallFromUserTraps : Prop :=
  ∀ s : State, s.priv = .user →
    ∃ t, exec .ecall s = .next t ∧ Trapped (.exception .environmentCall) 0 s.pc s t ∧ t.scause = 8 ∧ t.stval = 0 ∧
      t.sstatus.spp = false

/-- ECALL in S-mode is an SBI call, in the model's form of it (log 17, from the spec's decision D18): the hart goes on
at `pc + 4` in S-mode, and only what the SEE may change has changed: the registers, memory and CSRs its contract
names, and, each where the contract has that liberty, the counters, the timer interrupt scheduled and the pending bits
it owns, SSIP never cleared and STIP not set before the time scheduled; the call is counted as retired and the
registers it was made with are noted (43_environment_and_fence.md R261, 60_exceptions.md R305 (5), R331, R335). -/
def Obligations.EcallFromSupervisorCallsSbi : Prop :=
  ∀ s : State, s.priv = .supervisor →
    ∃ t, exec .ecall s = .next t ∧ t.priv = .supervisor ∧ t.pc = truncX s.cfg.sxlen (s.pc + 4) ∧
      (∀ r, r ∉ s.cfg.sbi.results → getX r t = getX r s) ∧
      (∀ a, (∀ m ∈ s.cfg.sbi.memory, a < m.1 ∨ m.1 + m.2 ≤ a) → t.mem.read a = s.mem.read a) ∧
      KeepsCsrsOutside (.sip :: s.cfg.sbi.csrs) s t ∧
      (.sip ∉ s.cfg.sbi.csrs →
        (s.sip.ssip = true → t.sip.ssip = true) ∧ t.sip.usip = s.sip.usip ∧ t.sip.ueipSw = s.sip.ueipSw ∧
          t.sip.ueipSig = s.sip.ueipSig ∧
          (s.cfg.hasN = false ∨ .utip ∉ s.cfg.sbi.liberties → t.sip.utip = s.sip.utip) ∧
          (.stip ∉ s.cfg.sbi.liberties → t.sip.stip = s.sip.stip) ∧
          (.seip ∉ s.cfg.sbi.liberties → t.sip.seip = s.sip.seip) ∧
          (.ssip ∉ s.cfg.sbi.liberties → t.sip.ssip = s.sip.ssip)) ∧
      StipOnTime s t ∧ (.timer ∉ s.cfg.sbi.liberties → t.timer = s.timer) ∧
      (.counters ∉ s.cfg.sbi.liberties → CountsOne s t) ∧
      t.tc = s.tc ∧ t.cfg = s.cfg ∧ t.turns = s.turns ∧ t.reservedPte = s.reservedPte ∧ t.lastCall = some s.x

/-- EBREAK traps with cause 3 in either mode, its own address saved; the trap value is 0 or that address, as the
implementation has it (43_environment_and_fence.md R262, R263). -/
def Obligations.EbreakTraps : Prop :=
  ∀ s : State, ∃ t tval, exec .ebreak s = .next t ∧ Trapped (.exception .breakpoint) tval s.pc s t ∧ t.scause = 3 ∧
    (s.cfg.ebreakTval = .zero → t.stval = 0) ∧ (s.cfg.ebreakTval = .pc → t.stval = truncX s.cfg.sxlen s.pc)

/-- SRET in S-mode: the mode SPP names, SPP to 0, SIE from SPIE, SPIE to 1, the pc from `sepc` as it reads; no
other state changes but the count of retired instructions (41_trap_return.md R220, R223). -/
def Obligations.SretReturns : Prop :=
  ∀ s : State, s.priv = .supervisor →
    ∃ t, exec .sret s = .next t ∧ t.priv = (if s.sstatus.spp then .supervisor else .user) ∧
      t.sstatus = { s.sstatus with spp := false, sie := s.sstatus.spie, spie := true } ∧
      t.pc = legalSepc s.cfg s.sepc ∧ KeepsCsrsBut .sstatus s t ∧ KeepsRegisters s t ∧ KeepsMemory s t ∧
      t.tc = s.tc ∧ CountsOne s t ∧ KeepsSurroundings s t

/-- SRET undoes a trap: executed in the state a trap has made, it brings back the mode, the interrupt enable and
the saved pc (from R300 and R220). -/
def Obligations.SretUndoesTrapEntry : Prop :=
  ∀ (cause : Cause) (tval epc : Word) (s : State), legalSepc s.cfg epc = epc →
    ∃ t, exec .sret (trapToS cause tval epc s) = .next t ∧ t.priv = s.priv ∧ t.pc = epc ∧
      t.sstatus.sie = s.sstatus.sie ∧ t.sstatus.spp = false ∧ KeepsUntrappedCsrs s t ∧ KeepsRegisters s t ∧
      KeepsMemory s t ∧ t.tc = s.tc

/-- URET is an illegal instruction without the N extension, and refused with it (41_trap_return.md R225;
90_conflicts.md C15). -/
def Obligations.UretTrapsOrIsRefused : Prop :=
  ∀ s : State,
    (s.cfg.hasN = false →
      ∃ t, exec .uret s = .next t ∧
        Trapped (.exception .illegalInstruction) (illegalValue s.cfg 0x00200073) s.pc s t ∧ t.scause = 2) ∧
    (s.cfg.hasN = true → exec .uret s = .refused .uretWithN)

/-- SRET and SFENCE.VMA in U-mode trap as illegal instructions (41_trap_return.md R222, 40_sfence_vma.md
R207). -/
def Obligations.PrivilegedInstructionsTrapInUser : Prop :=
  ∀ (s : State) (rs1 rs2 : Reg), s.priv = .user →
    (∃ t, exec .sret s = .next t ∧
      Trapped (.exception .illegalInstruction) (illegalValue s.cfg 0x10200073) s.pc s t) ∧
    (∃ t, exec (.sfenceVma rs1 rs2) s = .next t ∧
      Trapped (.exception .illegalInstruction) (illegalValue s.cfg (encode (.sfenceVma rs1 rs2))) s.pc s t)

/-! ## Fences (40_sfence_vma.md, 43_environment_and_fence.md R265) -/

/-- SFENCE.VMA in S-mode removes from the cache every entry its four forms cover and adds none; nothing else
changes (R200, R202 to R206; that under Bare one address reaches every leaf is the spec's decision D16, and how an
entry cached under another scheme compares is the choice of log 50). -/
def Obligations.SfenceRemovesCoveredEntries : Prop :=
  ∀ (s : State) (rs1 rs2 : Reg), s.priv = .supervisor → s.cfg.asidLen ≤ 16 →
    ∃ t, exec (.sfenceVma rs1 rs2) s = .next t ∧ (∀ e ∈ t.tc, e ∈ s.tc) ∧
      (rs1 = 0 → rs2 = 0 → t.tc = []) ∧
      (rs1 = 0 → rs2 ≠ 0 →
        ∀ e ∈ t.tc, e.global = true ∨ e.asid.toNat ≠ (getX rs2 s).toNat % 2 ^ s.cfg.asidLen) ∧
      (rs1 ≠ 0 → rs2 = 0 →
        ∀ e ∈ t.tc, pteLeaf e.pte = true →
          s.satp.mode ≠ .bare ∧ e.vpnPrefix ≠ vpnPrefix s.satp.mode (getX rs1 s) e.level) ∧
      (rs1 ≠ 0 → rs2 ≠ 0 →
        ∀ e ∈ t.tc, pteLeaf e.pte = true →
          e.global = true ∨ e.asid.toNat ≠ (getX rs2 s).toNat % 2 ^ s.cfg.asidLen ∨
            (s.satp.mode ≠ .bare ∧ e.vpnPrefix ≠ vpnPrefix s.satp.mode (getX rs1 s) e.level)) ∧
      KeepsRegisters s t ∧ KeepsCsrs s t ∧ KeepsMemory s t ∧ t.priv = s.priv ∧
      t.pc = truncX s.cfg.sxlen (s.pc + 4) ∧ CountsOne s t ∧ KeepsSurroundings s t

/-- SFENCE.VMA with both registers `x0` empties the cache, so every translation after it reads memory: no stale
PTE is left to use (R202). -/
def Obligations.FullFenceForcesMemoryWalks : Prop :=
  ∀ s : State, s.priv = .supervisor →
    ∃ t, exec (.sfenceVma 0 0) s = .next t ∧ t.tc = [] ∧
      ∀ (m : SatpMode) (ty : AccessType) (va : Word), attempt true m ty va t = attempt false m ty va t

/-- FENCE, in either mode and with any sets, only moves the pc of this hart and counts as retired
(43_environment_and_fence.md R265; what other harts see of it is out of the model, log 40). -/
def Obligations.FenceOnlyRetires : Prop :=
  ∀ (s : State) (pred succ : FenceSet),
    ∃ t, exec (.fence pred succ) s = .next t ∧ t.pc = truncX s.cfg.sxlen (s.pc + 4) ∧ t.priv = s.priv ∧
      KeepsRegisters s t ∧ KeepsCsrs s t ∧ KeepsMemory s t ∧ t.tc = s.tc ∧ CountsOne s t ∧ KeepsSurroundings s t

/-! ## CSR instructions (42_csr_access.md) -/

/-- CSRRW and CSRRWI on a supervisor CSR in S-mode: `rd` takes the value read, the CSR is written by its own
rule with the register or the zero-extended immediate, and nothing else changes (R245, R250, R253). -/
def Obligations.CsrSwapForms : Prop :=
  ∀ (s : State) (num : CsrNum) (c : Csr) (rd rs1 : Reg) (uimm : Nat), s.priv = .supervisor →
    csrOf s.cfg.sxlen num = some c → counterBit c = none → uimm < 32 →
    (∃ t, exec (.csrrw rd num rs1) s = .next t ∧ RetiresInto rd (csrRead c s).1 s t ∧ CountsOne s t ∧
      KeepsCsrs (csrWrite c (getX rs1 s) s) t ∧ KeepsCsrsBut c s t) ∧
    (∃ t, exec (.csrrwi rd num uimm) s = .next t ∧ RetiresInto rd (csrRead c s).1 s t ∧ CountsOne s t ∧
      KeepsCsrs (csrWrite c (BitVec.ofNat 64 uimm) s) t ∧ KeepsCsrsBut c s t)

/-- CSRRS and CSRRSI on a supervisor CSR in S-mode: `rd` takes the value read; with register `x0` or immediate 0
the CSR is not written, else it is written with the base value or the operand; the base value is the value read, but
for `sip` with bit 8 from the software UEIP bit alone (R245, R248, R251, R254). -/
def Obligations.CsrSetForms : Prop :=
  ∀ (s : State) (num : CsrNum) (c : Csr) (rd rs1 : Reg) (uimm : Nat) (base : Word), s.priv = .supervisor →
    csrOf s.cfg.sxlen num = some c → counterBit c = none → uimm < 32 →
    base = (if c = .sip then
        ((csrRead c s).1 &&& ~~~0x100) ||| (if s.cfg.hasN && s.sip.ueipSw then 0x100 else 0)
      else (csrRead c s).1) →
    (∃ t, exec (.csrrs rd num rs1) s = .next t ∧ RetiresInto rd (csrRead c s).1 s t ∧ CountsOne s t ∧
      KeepsCsrsBut c s t ∧
      (if rs1 = 0 then KeepsCsrs s t
       else KeepsCsrs (csrWrite c (base ||| getX rs1 s) s) t)) ∧
    (∃ t, exec (.csrrsi rd num uimm) s = .next t ∧ RetiresInto rd (csrRead c s).1 s t ∧ CountsOne s t ∧
      KeepsCsrsBut c s t ∧
      (if uimm = 0 then KeepsCsrs s t
       else KeepsCsrs (csrWrite c (base ||| BitVec.ofNat 64 uimm) s) t))

/-- CSRRC and CSRRCI on a supervisor CSR in S-mode: `rd` takes the value read; with register `x0` or immediate 0
the CSR is not written, else it is written with the base value and not the operand; the base value is the value read,
but for `sip` with bit 8 from the software UEIP bit alone (R245, R248, R252, R255). -/
def Obligations.CsrClearForms : Prop :=
  ∀ (s : State) (num : CsrNum) (c : Csr) (rd rs1 : Reg) (uimm : Nat) (base : Word), s.priv = .supervisor →
    csrOf s.cfg.sxlen num = some c → counterBit c = none → uimm < 32 →
    base = (if c = .sip then
        ((csrRead c s).1 &&& ~~~0x100) ||| (if s.cfg.hasN && s.sip.ueipSw then 0x100 else 0)
      else (csrRead c s).1) →
    (∃ t, exec (.csrrc rd num rs1) s = .next t ∧ RetiresInto rd (csrRead c s).1 s t ∧ CountsOne s t ∧
      KeepsCsrsBut c s t ∧
      (if rs1 = 0 then KeepsCsrs s t
       else KeepsCsrs (csrWrite c (base &&& ~~~(getX rs1 s)) s) t)) ∧
    (∃ t, exec (.csrrci rd num uimm) s = .next t ∧ RetiresInto rd (csrRead c s).1 s t ∧ CountsOne s t ∧
      KeepsCsrsBut c s t ∧
      (if uimm = 0 then KeepsCsrs s t
       else KeepsCsrs (csrWrite c (base &&& ~~~(BitVec.ofNat 64 uimm)) s) t))

/-- A read of a counter, in S-mode or with its `scounteren` bit set: `rd` takes the low or high half of a value
not below the one last observed, `instret`'s being exact; no CSR changes. The model's form of a counter (log 16, from
the spec's decision D39) is the value last observed, which moves only when it is read (R245, R246, R256(g),
60_exceptions.md R330). -/
def Obligations.CounterReads : Prop :=
  ∀ (s : State) (num : CsrNum) (n : BitVec 5) (high : Bool) (rd : Reg) (i : Instr),
    csrOf s.cfg.sxlen num = some (if high then .counterHigh n else .counter n) →
    s.priv = .supervisor ∨ s.scounteren.getLsbD n.toNat = true →
    i ∈ [Instr.csrrs rd num 0, .csrrc rd num 0, .csrrsi rd num 0, .csrrci rd num 0] →
    ∃ (t : State) (v : Word), exec i s = .next t ∧ RetiresInto rd (if high then v >>> 32 else v) s t ∧ KeepsCsrs s t ∧
      (s.counters[n.toNat]'n.isLt).toNat ≤ v.toNat ∧
      (n = 2 → v = s.counters[n.toNat]'n.isLt ∧ t.counters[n.toNat]'n.isLt = v + 1) ∧
      (n ≠ 2 → t.counters[n.toNat]'n.isLt = v ∧ t.counters[2] = s.counters[2] + 1) ∧
      (∀ k : Fin 32, k.val ≠ n.toNat → k ≠ 2 → t.counters[k] = s.counters[k])

/-- In U-mode a read of a counter, in each of the four forms that only read, is an illegal instruction where its
`scounteren` bit is clear, and retires where it is set; on SXLEN = 32 the same bit gates the high half (10_state.md
R58). -/
def Obligations.CounterAvailability : Prop :=
  ∀ (s : State) (num : CsrNum) (n : BitVec 5) (rd : Reg) (i : Instr), s.priv = .user →
    csrOf s.cfg.sxlen num = some (.counter n) ∨ csrOf s.cfg.sxlen num = some (.counterHigh n) →
    i ∈ [Instr.csrrs rd num 0, .csrrc rd num 0, .csrrsi rd num 0, .csrrci rd num 0] →
    (s.scounteren.getLsbD n.toNat = false →
      ∃ t, exec i s = .next t ∧
        Trapped (.exception .illegalInstruction) (illegalValue s.cfg (encode i)) s.pc s t) ∧
    (s.scounteren.getLsbD n.toNat = true →
      ∃ t, exec i s = .next t ∧ t.priv = .user ∧ t.pc = truncX s.cfg.sxlen (s.pc + 4))

/-- Every CSR instruction in U-mode on a supervisor CSR is an illegal instruction; nothing is read or written
(R256(a), R242). -/
def Obligations.SupervisorCsrsTrapInUser : Prop :=
  ∀ (s : State) (num : CsrNum) (c : Csr) (rd rs1 : Reg) (uimm : Nat) (i : Instr), s.priv = .user →
    csrOf s.cfg.sxlen num = some c → counterBit c = none →
    i ∈ [Instr.csrrw rd num rs1, .csrrs rd num rs1, .csrrc rd num rs1, .csrrwi rd num uimm, .csrrsi rd num uimm,
      .csrrci rd num uimm] →
    ∃ t, exec i s = .next t ∧
      Trapped (.exception .illegalInstruction) (illegalValue s.cfg (encode i)) s.pc s t

/-- In either mode an instruction that writes a counter is an illegal instruction: the swap forms always, the
others whenever the register number or the immediate is not 0, whatever the register holds (R242, R245). -/
def Obligations.CounterWritesTrap : Prop :=
  ∀ (s : State) (num : CsrNum) (c : Csr) (rd rs1 : Reg) (uimm : Nat) (i : Instr),
    csrOf s.cfg.sxlen num = some c → counterBit c ≠ none →
    (i = .csrrw rd num rs1 ∨ i = .csrrwi rd num uimm ∨
      (rs1 ≠ 0 ∧ (i = .csrrs rd num rs1 ∨ i = .csrrc rd num rs1)) ∨
      (uimm ≠ 0 ∧ (i = .csrrsi rd num uimm ∨ i = .csrrci rd num uimm))) →
    ∃ t, exec i s = .next t ∧
      Trapped (.exception .illegalInstruction) (illegalValue s.cfg (encode i)) s.pc s t

/-- A CSR number names the CSR 10_state.md R23 gives it: each supervisor CSR, each counter, and with SXLEN = 32 each
counter's high half. Any other number is an illegal instruction in either mode, with SXLEN = 64 those of the high
halves among them (R247, R256(f), 10_state.md R23). -/
def Obligations.CsrNumbersNameTheirCsrs : Prop :=
  (∀ (xl : Xlen) (n : BitVec 5),
    csrOf xl 0x100 = some .sstatus ∧ csrOf xl 0x104 = some .sie ∧ csrOf xl 0x105 = some .stvec ∧
      csrOf xl 0x106 = some .scounteren ∧ csrOf xl 0x140 = some .sscratch ∧ csrOf xl 0x141 = some .sepc ∧
      csrOf xl 0x142 = some .scause ∧ csrOf xl 0x143 = some .stval ∧ csrOf xl 0x144 = some .sip ∧
      csrOf xl 0x180 = some .satp ∧ csrOf xl (0xC00#12 + n.setWidth 12) = some (.counter n) ∧
      csrOf xl (0xC80#12 + n.setWidth 12) = (if xl = .rv32 then some (.counterHigh n) else none)) ∧
  ∀ (s : State) (num : CsrNum) (rd rs1 : Reg) (uimm : Nat) (i : Instr),
    num ∉ [0x100#12, 0x104#12, 0x105#12, 0x106#12, 0x140#12, 0x141#12, 0x142#12, 0x143#12, 0x144#12, 0x180#12] →
    ¬(0xC00 ≤ num.toNat ∧ num.toNat ≤ 0xC1F) →
    ¬(s.cfg.sxlen = .rv32 ∧ 0xC80 ≤ num.toNat ∧ num.toNat ≤ 0xC9F) →
    i ∈ [Instr.csrrw rd num rs1, .csrrs rd num rs1, .csrrc rd num rs1, .csrrwi rd num uimm, .csrrsi rd num uimm,
      .csrrci rd num uimm] →
    ∃ t, exec i s = .next t ∧
      Trapped (.exception .illegalInstruction) (illegalValue s.cfg (encode i)) s.pc s t

/-! ## What a CSR write leaves (10_state.md) -/

/-- `sstatus`: the writable bits take the word's, the others keep theirs; every other bit reads 0 but UXL, which
reads 2 with SXLEN = 64; the bits stand where R25 draws them, UPIE and UIE with N only (R25, R32, R34, R38, R39). -/
def Obligations.SstatusWriteRule : Prop :=
  ∀ (s : State) (v : Word),
    let mask : Word := if s.cfg.hasN then 0xC0133 else 0xC0122
    let uxl : Word := if s.cfg.sxlen = .rv64 then 0x200000000 else 0
    (csrRead .sstatus (csrWrite .sstatus v s)).1 = ((csrRead .sstatus s).1 &&& ~~~mask) ||| (v &&& mask) ∧
      (csrRead .sstatus s).1 &&& ~~~mask = uxl ∧
      (csrWrite .sstatus v s).sstatus.mxr = v.getLsbD 19 ∧ (csrWrite .sstatus v s).sstatus.sum = v.getLsbD 18 ∧
      (csrWrite .sstatus v s).sstatus.spp = v.getLsbD 8 ∧ (csrWrite .sstatus v s).sstatus.spie = v.getLsbD 5 ∧
      (csrWrite .sstatus v s).sstatus.sie = v.getLsbD 1 ∧
      (csrWrite .sstatus v s).sstatus.upie = (s.cfg.hasN && v.getLsbD 4) ∧
      (csrWrite .sstatus v s).sstatus.uie = (s.cfg.hasN && v.getLsbD 0)

/-- `sie` and `sip`: of a written word only the enable bits stay, and only SSIP, with N also USIP and the software
UEIP bit, of the pending bits; the SEE's bits and the controller's signal stay as they are. Each reads at its
place, the user-level ones with N only, UEIP being the software bit or the controller's signal (R44, R45, R48,
R53). -/
def Obligations.InterruptRegisterWriteRules : Prop :=
  ∀ (s : State) (v : Word),
    (csrRead .sie (csrWrite .sie v s)).1 = v &&& (if s.cfg.hasN then 0x333 else 0x222) ∧
      (csrWrite .sie v s).sie.seie = v.getLsbD 9 ∧ (csrWrite .sie v s).sie.stie = v.getLsbD 5 ∧
      (csrWrite .sie v s).sie.ssie = v.getLsbD 1 ∧
      (csrWrite .sie v s).sie.ueie = (s.cfg.hasN && v.getLsbD 8) ∧
      (csrWrite .sie v s).sie.utie = (s.cfg.hasN && v.getLsbD 4) ∧
      (csrWrite .sie v s).sie.usie = (s.cfg.hasN && v.getLsbD 0) ∧
      (csrWrite .sip v s).sip.ssip = v.getLsbD 1 ∧
      (s.cfg.hasN = true →
        (csrWrite .sip v s).sip.usip = v.getLsbD 0 ∧ (csrWrite .sip v s).sip.ueipSw = v.getLsbD 8) ∧
      (s.cfg.hasN = false →
        (csrWrite .sip v s).sip.usip = s.sip.usip ∧ (csrWrite .sip v s).sip.ueipSw = s.sip.ueipSw) ∧
      (csrWrite .sip v s).sip.stip = s.sip.stip ∧ (csrWrite .sip v s).sip.seip = s.sip.seip ∧
      (csrWrite .sip v s).sip.utip = s.sip.utip ∧ (csrWrite .sip v s).sip.ueipSig = s.sip.ueipSig ∧
      (csrRead .sip s).1 &&& ~~~(if s.cfg.hasN then 0x333 else 0x222 : Word) = 0 ∧
      (csrRead .sip s).1.getLsbD 1 = s.sip.ssip ∧ (csrRead .sip s).1.getLsbD 5 = s.sip.stip ∧
      (csrRead .sip s).1.getLsbD 9 = s.sip.seip ∧
      (s.cfg.hasN = true →
        (csrRead .sip s).1.getLsbD 0 = s.sip.usip ∧ (csrRead .sip s).1.getLsbD 4 = s.sip.utip ∧
          (csrRead .sip s).1.getLsbD 8 = (s.sip.ueipSw || s.sip.ueipSig))

/-- With N, CSRRW, CSRRS and CSRRC on `sip` return in `rd` UEIP with the controller's signal, and CSRRS and CSRRC
modify it without: the signal is never latched into the software bit (10_state.md R53). -/
def Obligations.UeipSignalIsNotLatched : Prop :=
  ∀ (s : State) (rd rs1 : Reg), s.priv = .supervisor → s.cfg.hasN = true →
    (∃ t, exec (.csrrw rd 0x144 rs1) s = .next t ∧
      (rd ≠ 0 → (getX rd t).getLsbD 8 = (s.sip.ueipSw || s.sip.ueipSig)) ∧
      t.sip.ueipSw = (getX rs1 s).getLsbD 8 ∧ t.sip.ueipSig = s.sip.ueipSig) ∧
    (∃ t, exec (.csrrs rd 0x144 rs1) s = .next t ∧
      (rd ≠ 0 → (getX rd t).getLsbD 8 = (s.sip.ueipSw || s.sip.ueipSig)) ∧
      t.sip.ueipSw = (s.sip.ueipSw || (getX rs1 s).getLsbD 8) ∧ t.sip.ueipSig = s.sip.ueipSig) ∧
    (∃ t, exec (.csrrc rd 0x144 rs1) s = .next t ∧
      (rd ≠ 0 → (getX rd t).getLsbD 8 = (s.sip.ueipSw || s.sip.ueipSig)) ∧
      t.sip.ueipSw = (s.sip.ueipSw && !(getX rs1 s).getLsbD 8) ∧ t.sip.ueipSig = s.sip.ueipSig)

/-- `stvec`: a word with a MODE that is reserved or not supported leaves it unchanged; Direct keeps BASE to four
bytes, Vectored to the implementation's alignment; it reads as it stands (R40, R43). -/
def Obligations.StvecWriteRule : Prop :=
  ∀ (s : State) (v : Word), s.cfg.vecAlignWf = true →
    (v.extractLsb' 0 2 = 2 ∨ v.extractLsb' 0 2 = 3 → (csrWrite .stvec v s).stvec = s.stvec) ∧
    (v.extractLsb' 0 2 = 0 → s.cfg.stvecModes.contains .direct = false →
      (csrWrite .stvec v s).stvec = s.stvec) ∧
    (v.extractLsb' 0 2 = 1 → s.cfg.stvecModes.contains .vectored = false →
      (csrWrite .stvec v s).stvec = s.stvec) ∧
    (v.extractLsb' 0 2 = 0 → s.cfg.stvecModes.contains .direct = true →
      (csrWrite .stvec v s).stvec = truncX s.cfg.sxlen v) ∧
    (v.extractLsb' 0 2 = 1 → s.cfg.stvecModes.contains .vectored = true →
      (csrWrite .stvec v s).stvec =
        (truncX s.cfg.sxlen v &&& ~~~(BitVec.ofNat 64 (s.cfg.stvecVecAlign - 1))) ||| 1) ∧
    (csrRead .stvec s).1 = s.stvec

/-- `satp`: a word with a MODE that is reserved or not supported leaves every field unchanged; else MODE, the
implemented ASID bits and the implemented PPN bits are stored together; each reads at its place (R71 to R76). -/
def Obligations.SatpReadAndWriteRules : Prop :=
  ∀ (s : State) (v : Word), s.cfg.wf = true →
    (s.cfg.sxlen = .rv32 → ∀ m : SatpMode, m = (if v.getLsbD 31 then .sv32 else .bare) →
      (s.cfg.satpModes.contains m = false → (csrWrite .satp v s).satp = s.satp) ∧
      (s.cfg.satpModes.contains m = true →
        (csrWrite .satp v s).satp.mode = m ∧
        (csrWrite .satp v s).satp.asid.toNat = v.toNat / 2 ^ 22 % 2 ^ s.cfg.asidLen ∧
        (csrWrite .satp v s).satp.ppn.toNat = v.toNat % 2 ^ (s.cfg.paLen - 12))) ∧
    (s.cfg.sxlen = .rv64 →
      (v.toNat / 2 ^ 60 ∉ [0, 8, 9] → (csrWrite .satp v s).satp = s.satp) ∧
      ∀ m : SatpMode, (v.toNat / 2 ^ 60, m) ∈ [(0, SatpMode.bare), (8, .sv39), (9, .sv48)] →
        (s.cfg.satpModes.contains m = false → (csrWrite .satp v s).satp = s.satp) ∧
        (s.cfg.satpModes.contains m = true →
          (csrWrite .satp v s).satp.mode = m ∧
          (csrWrite .satp v s).satp.asid.toNat = v.toNat / 2 ^ 44 % 2 ^ s.cfg.asidLen ∧
          (csrWrite .satp v s).satp.ppn.toNat = v.toNat % 2 ^ (s.cfg.paLen - 12))) ∧
    (s.cfg.sxlen = .rv32 → s.satp.asid.toNat < 2 ^ 9 → s.satp.ppn.toNat < 2 ^ 22 →
      ∀ k : Nat, (s.satp.mode, k) ∈ [(SatpMode.bare, 0), (.sv32, 1)] →
        (csrRead .satp s).1.toNat = k * 2 ^ 31 + s.satp.asid.toNat * 2 ^ 22 + s.satp.ppn.toNat) ∧
    (s.cfg.sxlen = .rv64 →
      ∀ k : Nat, (s.satp.mode, k) ∈ [(SatpMode.bare, 0), (.sv39, 8), (.sv48, 9)] →
        (csrRead .satp s).1.toNat = k * 2 ^ 60 + s.satp.asid.toNat * 2 ^ 44 + s.satp.ppn.toNat)

/-- `scounteren` keeps its writable bits, `sepc` all but its forced low bits, and `sscratch`, `scause`, `stval`
every bit of SXLEN (R59, R60, R62, R67, R70; that the last three and `sepc` convert nothing is the spec's
decision D25, D26, log 27). -/
def Obligations.StorageCsrWriteRules : Prop :=
  ∀ (s : State) (v : Word) (k : Nat), k < 64 →
    ((csrRead .scounteren (csrWrite .scounteren v s)).1.getLsbD k =
      (decide (k < 32) && s.cfg.scounterenMask.getLsbD k && v.getLsbD k)) ∧
    ((csrRead .sepc (csrWrite .sepc v s)).1.getLsbD k =
      (decide (k < s.cfg.sxlen.bits) && decide (k ≠ 0) && (s.cfg.ialign16 || decide (k ≠ 1)) && v.getLsbD k)) ∧
    ((csrRead .sscratch (csrWrite .sscratch v s)).1.getLsbD k = (decide (k < s.cfg.sxlen.bits) && v.getLsbD k)) ∧
    ((csrRead .scause (csrWrite .scause v s)).1.getLsbD k = (decide (k < s.cfg.sxlen.bits) && v.getLsbD k)) ∧
    ((csrRead .stval (csrWrite .stval v s)).1.getLsbD k = (decide (k < s.cfg.sxlen.bits) && v.getLsbD k))

/-! ## Translation and memory (21_address_translation.md, 20_memory.md) -/

/-- With translation off an address is its own physical address, whatever SUM and MXR say, and the only
exception is the access fault of its type (R131). -/
def Obligations.BareNeverPageFaults : Prop :=
  ∀ (t : AccessType) (va : Word) (n : Nat) (s : State), s.satp.mode = .bare →
    (physCheck s.cfg va.toNat n t s.priv = true → access t va n s = .ok va.toNat s) ∧
    (physCheck s.cfg va.toNat n t s.priv = false → ∃ e, access t va n s = .raise e va s ∧
      e = (match t with
        | .fetch => Exc.instrAccessFault
        | .load => .loadAccessFault
        | .store => .storeAccessFault))

/-- An access that raises anything raises the page fault or the access fault of its own type with its virtual
address as trap value, and sets no A or D bit: nothing has changed but the model's own number of draws (log 9) and
note on reserved PTE contents (log 35) (R151, 60_exceptions.md R291, R302(c)). -/
def Obligations.FaultingAccessChangesNothing : Prop :=
  ∀ (t : AccessType) (va : Word) (n : Nat) (s s1 : State) (e : Exc) (tv : Word),
    access t va n s = .raise e tv s1 →
    tv = va ∧ s1 = { s with draws := s1.draws, reservedPte := s1.reservedPte } ∧
      (t = .fetch → e = .instrPageFault ∨ e = .instrAccessFault) ∧
      (t = .load → e = .loadPageFault ∨ e = .loadAccessFault) ∧
      (t = .store → e = .storePageFault ∨ e = .storeAccessFault)

/-- A translation that succeeds under a paged scheme used a leaf PTE of a table its walk reaches from the root: the
PTE memory holds there or a matching cached one (which match is logs 49 and 50), readable by the platform's check,
valid, and permitting the access; the superpage is aligned. Where A, and D for a store, are set in it, nothing is to
be written; else the scheme is not to fault, and just these bits are to be set in that PTE, which memory still holds
and the platform lets be written
(R150, R153 to R157, R161, R162). -/
def Obligations.SuccessfulTranslationIsPermitted : Prop :=
  ∀ (t : AccessType) (va : Word) (s s1 : State) (tr : Translation) (m : SatpMode), m = s.satp.mode → m ≠ .bare →
    Machine.translate t va s = .ok tr s1 →
    NotesOnly s s1 ∧ canonical m va = true ∧
    ∃ (pte : Word) (level a : Nat) (g : Bool), Reaches m va s level a g ∧ level < levels m ∧
      physCheck s.cfg (pteAddrAt m va level a) (pteBytes m) .load .supervisor = true ∧
      PteVisible m va s level a pte ∧ LeafPte pte ∧ LeafPermits pte t s ∧
      ptePpn m pte % 2 ^ (level * vpnBits m) = 0 ∧ tr.pa = leafPa m pte level va ∧
      (LeafMarked pte t → tr.update = none) ∧
      (¬LeafMarked pte t →
        s.cfg.adScheme ≠ .fault ∧
          physCheck s.cfg (pteAddrAt m va level a) (pteBytes m) .store .supervisor = true ∧
          physRead (pteAddrAt m va level a) (pteBytes m) s = pte ∧
          tr.update = some { addr := pteAddrAt m va level a, size := pteBytes m,
                             new := pte ||| 0x40 ||| (if t = .store then 0x80 else 0) })

/-- Under Sv39 and Sv48 an address whose upper bits are not all equal page-faults at once, a fetch too (R140, R151;
90_conflicts.md C12). -/
def Obligations.NonCanonicalAddressesFault : Prop :=
  ∀ (t : AccessType) (va : Word) (s : State) (e : Exc),
    e = (match t with
      | .fetch => Exc.instrPageFault
      | .load => .loadPageFault
      | .store => .storePageFault) →
    (s.satp.mode = .sv39 → va.toNat / 2 ^ 38 ≠ 0 → va.toNat / 2 ^ 38 ≠ 2 ^ 26 - 1 →
      Machine.translate t va s = .raise e va s) ∧
    (s.satp.mode = .sv48 → va.toNat / 2 ^ 47 ≠ 0 → va.toNat / 2 ^ 47 ≠ 2 ^ 17 - 1 →
      Machine.translate t va s = .raise e va s)

/-- With nothing cached a translation is what the page tables in memory say, at every level of a table the walk
reaches (each pointer PTE leading to the table at its PPN times 4096): a PTE that may not be read gives the access
fault; one that is invalid or writable but not readable, a pointer at level 0, a leaf that does not permit the
access, and a misaligned superpage give the page fault; a leaf whose A and D are set as the access needs gives its
address; and one whose are not, the page fault or the update, as `AD_SCHEME` has it, or the access fault where the
platform does not let the PTE be written (R150 to R157). -/
def Obligations.UncachedWalkFollowsPageTables : Prop :=
  ∀ (t : AccessType) (va : Word) (s : State) (m : SatpMode) (i a addr : Nat) (g : Bool) (pte : Word), m = s.satp.mode →
    m ≠ .bare → s.tc = [] → canonical m va = true → Reaches m va s i a g → addr = pteAddrAt m va i a →
    pte = physRead addr (pteBytes m) s →
    (physCheck s.cfg addr (pteBytes m) .load .supervisor = false →
      RaisesIn s (accessFaultOf t) va (Machine.translate t va s)) ∧
    (physCheck s.cfg addr (pteBytes m) .load .supervisor = true →
      (pte.getLsbD 0 = false ∨ (pte.getLsbD 1 = false ∧ pte.getLsbD 2 = true) →
        RaisesIn s (pageFaultOf t) va (Machine.translate t va s)) ∧
      (pte.extractLsb' 0 4 = 0b0001#4 → i = 0 → RaisesIn s (pageFaultOf t) va (Machine.translate t va s)) ∧
      (LeafPte pte → ¬LeafPermits pte t s → RaisesIn s (pageFaultOf t) va (Machine.translate t va s)) ∧
      (LeafPte pte → LeafPermits pte t s → ptePpn m pte % 2 ^ (i * vpnBits m) ≠ 0 →
        RaisesIn s (pageFaultOf t) va (Machine.translate t va s)) ∧
      (LeafPte pte → LeafPermits pte t s → ptePpn m pte % 2 ^ (i * vpnBits m) = 0 →
        (LeafMarked pte t →
          AnswersIn s { pa := leafPa m pte i va, update := none } (Machine.translate t va s)) ∧
        (¬LeafMarked pte t →
          (s.cfg.adScheme ≠ .hwUpdate ∧ RaisesIn s (pageFaultOf t) va (Machine.translate t va s)) ∨
          (s.cfg.adScheme ≠ .fault ∧ physCheck s.cfg addr (pteBytes m) .store .supervisor = false ∧
            RaisesIn s (accessFaultOf t) va (Machine.translate t va s)) ∨
          (s.cfg.adScheme ≠ .fault ∧ physCheck s.cfg addr (pteBytes m) .store .supervisor = true ∧
            AnswersIn s
              { pa := leafPa m pte i va,
                update := some { addr := addr, size := pteBytes m,
                                 new := pte ||| 0x40 ||| (if t = .store then 0x80 else 0) } }
              (Machine.translate t va s)))))

/-- An access that is carried out writes at most the PTE its translation names, and there only sets A, and D for
a store; no other byte of memory changes, and no register or CSR (R155, R157). -/
def Obligations.AccessSetsOnlyAccessedAndDirty : Prop :=
  ∀ (t : AccessType) (va : Word) (n : Nat) (s s0 s1 : State) (tr : Translation) (pa : Nat), s.mem.wf = true →
    Machine.translate t va s = .ok tr s0 → access t va n s = .ok pa s1 →
    pa = tr.pa ∧ (tr.update = none → KeepsMemory s s1) ∧
      (∀ u, tr.update = some u →
        s.cfg.adScheme ≠ .fault ∧ KeepsMemoryOutside u.addr u.size s s1 ∧
          physRead u.addr u.size s1 =
            physRead u.addr u.size s ||| 0x40 ||| (if t = .store then 0x80 else 0)) ∧
      KeepsRegisters s s1 ∧ KeepsCsrs s s1 ∧ s1.tc = s.tc ∧ s1.priv = s.priv ∧ s1.pc = s.pc

/-- The fields of each paged scheme in the bits of the virtual address and the PTE: the VPN field a walk uses at each
level and the address of the PTE it selects, the VPN fields from each level up that a cache entry is known by, the
PPN, and the physical address of a leaf at every level (R132 to R138, R150 steps 2 and 8, R156, R161). -/
def Obligations.AddressFormulas : Prop :=
  ∀ (pte va : Word) (a : Nat),
    (levels .sv32 = 2 ∧ levels .sv39 = 3 ∧ levels .sv48 = 4) ∧
    (pteBytes .sv32 = 4 ∧ pteBytes .sv39 = 8 ∧ pteBytes .sv48 = 8) ∧
    (vpnBits .sv32 = 10 ∧ vpnBits .sv39 = 9 ∧ vpnBits .sv48 = 9) ∧
    (vpn .sv32 va 0 = (va.extractLsb' 12 10).toNat ∧ vpn .sv32 va 1 = (va.extractLsb' 22 10).toNat) ∧
    (∀ m, m = .sv39 ∨ m = .sv48 →
      vpn m va 0 = (va.extractLsb' 12 9).toNat ∧ vpn m va 1 = (va.extractLsb' 21 9).toNat ∧
      vpn m va 2 = (va.extractLsb' 30 9).toNat) ∧
    vpn .sv48 va 3 = (va.extractLsb' 39 9).toNat ∧
    (pteAddrAt .sv32 va 0 a = a + (va.extractLsb' 12 10).toNat * 4 ∧
      pteAddrAt .sv32 va 1 a = a + (va.extractLsb' 22 10).toNat * 4) ∧
    (∀ m, m = .sv39 ∨ m = .sv48 →
      pteAddrAt m va 0 a = a + (va.extractLsb' 12 9).toNat * 8 ∧
      pteAddrAt m va 1 a = a + (va.extractLsb' 21 9).toNat * 8 ∧
      pteAddrAt m va 2 a = a + (va.extractLsb' 30 9).toNat * 8) ∧
    pteAddrAt .sv48 va 3 a = a + (va.extractLsb' 39 9).toNat * 8 ∧
    (vpnPrefix .sv32 va 0 = (va.extractLsb' 12 20).toNat ∧ vpnPrefix .sv32 va 1 = (va.extractLsb' 22 10).toNat) ∧
    (vpnPrefix .sv39 va 0 = (va.extractLsb' 12 27).toNat ∧ vpnPrefix .sv39 va 1 = (va.extractLsb' 21 18).toNat ∧
      vpnPrefix .sv39 va 2 = (va.extractLsb' 30 9).toNat) ∧
    (vpnPrefix .sv48 va 0 = (va.extractLsb' 12 36).toNat ∧ vpnPrefix .sv48 va 1 = (va.extractLsb' 21 27).toNat ∧
      vpnPrefix .sv48 va 2 = (va.extractLsb' 30 18).toNat ∧ vpnPrefix .sv48 va 3 = (va.extractLsb' 39 9).toNat) ∧
    (ptePpn .sv32 pte = (pte.extractLsb' 10 22).toNat ∧ ptePpn .sv39 pte = (pte.extractLsb' 10 44).toNat ∧
      ptePpn .sv48 pte = (pte.extractLsb' 10 44).toNat) ∧
    leafPa .sv32 pte 0 va = (pte.extractLsb' 10 22).toNat * 2 ^ 12 + (va.extractLsb' 0 12).toNat ∧
    leafPa .sv32 pte 1 va = (pte.extractLsb' 20 12).toNat * 2 ^ 22 + (va.extractLsb' 0 22).toNat ∧
    (∀ m, m = .sv39 ∨ m = .sv48 →
      leafPa m pte 0 va = (pte.extractLsb' 10 44).toNat * 2 ^ 12 + (va.extractLsb' 0 12).toNat ∧
      leafPa m pte 1 va = (pte.extractLsb' 19 35).toNat * 2 ^ 21 + (va.extractLsb' 0 21).toNat ∧
      leafPa m pte 2 va = (pte.extractLsb' 28 26).toNat * 2 ^ 30 + (va.extractLsb' 0 30).toNat) ∧
    leafPa .sv48 pte 3 va = (pte.extractLsb' 37 17).toNat * 2 ^ 39 + (va.extractLsb' 0 39).toNat

/-- A fill of the translation cache only adds entries, and only with translation on: each a valid PTE that the walk
for that address meets, from a table it reaches, as memory holds it or a matching entry copies it (which match is logs
49 and 50), with the address it was read from, under the current ASID, and marked global where the PTE or a pointer on
the path to it has G set, and nowhere else. It sets no A or D bit and changes nothing else but the model's own draws (log 9) and note
on reserved PTE contents (log 35) (R145, R161 to R163). -/
def Obligations.FillAddsValidEntriesOnly : Prop :=
  ∀ (va : Word) (s : State) (m : SatpMode), m = s.satp.mode →
    fill va s =
        { s with tc := (fill va s).tc, draws := (fill va s).draws, reservedPte := (fill va s).reservedPte } ∧
      (∀ e ∈ s.tc, e ∈ (fill va s).tc) ∧
      ∀ e ∈ (fill va s).tc, e ∈ s.tc ∨
        (m ≠ .bare ∧ canonical m va = true ∧ e.asid = s.satp.asid ∧ e.level < levels m ∧
          e.vpnPrefix = vpnPrefix m va e.level ∧ e.pte.getLsbD 0 = true ∧
          (e.pte.getLsbD 1 = true ∨ e.pte.getLsbD 2 = false) ∧
          ∃ a g, Reaches m va s e.level a g ∧ e.global = (g || e.pte.getLsbD 5) ∧
            physCheck s.cfg (pteAddrAt m va e.level a) (pteBytes m) .load .supervisor = true ∧
            PteFrom m va s e.level a e.pte e.pteAddr)

/-- A value written to physical memory reads back, the byte at the lowest address holding bits 7:0, and no byte
outside changes (20_memory.md R103). -/
def Obligations.StoredValueReadsBack : Prop :=
  ∀ (pa n : Nat) (v : Word) (s : State), s.mem.wf = true → n ≤ 8 →
    (physRead pa n (physWrite pa n v s)).toNat = v.toNat % 2 ^ (8 * n) ∧
      (∀ k, k < n → ((physWrite pa n v s).mem.read (pa + k)).toNat = v.toNat / 2 ^ (8 * k) % 256) ∧
      KeepsMemoryOutside pa n s (physWrite pa n v s)

/-- The contract of base-ISA accesses, translation off: an aligned store that passes its check writes its bytes
and no other, and the load after it returns them (43_environment_and_fence.md R267). -/
def Obligations.DataLoadReturnsStoredValue : Prop :=
  ∀ (ea : Word) (n : Nat) (v : Word) (s : State), s.mem.wf = true → s.satp.mode = .bare → n ∈ [1, 2, 4, 8] →
    ea.toNat % n = 0 → physCheck s.cfg ea.toNat n .store s.priv = true →
    physCheck s.cfg ea.toNat n .load s.priv = true →
    ∃ s1 w, dataStore ea n v s = .ok () s1 ∧ KeepsMemoryOutside ea.toNat n s s1 ∧ KeepsRegisters s s1 ∧
      KeepsCsrs s s1 ∧ dataLoad ea n s1 = .ok w s1 ∧ w.toNat = v.toNat % 2 ^ (8 * n)

/-- The contract of atomics: a load-reserve, store-conditional or AMO whose address is not naturally aligned
raises AMO address misaligned with that address, before any translation (43_environment_and_fence.md R267). -/
def Obligations.MisalignedAtomicsRaise : Prop :=
  ∀ (ea : Word) (n : Nat) (v : Word) (f : Word → Word) (s : State), ea.toNat % n ≠ 0 →
    atomicLoad ea n s = .raise .amoMisaligned ea s ∧ atomicStore ea n v s = .raise .amoMisaligned ea s ∧
      atomicUpdate ea n f s = .raise .amoMisaligned ea s

/-- The contract of misaligned data accesses, loads and stores: refused; or performed byte by byte in ascending
order, each byte translated on its own. A load so performed answers its bytes, the lowest address first; one that
faults reports the address of the first byte that fails, after the bytes below it have gone through. What those have
done then stays or not, as log 19 leaves free: all of it, or nothing, or of a store the A and D bits set for them
without the bytes (20_memory.md R104(g), R105, 60_exceptions.md R302(b)). -/
def Obligations.MisalignedAccessesGoByteByByte : Prop :=
  ∀ (ea v : Word) (n : Nat) (s : State), fitsX s.cfg.sxlen ea → n ≤ 8 → ea.toNat % n ≠ 0 →
    (s.cfg.misaligned = .refuse →
      dataLoad ea n s = .refuse .misalignedAccess ∧ dataStore ea n v s = .refuse .misalignedAccess) ∧
    (s.cfg.misaligned = .perform →
      (∀ w s1, dataLoad ea n s = .ok w s1 →
        ∃ bs, bs.length = n ∧ LoadsBytes s ea bs s1 ∧ w.toNat < 2 ^ (8 * n) ∧
          ∀ k b, bs[k]? = some b → w.toNat / 2 ^ (8 * k) % 256 = b.toNat) ∧
      (∀ e tv s1, dataLoad ea n s = .raise e tv s1 →
        (e = .loadPageFault ∨ e = .loadAccessFault) ∧
          ∃ bs sk s2, bs.length < n ∧ LoadsBytes s ea bs sk ∧
            tv = truncX s.cfg.sxlen (ea + BitVec.ofNat 64 bs.length) ∧ memRead .load tv 1 sk = .raise e tv s2 ∧
              (NotesOnly s s1 ∨ NotesOnly sk s1)) ∧
      (∀ s1, dataStore ea n v s = .ok () s1 → StoresBytes s ea (leBytes v n) s1) ∧
      (∀ e tv s1, dataStore ea n v s = .raise e tv s1 →
        (e = .storePageFault ∨ e = .storeAccessFault) ∧
          ∃ k b sk s2, (leBytes v n)[k]? = some b ∧ StoresBytes s ea ((leBytes v n).take k) sk ∧
            tv = truncX s.cfg.sxlen (ea + BitVec.ofNat 64 k) ∧
            memWrite tv 1 (b.setWidth 64) sk = .raise e tv s2 ∧
              (NotesOnly s s1 ∨ NotesOnly sk s1 ∨
                ∃ j sm, j ≤ k ∧ MarksBytes s ea j sm ∧ NotesOnly sm s1)))

/-- The contract of control transfers: an aligned target becomes the pc; a misaligned one traps on the
transferring instruction with cause 0 and the target as trap value (43_environment_and_fence.md R268, D20). -/
def Obligations.MisalignedTargetsTrap : Prop :=
  ∀ (target : Word) (s : State), fitsX s.cfg.sxlen target →
    (alignedPc s.cfg target = true → (jumpTo target s).pc = target ∧ (jumpTo target s).priv = s.priv ∧
      KeepsRegisters s (jumpTo target s) ∧ KeepsCsrs s (jumpTo target s) ∧ CountsOne s (jumpTo target s)) ∧
    (alignedPc s.cfg target = false →
      Trapped (.exception .instrMisaligned) target s.pc s (jumpTo target s) ∧ (jumpTo target s).scause = 0)

/-! ## Invariants and whole-machine rules -/

/-- The state after reset is an entry state (10_state.md R83, 70_reset_and_hazards.md R341; the values R83 leaves
open are the model's, log 3). -/
def Obligations.ResetIsEntryState : Prop :=
  State.reset.AtEntry

/-- Every step keeps memory in its canonical form. -/
def Obligations.StepKeepsMemoryCanonical : Prop :=
  ∀ s t : State, s.mem.wf = true → step s = .next t → t.mem.wf = true

/-- Every step keeps a state legal: `x0` is 0, every register is an SXLEN-bit value, the pc is aligned, every CSR
holds a legal value, memory is canonical, the cache holds valid PTEs, and the parameters do not change (10_state.md
R21, R22, R32, R39 to R76, 21_address_translation.md R163). -/
def Obligations.StepKeepsStateLegal : Prop :=
  ∀ s t : State, s.Inv → step s = .next t → t.Inv ∧ t.cfg = s.cfg

/-- No run from a legal state ever faults, however long and whatever the other agents do: each step goes on or is
refused. The machine's only fault, at a misaligned pc, is the model's own choice (log 39), for a case the spec says
cannot happen (60_exceptions.md R306; runs are 70_reset_and_hazards.md R353). -/
def Obligations.LegalRunsNeverFault : Prop :=
  ∀ (k : Nat) (s : State) (f : Fault), s.Inv → Host.Core.run Sys2Proof.core k s ≠ .fault f

/-- An instruction executed in U-mode that stays in U-mode changes no supervisor CSR, no memory and no cached
translation (60_exceptions.md R322). -/
def Obligations.UserInstructionsKeepSupervisorState : Prop :=
  ∀ (i : Instr) (s t : State), s.priv = .user → exec i s = .next t → t.priv = .user →
    KeepsCsrs s t ∧ KeepsMemory s t ∧ t.tc = s.tc ∧ KeepsSurroundings s t

/-- U-mode is left only by a trap: after a step from U-mode to S-mode the saved pc, the cause, SPP, SPIE and SIE
are the trap's and the pc is the vector's, and nothing a trap does not write has changed, no register, CSR, counter,
cache entry or byte of memory, but for bytes of a PTE that the accesses of the fetch update. The model's own turns,
draws and notes go on (60_exceptions.md R300, R302, R306, R323). -/
def Obligations.UserModeIsLeftOnlyByTrap : Prop :=
  ∀ s t : State, s.priv = .user → step s = .next t → t.priv = .supervisor →
    ∃ cause, t.pc = trapPc s.cfg.sxlen s.stvec cause ∧ t.scause = causeWord s.cfg.sxlen cause ∧
      t.sepc = legalSepc s.cfg s.pc ∧ t.sstatus.spp = false ∧ t.sstatus.spie = s.sstatus.sie ∧
      t.sstatus.sie = false ∧ KeepsUntrappedCsrs s t ∧ KeepsRegisters s t ∧ t.counters = s.counters ∧
      t.tc = s.tc ∧ t.cfg = s.cfg ∧ t.turns = s.turns.tail ∧ t.timer = s.timer ∧ t.lastCall = s.lastCall ∧
      FetchMemory s t

/-- S-mode is left for U-mode only by SRET with SPP clear (60_exceptions.md R323). -/
def Obligations.SupervisorModeIsLeftOnlyBySret : Prop :=
  (∀ (i : Instr) (s t : State), s.priv = .supervisor → exec i s = .next t → t.priv = .user →
    i = .sret ∧ s.sstatus.spp = false) ∧
  ∀ s t : State, s.priv = .supervisor → step s = .next t → t.priv = .user →
    s.sstatus.spp = false ∧ t.pc = legalSepc s.cfg s.sepc ∧ t.sstatus.sie = s.sstatus.spie ∧
      t.sstatus.spie = true ∧ KeepsRegisters s t ∧ KeepsCsrsBut .sstatus s t

/-- A step of another agent changes no register, pc, mode, CSR but `sip`, or counter but `time`. Each pending bit the
SEE or the controller owns changes only by that agent's own step, SSIP is only set, and STIP is not set before the
time scheduled (R331; that the SEE keeps to it is log 48); `time` changes only by the real-time counter's and never goes back; memory only by another hart's store, inside the bytes it stores, and only on
a system of several harts; the cache only by a fill or an eviction (60_exceptions.md R333, R335). -/
def Obligations.AgentsTouchOnlyTheirState : Prop :=
  ∀ (s : State) (a : AgentStep) (rest : List Turn), s.turns = .agent a :: rest →
    ∃ t, step s = .next t ∧ t.priv = s.priv ∧ t.pc = s.pc ∧ t.cfg = s.cfg ∧ t.turns = rest ∧ KeepsRegisters s t ∧
      KeepsCsrsBut .sip s t ∧ t.sip.usip = s.sip.usip ∧ t.sip.ueipSw = s.sip.ueipSw ∧
      t.sip.ssip = (s.sip.ssip || decide (a = .raiseSsip)) ∧
      (a = .setStip false → t.sip.stip = false) ∧
      (a = .setStip true → (∀ T, s.timer = some T → T.toNat ≤ s.counters[1].toNat) → t.sip.stip = true) ∧
      (a = .setStip true → s.sip.stip = true → t.sip.stip = true) ∧ StipOnTime s t ∧ t.timer = s.timer ∧
      t.lastCall = s.lastCall ∧ ((∀ b, a ≠ .setStip b) → t.sip.stip = s.sip.stip) ∧
      (∀ b, a = .setSeip b → t.sip.seip = b) ∧ ((∀ b, a ≠ .setSeip b) → t.sip.seip = s.sip.seip) ∧
      (∀ b, a = .setUtip b → t.sip.utip = (s.cfg.hasN && b)) ∧
      ((∀ b, a ≠ .setUtip b) → t.sip.utip = s.sip.utip) ∧
      (∀ b, a = .setUeipSig b → t.sip.ueipSig = b) ∧ ((∀ b, a ≠ .setUeipSig b) → t.sip.ueipSig = s.sip.ueipSig) ∧
      (∀ n : Fin 32, n ≠ 1 → t.counters[n] = s.counters[n]) ∧ s.counters[1].toNat ≤ t.counters[1].toNat ∧
      (∀ v, a = .timeReaches v → s.counters[1].toNat ≤ v.toNat → t.counters[1] = v) ∧
      ((∀ v, a ≠ .timeReaches v) → t.counters[1] = s.counters[1]) ∧
      (∀ pa bytes, a = .otherStore pa bytes →
        KeepsMemoryOutside pa bytes.length s t ∧ (s.cfg.nharts ≤ 1 → KeepsMemory s t) ∧
          (s.mem.wf = true → 1 < s.cfg.nharts → pa + bytes.length ≤ 2 ^ s.cfg.paLen →
            ∀ k b, bytes[k]? = some b → t.mem.read (pa + k) = b)) ∧
      ((∀ pa bytes, a ≠ .otherStore pa bytes) → KeepsMemory s t) ∧
      (∀ va, a = .fill va → t.tc = (fill va { s with turns := rest }).tc) ∧
      (∀ k, a = .evict k → t.tc = s.tc.eraseIdx k) ∧
      ((∀ va, a ≠ .fill va) → (∀ k, a ≠ .evict k) → t.tc = s.tc)
end

