-- ==== Sys2Proof/Laws/State.lean ====
section
/-! SUPPORT. One lemma for each field and each state update of Machine/Ops.lean and its users, so that no proof unfolds a
record update. -/

namespace Sys2Proof.Machine

/-! ## drawn -/

@[simp] theorem drawn_cfg (s : State) : (drawn s).cfg = s.cfg := rfl
@[simp] theorem drawn_priv (s : State) : (drawn s).priv = s.priv := rfl
@[simp] theorem drawn_pc (s : State) : (drawn s).pc = s.pc := rfl
@[simp] theorem drawn_x (s : State) : (drawn s).x = s.x := rfl
@[simp] theorem drawn_sstatus (s : State) : (drawn s).sstatus = s.sstatus := rfl
@[simp] theorem drawn_stvec (s : State) : (drawn s).stvec = s.stvec := rfl
@[simp] theorem drawn_sie (s : State) : (drawn s).sie = s.sie := rfl
@[simp] theorem drawn_sip (s : State) : (drawn s).sip = s.sip := rfl
@[simp] theorem drawn_scounteren (s : State) : (drawn s).scounteren = s.scounteren := rfl
@[simp] theorem drawn_sscratch (s : State) : (drawn s).sscratch = s.sscratch := rfl
@[simp] theorem drawn_sepc (s : State) : (drawn s).sepc = s.sepc := rfl
@[simp] theorem drawn_scause (s : State) : (drawn s).scause = s.scause := rfl
@[simp] theorem drawn_stval (s : State) : (drawn s).stval = s.stval := rfl
@[simp] theorem drawn_satp (s : State) : (drawn s).satp = s.satp := rfl
@[simp] theorem drawn_counters (s : State) : (drawn s).counters = s.counters := rfl
@[simp] theorem drawn_tc (s : State) : (drawn s).tc = s.tc := rfl
@[simp] theorem drawn_mem (s : State) : (drawn s).mem = s.mem := rfl
@[simp] theorem drawn_oldBytes (s : State) : (drawn s).oldBytes = s.oldBytes := rfl
@[simp] theorem drawn_turns (s : State) : (drawn s).turns = s.turns := rfl
@[simp] theorem drawn_reservedPte (s : State) : (drawn s).reservedPte = s.reservedPte := rfl
@[simp] theorem drawn_timer (s : State) : (drawn s).timer = s.timer := rfl
@[simp] theorem drawn_lastCall (s : State) : (drawn s).lastCall = s.lastCall := rfl
@[simp] theorem drawn_draws (s : State) : (drawn s).draws = s.draws + 1 := rfl

/-! ## notePte -/

@[simp] theorem notePte_cfg (pte : Word) (s : State) : (notePte pte s).cfg = s.cfg := rfl
@[simp] theorem notePte_priv (pte : Word) (s : State) : (notePte pte s).priv = s.priv := rfl
@[simp] theorem notePte_pc (pte : Word) (s : State) : (notePte pte s).pc = s.pc := rfl
@[simp] theorem notePte_x (pte : Word) (s : State) : (notePte pte s).x = s.x := rfl
@[simp] theorem notePte_sstatus (pte : Word) (s : State) : (notePte pte s).sstatus = s.sstatus := rfl
@[simp] theorem notePte_stvec (pte : Word) (s : State) : (notePte pte s).stvec = s.stvec := rfl
@[simp] theorem notePte_sie (pte : Word) (s : State) : (notePte pte s).sie = s.sie := rfl
@[simp] theorem notePte_sip (pte : Word) (s : State) : (notePte pte s).sip = s.sip := rfl
@[simp] theorem notePte_scounteren (pte : Word) (s : State) : (notePte pte s).scounteren = s.scounteren := rfl
@[simp] theorem notePte_sscratch (pte : Word) (s : State) : (notePte pte s).sscratch = s.sscratch := rfl
@[simp] theorem notePte_sepc (pte : Word) (s : State) : (notePte pte s).sepc = s.sepc := rfl
@[simp] theorem notePte_scause (pte : Word) (s : State) : (notePte pte s).scause = s.scause := rfl
@[simp] theorem notePte_stval (pte : Word) (s : State) : (notePte pte s).stval = s.stval := rfl
@[simp] theorem notePte_satp (pte : Word) (s : State) : (notePte pte s).satp = s.satp := rfl
@[simp] theorem notePte_counters (pte : Word) (s : State) : (notePte pte s).counters = s.counters := rfl
@[simp] theorem notePte_tc (pte : Word) (s : State) : (notePte pte s).tc = s.tc := rfl
@[simp] theorem notePte_mem (pte : Word) (s : State) : (notePte pte s).mem = s.mem := rfl
@[simp] theorem notePte_oldBytes (pte : Word) (s : State) : (notePte pte s).oldBytes = s.oldBytes := rfl
@[simp] theorem notePte_turns (pte : Word) (s : State) : (notePte pte s).turns = s.turns := rfl
@[simp] theorem notePte_reservedPte (pte : Word) (s : State) : (notePte pte s).reservedPte = (s.reservedPte || pteReserved pte) := rfl
@[simp] theorem notePte_timer (pte : Word) (s : State) : (notePte pte s).timer = s.timer := rfl
@[simp] theorem notePte_lastCall (pte : Word) (s : State) : (notePte pte s).lastCall = s.lastCall := rfl
@[simp] theorem notePte_draws (pte : Word) (s : State) : (notePte pte s).draws = s.draws := rfl

/-! ## setX -/

@[simp] theorem setX_cfg (r : Reg) (v : Word) (s : State) : (setX r v s).cfg = s.cfg := by unfold setX; split <;> rfl
@[simp] theorem setX_priv (r : Reg) (v : Word) (s : State) : (setX r v s).priv = s.priv := by unfold setX; split <;> rfl
@[simp] theorem setX_pc (r : Reg) (v : Word) (s : State) : (setX r v s).pc = s.pc := by unfold setX; split <;> rfl
@[simp] theorem setX_sstatus (r : Reg) (v : Word) (s : State) : (setX r v s).sstatus = s.sstatus := by unfold setX; split <;> rfl
@[simp] theorem setX_stvec (r : Reg) (v : Word) (s : State) : (setX r v s).stvec = s.stvec := by unfold setX; split <;> rfl
@[simp] theorem setX_sie (r : Reg) (v : Word) (s : State) : (setX r v s).sie = s.sie := by unfold setX; split <;> rfl
@[simp] theorem setX_sip (r : Reg) (v : Word) (s : State) : (setX r v s).sip = s.sip := by unfold setX; split <;> rfl
@[simp] theorem setX_scounteren (r : Reg) (v : Word) (s : State) : (setX r v s).scounteren = s.scounteren := by unfold setX; split <;> rfl
@[simp] theorem setX_sscratch (r : Reg) (v : Word) (s : State) : (setX r v s).sscratch = s.sscratch := by unfold setX; split <;> rfl
@[simp] theorem setX_sepc (r : Reg) (v : Word) (s : State) : (setX r v s).sepc = s.sepc := by unfold setX; split <;> rfl
@[simp] theorem setX_scause (r : Reg) (v : Word) (s : State) : (setX r v s).scause = s.scause := by unfold setX; split <;> rfl
@[simp] theorem setX_stval (r : Reg) (v : Word) (s : State) : (setX r v s).stval = s.stval := by unfold setX; split <;> rfl
@[simp] theorem setX_satp (r : Reg) (v : Word) (s : State) : (setX r v s).satp = s.satp := by unfold setX; split <;> rfl
@[simp] theorem setX_counters (r : Reg) (v : Word) (s : State) : (setX r v s).counters = s.counters := by unfold setX; split <;> rfl
@[simp] theorem setX_tc (r : Reg) (v : Word) (s : State) : (setX r v s).tc = s.tc := by unfold setX; split <;> rfl
@[simp] theorem setX_mem (r : Reg) (v : Word) (s : State) : (setX r v s).mem = s.mem := by unfold setX; split <;> rfl
@[simp] theorem setX_oldBytes (r : Reg) (v : Word) (s : State) : (setX r v s).oldBytes = s.oldBytes := by unfold setX; split <;> rfl
@[simp] theorem setX_turns (r : Reg) (v : Word) (s : State) : (setX r v s).turns = s.turns := by unfold setX; split <;> rfl
@[simp] theorem setX_reservedPte (r : Reg) (v : Word) (s : State) : (setX r v s).reservedPte = s.reservedPte := by unfold setX; split <;> rfl
@[simp] theorem setX_timer (r : Reg) (v : Word) (s : State) : (setX r v s).timer = s.timer := by unfold setX; split <;> rfl
@[simp] theorem setX_lastCall (r : Reg) (v : Word) (s : State) : (setX r v s).lastCall = s.lastCall := by unfold setX; split <;> rfl
@[simp] theorem setX_draws (r : Reg) (v : Word) (s : State) : (setX r v s).draws = s.draws := by unfold setX; split <;> rfl

/-! ## storeByte -/

@[simp] theorem storeByte_cfg (pa : Nat) (v : Byte) (s : State) : (storeByte pa v s).cfg = s.cfg := rfl
@[simp] theorem storeByte_priv (pa : Nat) (v : Byte) (s : State) : (storeByte pa v s).priv = s.priv := rfl
@[simp] theorem storeByte_pc (pa : Nat) (v : Byte) (s : State) : (storeByte pa v s).pc = s.pc := rfl
@[simp] theorem storeByte_x (pa : Nat) (v : Byte) (s : State) : (storeByte pa v s).x = s.x := rfl
@[simp] theorem storeByte_sstatus (pa : Nat) (v : Byte) (s : State) : (storeByte pa v s).sstatus = s.sstatus := rfl
@[simp] theorem storeByte_stvec (pa : Nat) (v : Byte) (s : State) : (storeByte pa v s).stvec = s.stvec := rfl
@[simp] theorem storeByte_sie (pa : Nat) (v : Byte) (s : State) : (storeByte pa v s).sie = s.sie := rfl
@[simp] theorem storeByte_sip (pa : Nat) (v : Byte) (s : State) : (storeByte pa v s).sip = s.sip := rfl
@[simp] theorem storeByte_scounteren (pa : Nat) (v : Byte) (s : State) : (storeByte pa v s).scounteren = s.scounteren := rfl
@[simp] theorem storeByte_sscratch (pa : Nat) (v : Byte) (s : State) : (storeByte pa v s).sscratch = s.sscratch := rfl
@[simp] theorem storeByte_sepc (pa : Nat) (v : Byte) (s : State) : (storeByte pa v s).sepc = s.sepc := rfl
@[simp] theorem storeByte_scause (pa : Nat) (v : Byte) (s : State) : (storeByte pa v s).scause = s.scause := rfl
@[simp] theorem storeByte_stval (pa : Nat) (v : Byte) (s : State) : (storeByte pa v s).stval = s.stval := rfl
@[simp] theorem storeByte_satp (pa : Nat) (v : Byte) (s : State) : (storeByte pa v s).satp = s.satp := rfl
@[simp] theorem storeByte_counters (pa : Nat) (v : Byte) (s : State) : (storeByte pa v s).counters = s.counters := rfl
@[simp] theorem storeByte_tc (pa : Nat) (v : Byte) (s : State) : (storeByte pa v s).tc = s.tc := rfl
@[simp] theorem storeByte_mem (pa : Nat) (v : Byte) (s : State) : (storeByte pa v s).mem = s.mem.write pa v := rfl
@[simp] theorem storeByte_turns (pa : Nat) (v : Byte) (s : State) : (storeByte pa v s).turns = s.turns := rfl
@[simp] theorem storeByte_reservedPte (pa : Nat) (v : Byte) (s : State) : (storeByte pa v s).reservedPte = s.reservedPte := rfl
@[simp] theorem storeByte_timer (pa : Nat) (v : Byte) (s : State) : (storeByte pa v s).timer = s.timer := rfl
@[simp] theorem storeByte_lastCall (pa : Nat) (v : Byte) (s : State) : (storeByte pa v s).lastCall = s.lastCall := rfl
@[simp] theorem storeByte_draws (pa : Nat) (v : Byte) (s : State) : (storeByte pa v s).draws = s.draws := rfl

/-! ## retireTo -/

@[simp] theorem retireTo_cfg (tgt : Word) (s : State) : (retireTo tgt s).cfg = s.cfg := rfl
@[simp] theorem retireTo_priv (tgt : Word) (s : State) : (retireTo tgt s).priv = s.priv := rfl
@[simp] theorem retireTo_pc (tgt : Word) (s : State) : (retireTo tgt s).pc = truncX s.cfg.sxlen tgt := rfl
@[simp] theorem retireTo_x (tgt : Word) (s : State) : (retireTo tgt s).x = s.x := rfl
@[simp] theorem retireTo_sstatus (tgt : Word) (s : State) : (retireTo tgt s).sstatus = s.sstatus := rfl
@[simp] theorem retireTo_stvec (tgt : Word) (s : State) : (retireTo tgt s).stvec = s.stvec := rfl
@[simp] theorem retireTo_sie (tgt : Word) (s : State) : (retireTo tgt s).sie = s.sie := rfl
@[simp] theorem retireTo_sip (tgt : Word) (s : State) : (retireTo tgt s).sip = s.sip := rfl
@[simp] theorem retireTo_scounteren (tgt : Word) (s : State) : (retireTo tgt s).scounteren = s.scounteren := rfl
@[simp] theorem retireTo_sscratch (tgt : Word) (s : State) : (retireTo tgt s).sscratch = s.sscratch := rfl
@[simp] theorem retireTo_sepc (tgt : Word) (s : State) : (retireTo tgt s).sepc = s.sepc := rfl
@[simp] theorem retireTo_scause (tgt : Word) (s : State) : (retireTo tgt s).scause = s.scause := rfl
@[simp] theorem retireTo_stval (tgt : Word) (s : State) : (retireTo tgt s).stval = s.stval := rfl
@[simp] theorem retireTo_satp (tgt : Word) (s : State) : (retireTo tgt s).satp = s.satp := rfl
@[simp] theorem retireTo_counters (tgt : Word) (s : State) : (retireTo tgt s).counters = s.counters.set 2 (s.counters[2] + 1) := rfl
@[simp] theorem retireTo_tc (tgt : Word) (s : State) : (retireTo tgt s).tc = s.tc := rfl
@[simp] theorem retireTo_mem (tgt : Word) (s : State) : (retireTo tgt s).mem = s.mem := rfl
@[simp] theorem retireTo_oldBytes (tgt : Word) (s : State) : (retireTo tgt s).oldBytes = s.oldBytes := rfl
@[simp] theorem retireTo_turns (tgt : Word) (s : State) : (retireTo tgt s).turns = s.turns := rfl
@[simp] theorem retireTo_reservedPte (tgt : Word) (s : State) : (retireTo tgt s).reservedPte = s.reservedPte := rfl
@[simp] theorem retireTo_timer (tgt : Word) (s : State) : (retireTo tgt s).timer = s.timer := rfl
@[simp] theorem retireTo_lastCall (tgt : Word) (s : State) : (retireTo tgt s).lastCall = s.lastCall := rfl
@[simp] theorem retireTo_draws (tgt : Word) (s : State) : (retireTo tgt s).draws = s.draws := rfl

/-! ## retire -/

@[simp] theorem retire_cfg (s : State) : (retire s).cfg = s.cfg := rfl
@[simp] theorem retire_priv (s : State) : (retire s).priv = s.priv := rfl
@[simp] theorem retire_pc (s : State) : (retire s).pc = truncX s.cfg.sxlen (s.pc + 4) := rfl
@[simp] theorem retire_x (s : State) : (retire s).x = s.x := rfl
@[simp] theorem retire_sstatus (s : State) : (retire s).sstatus = s.sstatus := rfl
@[simp] theorem retire_stvec (s : State) : (retire s).stvec = s.stvec := rfl
@[simp] theorem retire_sie (s : State) : (retire s).sie = s.sie := rfl
@[simp] theorem retire_sip (s : State) : (retire s).sip = s.sip := rfl
@[simp] theorem retire_scounteren (s : State) : (retire s).scounteren = s.scounteren := rfl
@[simp] theorem retire_sscratch (s : State) : (retire s).sscratch = s.sscratch := rfl
@[simp] theorem retire_sepc (s : State) : (retire s).sepc = s.sepc := rfl
@[simp] theorem retire_scause (s : State) : (retire s).scause = s.scause := rfl
@[simp] theorem retire_stval (s : State) : (retire s).stval = s.stval := rfl
@[simp] theorem retire_satp (s : State) : (retire s).satp = s.satp := rfl
@[simp] theorem retire_counters (s : State) : (retire s).counters = s.counters.set 2 (s.counters[2] + 1) := rfl
@[simp] theorem retire_tc (s : State) : (retire s).tc = s.tc := rfl
@[simp] theorem retire_mem (s : State) : (retire s).mem = s.mem := rfl
@[simp] theorem retire_oldBytes (s : State) : (retire s).oldBytes = s.oldBytes := rfl
@[simp] theorem retire_turns (s : State) : (retire s).turns = s.turns := rfl
@[simp] theorem retire_reservedPte (s : State) : (retire s).reservedPte = s.reservedPte := rfl
@[simp] theorem retire_timer (s : State) : (retire s).timer = s.timer := rfl
@[simp] theorem retire_lastCall (s : State) : (retire s).lastCall = s.lastCall := rfl
@[simp] theorem retire_draws (s : State) : (retire s).draws = s.draws := rfl

/-! ## trapToS -/

@[simp] theorem trapToS_cfg (c : Cause) (tval epc : Word) (s : State) : (trapToS c tval epc s).cfg = s.cfg := rfl
@[simp] theorem trapToS_priv (c : Cause) (tval epc : Word) (s : State) : (trapToS c tval epc s).priv = .supervisor := rfl
@[simp] theorem trapToS_pc (c : Cause) (tval epc : Word) (s : State) : (trapToS c tval epc s).pc = trapPc s.cfg.sxlen s.stvec c := rfl
@[simp] theorem trapToS_x (c : Cause) (tval epc : Word) (s : State) : (trapToS c tval epc s).x = s.x := rfl
@[simp] theorem trapToS_sstatus (c : Cause) (tval epc : Word) (s : State) : (trapToS c tval epc s).sstatus = 
      { s.sstatus with spp := decide (s.priv = .supervisor), spie := s.sstatus.sie, sie := false } := rfl
@[simp] theorem trapToS_stvec (c : Cause) (tval epc : Word) (s : State) : (trapToS c tval epc s).stvec = s.stvec := rfl
@[simp] theorem trapToS_sie (c : Cause) (tval epc : Word) (s : State) : (trapToS c tval epc s).sie = s.sie := rfl
@[simp] theorem trapToS_sip (c : Cause) (tval epc : Word) (s : State) : (trapToS c tval epc s).sip = s.sip := rfl
@[simp] theorem trapToS_scounteren (c : Cause) (tval epc : Word) (s : State) : (trapToS c tval epc s).scounteren = s.scounteren := rfl
@[simp] theorem trapToS_sscratch (c : Cause) (tval epc : Word) (s : State) : (trapToS c tval epc s).sscratch = s.sscratch := rfl
@[simp] theorem trapToS_sepc (c : Cause) (tval epc : Word) (s : State) : (trapToS c tval epc s).sepc = legalSepc s.cfg epc := rfl
@[simp] theorem trapToS_scause (c : Cause) (tval epc : Word) (s : State) : (trapToS c tval epc s).scause = causeWord s.cfg.sxlen c := rfl
@[simp] theorem trapToS_stval (c : Cause) (tval epc : Word) (s : State) : (trapToS c tval epc s).stval = truncX s.cfg.sxlen tval := rfl
@[simp] theorem trapToS_satp (c : Cause) (tval epc : Word) (s : State) : (trapToS c tval epc s).satp = s.satp := rfl
@[simp] theorem trapToS_counters (c : Cause) (tval epc : Word) (s : State) : (trapToS c tval epc s).counters = s.counters := rfl
@[simp] theorem trapToS_tc (c : Cause) (tval epc : Word) (s : State) : (trapToS c tval epc s).tc = s.tc := rfl
@[simp] theorem trapToS_mem (c : Cause) (tval epc : Word) (s : State) : (trapToS c tval epc s).mem = s.mem := rfl
@[simp] theorem trapToS_oldBytes (c : Cause) (tval epc : Word) (s : State) : (trapToS c tval epc s).oldBytes = s.oldBytes := rfl
@[simp] theorem trapToS_turns (c : Cause) (tval epc : Word) (s : State) : (trapToS c tval epc s).turns = s.turns := rfl
@[simp] theorem trapToS_reservedPte (c : Cause) (tval epc : Word) (s : State) : (trapToS c tval epc s).reservedPte = s.reservedPte := rfl
@[simp] theorem trapToS_timer (c : Cause) (tval epc : Word) (s : State) : (trapToS c tval epc s).timer = s.timer := rfl
@[simp] theorem trapToS_lastCall (c : Cause) (tval epc : Word) (s : State) : (trapToS c tval epc s).lastCall = s.lastCall := rfl
@[simp] theorem trapToS_draws (c : Cause) (tval epc : Word) (s : State) : (trapToS c tval epc s).draws = s.draws := rfl

/-! ## returnFromS -/

@[simp] theorem returnFromS_cfg (s : State) : (returnFromS s).cfg = s.cfg := rfl
@[simp] theorem returnFromS_priv (s : State) : (returnFromS s).priv = if s.sstatus.spp then .supervisor else .user := rfl
@[simp] theorem returnFromS_pc (s : State) : (returnFromS s).pc = truncX s.cfg.sxlen (legalSepc s.cfg s.sepc) := rfl
@[simp] theorem returnFromS_x (s : State) : (returnFromS s).x = s.x := rfl
@[simp] theorem returnFromS_sstatus (s : State) : (returnFromS s).sstatus = 
      { s.sstatus with spp := false, sie := s.sstatus.spie, spie := true } := rfl
@[simp] theorem returnFromS_stvec (s : State) : (returnFromS s).stvec = s.stvec := rfl
@[simp] theorem returnFromS_sie (s : State) : (returnFromS s).sie = s.sie := rfl
@[simp] theorem returnFromS_sip (s : State) : (returnFromS s).sip = s.sip := rfl
@[simp] theorem returnFromS_scounteren (s : State) : (returnFromS s).scounteren = s.scounteren := rfl
@[simp] theorem returnFromS_sscratch (s : State) : (returnFromS s).sscratch = s.sscratch := rfl
@[simp] theorem returnFromS_sepc (s : State) : (returnFromS s).sepc = s.sepc := rfl
@[simp] theorem returnFromS_scause (s : State) : (returnFromS s).scause = s.scause := rfl
@[simp] theorem returnFromS_stval (s : State) : (returnFromS s).stval = s.stval := rfl
@[simp] theorem returnFromS_satp (s : State) : (returnFromS s).satp = s.satp := rfl
@[simp] theorem returnFromS_counters (s : State) : (returnFromS s).counters = s.counters.set 2 (s.counters[2] + 1) := rfl
@[simp] theorem returnFromS_tc (s : State) : (returnFromS s).tc = s.tc := rfl
@[simp] theorem returnFromS_mem (s : State) : (returnFromS s).mem = s.mem := rfl
@[simp] theorem returnFromS_oldBytes (s : State) : (returnFromS s).oldBytes = s.oldBytes := rfl
@[simp] theorem returnFromS_turns (s : State) : (returnFromS s).turns = s.turns := rfl
@[simp] theorem returnFromS_reservedPte (s : State) : (returnFromS s).reservedPte = s.reservedPte := rfl
@[simp] theorem returnFromS_timer (s : State) : (returnFromS s).timer = s.timer := rfl
@[simp] theorem returnFromS_lastCall (s : State) : (returnFromS s).lastCall = s.lastCall := rfl
@[simp] theorem returnFromS_draws (s : State) : (returnFromS s).draws = s.draws := rfl

/-! ## storeBytes -/

@[simp] theorem storeBytes_cfg (pa : Nat) (bs : List Byte) (s : State) : (storeBytes pa bs s).cfg = s.cfg := by
  induction bs generalizing pa s with
  | nil => rfl
  | cons b bs ih => simp [storeBytes, ih]
@[simp] theorem storeBytes_priv (pa : Nat) (bs : List Byte) (s : State) : (storeBytes pa bs s).priv = s.priv := by
  induction bs generalizing pa s with
  | nil => rfl
  | cons b bs ih => simp [storeBytes, ih]
@[simp] theorem storeBytes_pc (pa : Nat) (bs : List Byte) (s : State) : (storeBytes pa bs s).pc = s.pc := by
  induction bs generalizing pa s with
  | nil => rfl
  | cons b bs ih => simp [storeBytes, ih]
@[simp] theorem storeBytes_x (pa : Nat) (bs : List Byte) (s : State) : (storeBytes pa bs s).x = s.x := by
  induction bs generalizing pa s with
  | nil => rfl
  | cons b bs ih => simp [storeBytes, ih]
@[simp] theorem storeBytes_sstatus (pa : Nat) (bs : List Byte) (s : State) : (storeBytes pa bs s).sstatus = s.sstatus := by
  induction bs generalizing pa s with
  | nil => rfl
  | cons b bs ih => simp [storeBytes, ih]
@[simp] theorem storeBytes_stvec (pa : Nat) (bs : List Byte) (s : State) : (storeBytes pa bs s).stvec = s.stvec := by
  induction bs generalizing pa s with
  | nil => rfl
  | cons b bs ih => simp [storeBytes, ih]
@[simp] theorem storeBytes_sie (pa : Nat) (bs : List Byte) (s : State) : (storeBytes pa bs s).sie = s.sie := by
  induction bs generalizing pa s with
  | nil => rfl
  | cons b bs ih => simp [storeBytes, ih]
@[simp] theorem storeBytes_sip (pa : Nat) (bs : List Byte) (s : State) : (storeBytes pa bs s).sip = s.sip := by
  induction bs generalizing pa s with
  | nil => rfl
  | cons b bs ih => simp [storeBytes, ih]
@[simp] theorem storeBytes_scounteren (pa : Nat) (bs : List Byte) (s : State) : (storeBytes pa bs s).scounteren = s.scounteren := by
  induction bs generalizing pa s with
  | nil => rfl
  | cons b bs ih => simp [storeBytes, ih]
@[simp] theorem storeBytes_sscratch (pa : Nat) (bs : List Byte) (s : State) : (storeBytes pa bs s).sscratch = s.sscratch := by
  induction bs generalizing pa s with
  | nil => rfl
  | cons b bs ih => simp [storeBytes, ih]
@[simp] theorem storeBytes_sepc (pa : Nat) (bs : List Byte) (s : State) : (storeBytes pa bs s).sepc = s.sepc := by
  induction bs generalizing pa s with
  | nil => rfl
  | cons b bs ih => simp [storeBytes, ih]
@[simp] theorem storeBytes_scause (pa : Nat) (bs : List Byte) (s : State) : (storeBytes pa bs s).scause = s.scause := by
  induction bs generalizing pa s with
  | nil => rfl
  | cons b bs ih => simp [storeBytes, ih]
@[simp] theorem storeBytes_stval (pa : Nat) (bs : List Byte) (s : State) : (storeBytes pa bs s).stval = s.stval := by
  induction bs generalizing pa s with
  | nil => rfl
  | cons b bs ih => simp [storeBytes, ih]
@[simp] theorem storeBytes_satp (pa : Nat) (bs : List Byte) (s : State) : (storeBytes pa bs s).satp = s.satp := by
  induction bs generalizing pa s with
  | nil => rfl
  | cons b bs ih => simp [storeBytes, ih]
@[simp] theorem storeBytes_counters (pa : Nat) (bs : List Byte) (s : State) : (storeBytes pa bs s).counters = s.counters := by
  induction bs generalizing pa s with
  | nil => rfl
  | cons b bs ih => simp [storeBytes, ih]
@[simp] theorem storeBytes_tc (pa : Nat) (bs : List Byte) (s : State) : (storeBytes pa bs s).tc = s.tc := by
  induction bs generalizing pa s with
  | nil => rfl
  | cons b bs ih => simp [storeBytes, ih]
@[simp] theorem storeBytes_turns (pa : Nat) (bs : List Byte) (s : State) : (storeBytes pa bs s).turns = s.turns := by
  induction bs generalizing pa s with
  | nil => rfl
  | cons b bs ih => simp [storeBytes, ih]
@[simp] theorem storeBytes_reservedPte (pa : Nat) (bs : List Byte) (s : State) : (storeBytes pa bs s).reservedPte = s.reservedPte := by
  induction bs generalizing pa s with
  | nil => rfl
  | cons b bs ih => simp [storeBytes, ih]
@[simp] theorem storeBytes_timer (pa : Nat) (bs : List Byte) (s : State) : (storeBytes pa bs s).timer = s.timer := by
  induction bs generalizing pa s with
  | nil => rfl
  | cons b bs ih => simp [storeBytes, ih]
@[simp] theorem storeBytes_lastCall (pa : Nat) (bs : List Byte) (s : State) : (storeBytes pa bs s).lastCall = s.lastCall := by
  induction bs generalizing pa s with
  | nil => rfl
  | cons b bs ih => simp [storeBytes, ih]
@[simp] theorem storeBytes_draws (pa : Nat) (bs : List Byte) (s : State) : (storeBytes pa bs s).draws = s.draws := by
  induction bs generalizing pa s with
  | nil => rfl
  | cons b bs ih => simp [storeBytes, ih]

/-! ## physWrite -/

@[simp] theorem physWrite_cfg (pa n : Nat) (v : Word) (s : State) : (physWrite pa n v s).cfg = s.cfg := by simp [physWrite]
@[simp] theorem physWrite_priv (pa n : Nat) (v : Word) (s : State) : (physWrite pa n v s).priv = s.priv := by simp [physWrite]
@[simp] theorem physWrite_pc (pa n : Nat) (v : Word) (s : State) : (physWrite pa n v s).pc = s.pc := by simp [physWrite]
@[simp] theorem physWrite_x (pa n : Nat) (v : Word) (s : State) : (physWrite pa n v s).x = s.x := by simp [physWrite]
@[simp] theorem physWrite_sstatus (pa n : Nat) (v : Word) (s : State) : (physWrite pa n v s).sstatus = s.sstatus := by simp [physWrite]
@[simp] theorem physWrite_stvec (pa n : Nat) (v : Word) (s : State) : (physWrite pa n v s).stvec = s.stvec := by simp [physWrite]
@[simp] theorem physWrite_sie (pa n : Nat) (v : Word) (s : State) : (physWrite pa n v s).sie = s.sie := by simp [physWrite]
@[simp] theorem physWrite_sip (pa n : Nat) (v : Word) (s : State) : (physWrite pa n v s).sip = s.sip := by simp [physWrite]
@[simp] theorem physWrite_scounteren (pa n : Nat) (v : Word) (s : State) : (physWrite pa n v s).scounteren = s.scounteren := by simp [physWrite]
@[simp] theorem physWrite_sscratch (pa n : Nat) (v : Word) (s : State) : (physWrite pa n v s).sscratch = s.sscratch := by simp [physWrite]
@[simp] theorem physWrite_sepc (pa n : Nat) (v : Word) (s : State) : (physWrite pa n v s).sepc = s.sepc := by simp [physWrite]
@[simp] theorem physWrite_scause (pa n : Nat) (v : Word) (s : State) : (physWrite pa n v s).scause = s.scause := by simp [physWrite]
@[simp] theorem physWrite_stval (pa n : Nat) (v : Word) (s : State) : (physWrite pa n v s).stval = s.stval := by simp [physWrite]
@[simp] theorem physWrite_satp (pa n : Nat) (v : Word) (s : State) : (physWrite pa n v s).satp = s.satp := by simp [physWrite]
@[simp] theorem physWrite_counters (pa n : Nat) (v : Word) (s : State) : (physWrite pa n v s).counters = s.counters := by simp [physWrite]
@[simp] theorem physWrite_tc (pa n : Nat) (v : Word) (s : State) : (physWrite pa n v s).tc = s.tc := by simp [physWrite]
@[simp] theorem physWrite_turns (pa n : Nat) (v : Word) (s : State) : (physWrite pa n v s).turns = s.turns := by simp [physWrite]
@[simp] theorem physWrite_reservedPte (pa n : Nat) (v : Word) (s : State) : (physWrite pa n v s).reservedPte = s.reservedPte := by simp [physWrite]
@[simp] theorem physWrite_timer (pa n : Nat) (v : Word) (s : State) : (physWrite pa n v s).timer = s.timer := by simp [physWrite]
@[simp] theorem physWrite_lastCall (pa n : Nat) (v : Word) (s : State) : (physWrite pa n v s).lastCall = s.lastCall := by simp [physWrite]
@[simp] theorem physWrite_draws (pa n : Nat) (v : Word) (s : State) : (physWrite pa n v s).draws = s.draws := by simp [physWrite]

/-! ## commitUpdate -/

@[simp] theorem commitUpdate_cfg (u : Option PteUpdate) (s : State) : (commitUpdate u s).cfg = s.cfg := by cases u <;> simp [commitUpdate]
@[simp] theorem commitUpdate_priv (u : Option PteUpdate) (s : State) : (commitUpdate u s).priv = s.priv := by cases u <;> simp [commitUpdate]
@[simp] theorem commitUpdate_pc (u : Option PteUpdate) (s : State) : (commitUpdate u s).pc = s.pc := by cases u <;> simp [commitUpdate]
@[simp] theorem commitUpdate_x (u : Option PteUpdate) (s : State) : (commitUpdate u s).x = s.x := by cases u <;> simp [commitUpdate]
@[simp] theorem commitUpdate_sstatus (u : Option PteUpdate) (s : State) : (commitUpdate u s).sstatus = s.sstatus := by cases u <;> simp [commitUpdate]
@[simp] theorem commitUpdate_stvec (u : Option PteUpdate) (s : State) : (commitUpdate u s).stvec = s.stvec := by cases u <;> simp [commitUpdate]
@[simp] theorem commitUpdate_sie (u : Option PteUpdate) (s : State) : (commitUpdate u s).sie = s.sie := by cases u <;> simp [commitUpdate]
@[simp] theorem commitUpdate_sip (u : Option PteUpdate) (s : State) : (commitUpdate u s).sip = s.sip := by cases u <;> simp [commitUpdate]
@[simp] theorem commitUpdate_scounteren (u : Option PteUpdate) (s : State) : (commitUpdate u s).scounteren = s.scounteren := by cases u <;> simp [commitUpdate]
@[simp] theorem commitUpdate_sscratch (u : Option PteUpdate) (s : State) : (commitUpdate u s).sscratch = s.sscratch := by cases u <;> simp [commitUpdate]
@[simp] theorem commitUpdate_sepc (u : Option PteUpdate) (s : State) : (commitUpdate u s).sepc = s.sepc := by cases u <;> simp [commitUpdate]
@[simp] theorem commitUpdate_scause (u : Option PteUpdate) (s : State) : (commitUpdate u s).scause = s.scause := by cases u <;> simp [commitUpdate]
@[simp] theorem commitUpdate_stval (u : Option PteUpdate) (s : State) : (commitUpdate u s).stval = s.stval := by cases u <;> simp [commitUpdate]
@[simp] theorem commitUpdate_satp (u : Option PteUpdate) (s : State) : (commitUpdate u s).satp = s.satp := by cases u <;> simp [commitUpdate]
@[simp] theorem commitUpdate_counters (u : Option PteUpdate) (s : State) : (commitUpdate u s).counters = s.counters := by cases u <;> simp [commitUpdate]
@[simp] theorem commitUpdate_tc (u : Option PteUpdate) (s : State) : (commitUpdate u s).tc = s.tc := by cases u <;> simp [commitUpdate]
@[simp] theorem commitUpdate_turns (u : Option PteUpdate) (s : State) : (commitUpdate u s).turns = s.turns := by cases u <;> simp [commitUpdate]
@[simp] theorem commitUpdate_reservedPte (u : Option PteUpdate) (s : State) : (commitUpdate u s).reservedPte = s.reservedPte := by cases u <;> simp [commitUpdate]
@[simp] theorem commitUpdate_timer (u : Option PteUpdate) (s : State) : (commitUpdate u s).timer = s.timer := by cases u <;> simp [commitUpdate]
@[simp] theorem commitUpdate_lastCall (u : Option PteUpdate) (s : State) : (commitUpdate u s).lastCall = s.lastCall := by cases u <;> simp [commitUpdate]
@[simp] theorem commitUpdate_draws (u : Option PteUpdate) (s : State) : (commitUpdate u s).draws = s.draws := by cases u <;> simp [commitUpdate]

/-! ## fenceTc -/

@[simp] theorem fenceTc_cfg (v : Option Word) (a : Option (BitVec 16)) (s : State) : (fenceTc v a s).cfg = s.cfg := rfl
@[simp] theorem fenceTc_priv (v : Option Word) (a : Option (BitVec 16)) (s : State) : (fenceTc v a s).priv = s.priv := rfl
@[simp] theorem fenceTc_pc (v : Option Word) (a : Option (BitVec 16)) (s : State) : (fenceTc v a s).pc = s.pc := rfl
@[simp] theorem fenceTc_x (v : Option Word) (a : Option (BitVec 16)) (s : State) : (fenceTc v a s).x = s.x := rfl
@[simp] theorem fenceTc_sstatus (v : Option Word) (a : Option (BitVec 16)) (s : State) : (fenceTc v a s).sstatus = s.sstatus := rfl
@[simp] theorem fenceTc_stvec (v : Option Word) (a : Option (BitVec 16)) (s : State) : (fenceTc v a s).stvec = s.stvec := rfl
@[simp] theorem fenceTc_sie (v : Option Word) (a : Option (BitVec 16)) (s : State) : (fenceTc v a s).sie = s.sie := rfl
@[simp] theorem fenceTc_sip (v : Option Word) (a : Option (BitVec 16)) (s : State) : (fenceTc v a s).sip = s.sip := rfl
@[simp] theorem fenceTc_scounteren (v : Option Word) (a : Option (BitVec 16)) (s : State) : (fenceTc v a s).scounteren = s.scounteren := rfl
@[simp] theorem fenceTc_sscratch (v : Option Word) (a : Option (BitVec 16)) (s : State) : (fenceTc v a s).sscratch = s.sscratch := rfl
@[simp] theorem fenceTc_sepc (v : Option Word) (a : Option (BitVec 16)) (s : State) : (fenceTc v a s).sepc = s.sepc := rfl
@[simp] theorem fenceTc_scause (v : Option Word) (a : Option (BitVec 16)) (s : State) : (fenceTc v a s).scause = s.scause := rfl
@[simp] theorem fenceTc_stval (v : Option Word) (a : Option (BitVec 16)) (s : State) : (fenceTc v a s).stval = s.stval := rfl
@[simp] theorem fenceTc_satp (v : Option Word) (a : Option (BitVec 16)) (s : State) : (fenceTc v a s).satp = s.satp := rfl
@[simp] theorem fenceTc_counters (v : Option Word) (a : Option (BitVec 16)) (s : State) : (fenceTc v a s).counters = s.counters := rfl
@[simp] theorem fenceTc_mem (v : Option Word) (a : Option (BitVec 16)) (s : State) : (fenceTc v a s).mem = s.mem := rfl
@[simp] theorem fenceTc_oldBytes (v : Option Word) (a : Option (BitVec 16)) (s : State) : (fenceTc v a s).oldBytes = s.oldBytes := rfl
@[simp] theorem fenceTc_turns (v : Option Word) (a : Option (BitVec 16)) (s : State) : (fenceTc v a s).turns = s.turns := rfl
@[simp] theorem fenceTc_reservedPte (v : Option Word) (a : Option (BitVec 16)) (s : State) : (fenceTc v a s).reservedPte = s.reservedPte := rfl
@[simp] theorem fenceTc_timer (v : Option Word) (a : Option (BitVec 16)) (s : State) : (fenceTc v a s).timer = s.timer := rfl
@[simp] theorem fenceTc_lastCall (v : Option Word) (a : Option (BitVec 16)) (s : State) : (fenceTc v a s).lastCall = s.lastCall := rfl
@[simp] theorem fenceTc_draws (v : Option Word) (a : Option (BitVec 16)) (s : State) : (fenceTc v a s).draws = s.draws + 1 := rfl

/-! ## tcInsert -/

@[simp] theorem tcInsert_cfg (e : TcEntry) (s : State) : (tcInsert e s).cfg = s.cfg := by unfold tcInsert; split <;> rfl
@[simp] theorem tcInsert_priv (e : TcEntry) (s : State) : (tcInsert e s).priv = s.priv := by unfold tcInsert; split <;> rfl
@[simp] theorem tcInsert_pc (e : TcEntry) (s : State) : (tcInsert e s).pc = s.pc := by unfold tcInsert; split <;> rfl
@[simp] theorem tcInsert_x (e : TcEntry) (s : State) : (tcInsert e s).x = s.x := by unfold tcInsert; split <;> rfl
@[simp] theorem tcInsert_sstatus (e : TcEntry) (s : State) : (tcInsert e s).sstatus = s.sstatus := by unfold tcInsert; split <;> rfl
@[simp] theorem tcInsert_stvec (e : TcEntry) (s : State) : (tcInsert e s).stvec = s.stvec := by unfold tcInsert; split <;> rfl
@[simp] theorem tcInsert_sie (e : TcEntry) (s : State) : (tcInsert e s).sie = s.sie := by unfold tcInsert; split <;> rfl
@[simp] theorem tcInsert_sip (e : TcEntry) (s : State) : (tcInsert e s).sip = s.sip := by unfold tcInsert; split <;> rfl
@[simp] theorem tcInsert_scounteren (e : TcEntry) (s : State) : (tcInsert e s).scounteren = s.scounteren := by unfold tcInsert; split <;> rfl
@[simp] theorem tcInsert_sscratch (e : TcEntry) (s : State) : (tcInsert e s).sscratch = s.sscratch := by unfold tcInsert; split <;> rfl
@[simp] theorem tcInsert_sepc (e : TcEntry) (s : State) : (tcInsert e s).sepc = s.sepc := by unfold tcInsert; split <;> rfl
@[simp] theorem tcInsert_scause (e : TcEntry) (s : State) : (tcInsert e s).scause = s.scause := by unfold tcInsert; split <;> rfl
@[simp] theorem tcInsert_stval (e : TcEntry) (s : State) : (tcInsert e s).stval = s.stval := by unfold tcInsert; split <;> rfl
@[simp] theorem tcInsert_satp (e : TcEntry) (s : State) : (tcInsert e s).satp = s.satp := by unfold tcInsert; split <;> rfl
@[simp] theorem tcInsert_counters (e : TcEntry) (s : State) : (tcInsert e s).counters = s.counters := by unfold tcInsert; split <;> rfl
@[simp] theorem tcInsert_mem (e : TcEntry) (s : State) : (tcInsert e s).mem = s.mem := by unfold tcInsert; split <;> rfl
@[simp] theorem tcInsert_oldBytes (e : TcEntry) (s : State) : (tcInsert e s).oldBytes = s.oldBytes := by unfold tcInsert; split <;> rfl
@[simp] theorem tcInsert_turns (e : TcEntry) (s : State) : (tcInsert e s).turns = s.turns := by unfold tcInsert; split <;> rfl
@[simp] theorem tcInsert_reservedPte (e : TcEntry) (s : State) : (tcInsert e s).reservedPte = s.reservedPte := by unfold tcInsert; split <;> rfl
@[simp] theorem tcInsert_timer (e : TcEntry) (s : State) : (tcInsert e s).timer = s.timer := by unfold tcInsert; split <;> rfl
@[simp] theorem tcInsert_lastCall (e : TcEntry) (s : State) : (tcInsert e s).lastCall = s.lastCall := by unfold tcInsert; split <;> rfl
@[simp] theorem tcInsert_draws (e : TcEntry) (s : State) : (tcInsert e s).draws = s.draws := by unfold tcInsert; split <;> rfl

end Sys2Proof.Machine
end

