-- ==== Sys2Proof/Laws/Memory.lean ====
section
/-! SUPPORT. The laws of physical memory: what a write leaves and changes, and that every operation keeps the
canonical form. -/

namespace Sys2Proof.Machine

theorem Memory.read_write_other (m : Memory) {k a : Nat} (v : Byte) (h : a ≠ k) :
    (m.write k v).read a = m.read a := by
  induction m with
  | nil => unfold Memory.write; split <;> simp [Memory.read, h.symm]
  | cons c m ih =>
    obtain ⟨b, w⟩ := c
    unfold Memory.write
    split
    · split <;> simp [Memory.read, h.symm]
    · split
      · subst_vars; split <;> simp [Memory.read, h.symm]
      · simp [Memory.read, ih]

/-- Below the first address of a canonical memory nothing is listed. -/
theorem Memory.read_of_wfFrom {m : Memory} {lo k : Nat} (h : Memory.wfFrom lo m = true) (hk : k < lo) :
    m.read k = Memory.unlisted := by
  induction m generalizing lo with
  | nil => rfl
  | cons c m ih =>
    obtain ⟨b, w⟩ := c
    simp [Memory.wfFrom] at h
    have : b ≠ k := by omega
    simp [Memory.read, this, ih h.2 (by omega)]

theorem Memory.read_write_same_from {m : Memory} {lo : Nat} (h : Memory.wfFrom lo m = true) (k : Nat) (v : Byte) :
    (m.write k v).read k = v := by
  induction m generalizing lo with
  | nil => unfold Memory.write; split <;> simp_all [Memory.read]
  | cons c m ih =>
    obtain ⟨b, w⟩ := c
    simp [Memory.wfFrom] at h
    unfold Memory.write
    split
    · rename_i hlt
      have hb : b ≠ k := by omega
      split
      · simp_all [Memory.read, Memory.read_of_wfFrom h.2 (show k < b + 1 by omega)]
      · simp [Memory.read]
    · split
      · subst_vars
        split
        · subst_vars; exact Memory.read_of_wfFrom h.2 (by omega)
        · simp [Memory.read]
      · rename_i h1 h2
        simp [Memory.read, Ne.symm h2, ih h.2]

theorem Memory.wfFrom_mono {m : Memory} {lo lo' : Nat} (h : Memory.wfFrom lo m = true) (hle : lo' ≤ lo) :
    Memory.wfFrom lo' m = true := by
  cases m with
  | nil => rfl
  | cons c m =>
    obtain ⟨b, w⟩ := c
    simp [Memory.wfFrom] at h ⊢
    exact ⟨⟨by omega, h.1.2⟩, h.2⟩

theorem Memory.wfFrom_write {m : Memory} {lo k : Nat} (v : Byte) (h : Memory.wfFrom lo m = true) (hk : lo ≤ k) :
    Memory.wfFrom lo (m.write k v) = true := by
  induction m generalizing lo with
  | nil => unfold Memory.write; split <;> simp_all [Memory.wfFrom]
  | cons c m ih =>
    obtain ⟨b, w⟩ := c
    simp [Memory.wfFrom] at h
    obtain ⟨⟨hb, hw⟩, hm⟩ := h
    unfold Memory.write
    split
    · rename_i hlt
      split
      · simp [Memory.wfFrom, hb, hw, hm]
      · rename_i hv
        simp [Memory.wfFrom, hk, hv, hw, hm]; omega
    · split
      · subst_vars
        split
        · exact Memory.wfFrom_mono hm (by omega)
        · rename_i hv; simp [Memory.wfFrom, hb, hv, hm]
      · simp [Memory.wfFrom, hb, hw, ih hm (by omega)]

/-- A write keeps the canonical form. -/
theorem Memory.wf_write {m : Memory} (k : Nat) (v : Byte) (h : m.wf = true) : (m.write k v).wf = true :=
  Memory.wfFrom_write v h (Nat.zero_le k)

/-- Storing bytes keeps the canonical form. -/
theorem storeBytes_wf (pa : Nat) (bs : List Byte) (s : State) (h : s.mem.wf = true) :
    (storeBytes pa bs s).mem.wf = true := by
  induction bs generalizing pa s with
  | nil => exact h
  | cons b bs ih => exact ih (pa + 1) _ (Memory.wf_write pa b h)

/-- Storing bytes leaves every byte outside them as it was. -/
theorem storeBytes_read_outside (pa : Nat) (bs : List Byte) (s : State) {a : Nat}
    (h : a < pa ∨ pa + bs.length ≤ a) : (storeBytes pa bs s).mem.read a = s.mem.read a := by
  induction bs generalizing pa s with
  | nil => rfl
  | cons b bs ih =>
    simp only [List.length_cons] at h
    rw [storeBytes, ih (pa + 1) _ (by omega), storeByte_mem, Memory.read_write_other _ _ (by omega)]

@[simp] theorem length_leBytes (v : Word) (n : Nat) : (leBytes v n).length = n := by
  induction n generalizing v with
  | zero => rfl
  | succ n ih => simp [leBytes, ih]

theorem physWrite_wf (pa n : Nat) (v : Word) (s : State) (h : s.mem.wf = true) :
    (physWrite pa n v s).mem.wf = true :=
  storeBytes_wf pa _ s h

theorem physWrite_read_outside (pa n : Nat) (v : Word) (s : State) {a : Nat} (h : a < pa ∨ pa + n ≤ a) :
    (physWrite pa n v s).mem.read a = s.mem.read a :=
  storeBytes_read_outside pa _ s (by simpa using h)

theorem commitUpdate_wf (u : Option PteUpdate) (s : State) (h : s.mem.wf = true) :
    (commitUpdate u s).mem.wf = true := by
  cases u with
  | none => exact h
  | some u => exact physWrite_wf _ _ _ _ h

/-- A fetched byte changes nothing but the number of the next draw. -/
theorem fetchByte_state (pa : Nat) (s : State) :
    (fetchByte pa s).2 = s ∨ (fetchByte pa s).2 = drawn s := by
  unfold fetchByte
  split
  · exact .inl rfl
  · exact .inr rfl

/-- Where no overwritten byte is kept for an address, a fetch reads memory. -/
theorem fetchByte_of_fresh {pa : Nat} {s : State} (h : ∀ c ∈ s.oldBytes, c.1 ≠ pa) :
    fetchByte pa s = (s.mem.read pa, s) := by
  have : s.oldBytes.filter (fun c => c.1 == pa) = [] := by
    simp only [List.filter_eq_nil_iff]; intro c hc; simp [h c hc]
  simp [fetchByte, this]

end Sys2Proof.Machine
end

