-- ==== Sys2Proof/Laws/Registers.lean ====
section
/-! SUPPORT. The laws of SXLEN-bit values and of the integer registers. -/

namespace Sys2Proof.Machine

@[simp] theorem truncX_zero (xl : Xlen) : truncX xl 0 = 0 := by
  cases xl <;> rfl

@[simp] theorem truncX_truncX (xl : Xlen) (v : Word) : truncX xl (truncX xl v) = truncX xl v := by
  cases xl <;> simp [truncX, BitVec.and_assoc]

/-- The trap value of a 32-bit instruction is the whole word, or 0: no `N` of 10_state.md R70 cuts it short. -/
@[simp] theorem illegalTval_eq (c : Config) (w : BitVec 32) : illegalTval c w = illegalValue c w := by
  have hb : 2 ^ 32 ≤ 2 ^ stvalInsnBits c :=
    Nat.pow_le_pow_right (by decide) (Nat.le_min.2 ⟨by cases c.sxlen <;> decide, Nat.le_max_left 32 c.ilenMax⟩)
  unfold illegalTval insnTval illegalValue
  rw [Nat.mod_eq_of_lt (Nat.lt_of_lt_of_le w.isLt hb), BitVec.ofNat_toNat]

theorem fitsX_truncX (xl : Xlen) (v : Word) : fitsX xl (truncX xl v) :=
  truncX_truncX xl v

@[simp] theorem getX_zero (s : State) : getX 0 s = 0 := by
  simp [getX]

theorem getX_congr {s t : State} (h : t.x = s.x) (r : Reg) : getX r t = getX r s := by
  simp [getX, h]

theorem setX_zero (v : Word) (s : State) : setX 0 v s = s := by
  simp [setX]

theorem getX_setX_same {r : Reg} (h : r ≠ 0) (v : Word) (s : State) :
    getX r (setX r v s) = truncX s.cfg.sxlen v := by
  unfold getX setX
  rw [if_neg h, if_neg h]
  simp

theorem getX_setX_other {r q : Reg} (h : q ≠ r) (v : Word) (s : State) : getX q (setX r v s) = getX q s := by
  have hn : r.toNat ≠ q.toNat := fun e => h (BitVec.eq_of_toNat_eq e.symm)
  unfold setX
  split
  · rfl
  · simp [getX, hn]

theorem setX_slot0 (r : Reg) (v : Word) (s : State) : (setX r v s).x[0] = s.x[0] := by
  unfold setX
  split
  · rfl
  · rename_i h
    have : r.toNat ≠ 0 := fun e => h (BitVec.eq_of_toNat_eq (by simpa using e))
    simp [this]

/-- Writing a register keeps the registers legal. -/
theorem setX_legal (r : Reg) (v : Word) {s : State} (h : RegistersLegal s) : RegistersLegal (setX r v s) := by
  refine ⟨(setX_slot0 r v s).trans h.1, fun q => ?_⟩
  by_cases hr : r = 0
  · subst hr; rw [setX_zero]; exact h.2 q
  · by_cases hq : q = r
    · subst hq; rw [getX_setX_same hr]; simpa using fitsX_truncX _ _
    · rw [getX_setX_other hq]; simpa using h.2 q

theorem RegistersLegal.congr {s t : State} (h : RegistersLegal s) (hx : t.x = s.x) (hc : t.cfg = s.cfg) :
    RegistersLegal t := by
  refine ⟨by rw [hx]; exact h.1, fun r => ?_⟩
  rw [getX_congr hx, hc]; exact h.2 r

end Sys2Proof.Machine
end

