-- ==== Sys2Proof/Laws/Access.lean ====
section
/-! SUPPORT. What the operations of translation and access can answer, each said once: the states they end in,
the exceptions they raise, and what is known of a success. -/

namespace Sys2Proof.Machine

theorem NotesOnly.refl (s : State) : NotesOnly s s := rfl

theorem NotesOnly.drawn (s : State) : NotesOnly s (drawn s) := rfl

theorem NotesOnly.notePte (pte : Word) (s : State) : NotesOnly s (notePte pte s) := rfl

theorem NotesOnly.trans {s t u : State} (h : NotesOnly s t) (h' : NotesOnly t u) : NotesOnly s u := by
  unfold NotesOnly at *; rw [h', h]

theorem NotesOnly.of_or {s t : State} (h : t = s ∨ t = Machine.drawn s) : NotesOnly s t := by
  rcases h with rfl | rfl <;> rfl

theorem NotesOnly.physRead {s t : State} (h : NotesOnly s t) (pa n : Nat) :
    Machine.physRead pa n t = Machine.physRead pa n s := by
  unfold NotesOnly at h; rw [h]; rfl

/-- A walk may use the same PTEs after draws and notes. -/
theorem NotesOnly.pteFrom {s t : State} (h : NotesOnly s t) {m : SatpMode} {va : Word} {i a : Nat} {pte : Word}
    {source : Nat} (hp : PteFrom m va t i a pte source) : PteFrom m va s i a pte source := by
  unfold NotesOnly at h; rw [h] at hp; exact hp

theorem NotesOnly.pteVisible {s t : State} (h : NotesOnly s t) {m : SatpMode} {va : Word} {i a : Nat} {pte : Word}
    (hp : PteVisible m va t i a pte) : PteVisible m va s i a pte := by
  unfold NotesOnly at h; rw [h] at hp; exact hp

/-- The answer is a success that meets `P`, or an exception that meets `Q`; it is no refusal. -/
def Access.Meets {α : Type} (a : Access α) (P : α → State → Prop) (Q : Exc → Word → State → Prop) : Prop :=
  match a with
  | .ok v s => P v s
  | .raise e tval s => Q e tval s
  | .refuse _ => False

theorem Access.Meets.andThen {α β : Type} {a : Access α} {f : α → State → Access β} {P : α → State → Prop}
    {P' : β → State → Prop} {Q : Exc → Word → State → Prop} (h : a.Meets P Q)
    (hf : ∀ v s, P v s → (f v s).Meets P' Q) : (a.andThen f).Meets P' Q := by
  cases a with
  | ok v s => exact hf v s h
  | raise e tval s => exact h
  | refuse r => exact h

theorem Access.Meets.mono {α : Type} {a : Access α} {P P' : α → State → Prop} {Q Q' : Exc → Word → State → Prop}
    (h : a.Meets P Q) (hP : ∀ v s, P v s → P' v s) (hQ : ∀ e tv s, Q e tv s → Q' e tv s) : a.Meets P' Q' := by
  cases a with
  | ok v s => exact hP v s h
  | raise e tval s => exact hQ e tval s h
  | refuse r => exact h

/-- An exception of an access of type `t` at `va`: the page or access fault of that type, with the address as
trap value, raised where only draws and notes have been made (21_address_translation.md R151). -/
def FaultOf (t : AccessType) (va : Word) (s : State) (e : Exc) (tval : Word) (s1 : State) : Prop :=
  (e = pageFaultOf t ∨ e = accessFaultOf t) ∧ tval = va ∧ NotesOnly s s1

theorem FaultOf.page (t : AccessType) (va : Word) {s s1 : State} (h : NotesOnly s s1) :
    FaultOf t va s (pageFaultOf t) va s1 := ⟨.inl rfl, rfl, h⟩

theorem FaultOf.access (t : AccessType) (va : Word) {s s1 : State} (h : NotesOnly s s1) :
    FaultOf t va s (accessFaultOf t) va s1 := ⟨.inr rfl, rfl, h⟩

theorem FaultOf.from {t : AccessType} {va : Word} {s s1 s2 : State} {e : Exc} {tv : Word}
    (h : NotesOnly s s1) (hf : FaultOf t va s1 e tv s2) : FaultOf t va s e tv s2 :=
  ⟨hf.1, hf.2.1, h.trans hf.2.2⟩

theorem choose_mem {α : Type} (k : Nat) (first : α) (others : List α) :
    choose k first others = first ∨ choose k first others ∈ others := by
  unfold choose
  split
  · exact .inl rfl
  · rename_i i h
    have hi : i < others.length := by
      have := Nat.mod_lt k (Nat.succ_pos others.length); simp only [Nat.succ_eq_add_one] at this; omega
    right; simp [List.getD, hi]

/-- Step 2 of a walk uses a PTE visible to it: memory's, or that of a matching entry. -/
theorem readPte_spec (useTc : Bool) (m : SatpMode) (va : Word) (i a : Nat) (s : State) :
    NotesOnly s (readPte useTc m va i (pteAddrAt m va i a) s).2 ∧
      PteFrom m va s i a (readPte useTc m va i (pteAddrAt m va i a) s).1.1
        (readPte useTc m va i (pteAddrAt m va i a) s).1.2 := by
  unfold readPte
  split
  · exact ⟨rfl, .inl ⟨rfl, rfl⟩⟩
  · rename_i e es he
    refine ⟨rfl, ?_⟩
    rcases choose_mem (Config.walkSource s.draws) (physRead (pteAddrAt m va i a) (pteBytes m) s, pteAddrAt m va i a)
      ((e :: es).map fun e => (e.pte, e.pteAddr)) with h | h
    · simp only; rw [h]; exact .inl ⟨rfl, rfl⟩
    · obtain ⟨e', he', heq⟩ := List.mem_map.1 h
      rw [← he, List.mem_filter] at he'
      simp only [tcMatches, Bool.and_eq_true, Bool.or_eq_true, decide_eq_true_eq] at he'
      obtain ⟨hm, -, ⟨⟨h1, h2⟩, h3⟩, h4⟩ := he'
      simp only; rw [← heq]
      refine .inr ⟨e', hm, rfl, rfl, h1, h2, ?_⟩
      rcases h3 with h3 | h3
      · exact .inl h3
      · rcases h4 with (h4 | h4) | h4
        exacts [.inr ⟨h3, .inl h4⟩, .inl h4, .inr ⟨h3, .inr h4⟩]

/-- Without the cache step 2 reads memory and draws nothing. -/
theorem readPte_memory (m : SatpMode) (va : Word) (i pteAddr : Nat) (s : State) :
    readPte false m va i pteAddr s = ((physRead pteAddr (pteBytes m) s, pteAddr), s) := by
  simp [readPte]

/-- With an empty cache, step 2 reads memory and draws nothing. -/
theorem readPte_uncached (useTc : Bool) (m : SatpMode) (va : Word) (i pteAddr : Nat) {s : State} (h : s.tc = []) :
    readPte useTc m va i pteAddr s = ((physRead pteAddr (pteBytes m) s, pteAddr), s) := by
  simp [readPte, h]

/-- What is known of a PTE that steps 2 and 3 let pass at level `i` of a table the walk reaches. -/
def Finds (m : SatpMode) (va : Word) (s : State) (f : FoundPte) : Prop :=
  pteValid f.pte = true ∧ ∃ a g, Reaches m va s f.level a g ∧ f.pteAddr = pteAddrAt m va f.level a ∧
    physCheck s.cfg f.pteAddr (pteBytes m) .load .supervisor = true ∧ PteFrom m va s f.level a f.pte f.source

/-- A valid PTE that is no leaf is a pointer (21_address_translation.md R150 step 4). -/
theorem pointer_bits {pte : Word} (hv : pteValid pte = true) (hl : pteLeaf pte = false) :
    pte.extractLsb' 0 4 = 0b0001#4 := by
  simp only [pteValid, pteLeaf, pteV, pteR, pteW, pteX, Bool.and_eq_true, Bool.or_eq_true, Bool.or_eq_false_iff,
    Bool.not_eq_true'] at hv hl
  obtain ⟨h0, h1⟩ := hv
  obtain ⟨h2, h3⟩ := hl
  have h4 : pte.getLsbD 2 = false := by rcases h1 with h1 | h1 <;> simp_all
  ext k hk
  rw [BitVec.getElem_extractLsb', Nat.zero_add]
  obtain rfl | rfl | rfl | rfl : k = 0 ∨ k = 1 ∨ k = 2 ∨ k = 3 := by omega
  exacts [h0.trans (by simp), h2.trans (by simp), h4.trans (by simp), h3.trans (by simp)]

/-- The pointer bits are those of a valid PTE that is no leaf. -/
theorem pointer_pte {pte : Word} (h : pte.extractLsb' 0 4 = 0b0001#4) :
    pteValid pte = true ∧ pteLeaf pte = false := by
  have hb : ∀ k, k < 4 → pte.getLsbD k = (0b0001#4).getLsbD k := fun k hk => by
    rw [← h, BitVec.getLsbD_extractLsb', Nat.zero_add]; simp [hk]
  unfold pteValid pteLeaf pteV pteR pteW pteX
  rw [hb 0 (by omega), hb 1 (by omega), hb 2 (by omega), hb 3 (by omega)]
  decide

/-- A pointer that steps 2 and 3 let pass leads the walk to its table. -/
theorem Finds.reaches {m : SatpMode} {va : Word} {s : State} {f : FoundPte} {i : Nat} (h : Finds m va s f)
    (hi : f.level = i + 1) (hl : pteLeaf f.pte = false) : ∃ g, Reaches m va s i (ptePpn m f.pte * 4096) g := by
  obtain ⟨hv, a, g, hr, ha, hc, hp⟩ := h
  rw [hi] at hr ha hp
  rw [ha] at hc
  exact ⟨_, .pointer hr hc ⟨_, hp⟩ (pointer_bits hv hl)⟩

/-- What steps 2 and 3 can answer, of a table the walk reaches in `s0`. -/
theorem readLevel_meets (useTc : Bool) {m : SatpMode} (t : AccessType) {va : Word} {i a : Nat} {s0 s : State}
    (hs0 : NotesOnly s0 s) (hr : ∃ g, Reaches m va s0 i a g) :
    (readLevel useTc m t va i a s).Meets (fun f s1 => NotesOnly s0 s1 ∧ f.level = i ∧ Finds m va s0 f)
      (FaultOf t va s0) := by
  obtain ⟨gp, hr⟩ := hr
  have hs := readPte_spec useTc m va i a s
  have hc : s.cfg = s0.cfg := by unfold NotesOnly at hs0; rw [hs0]
  unfold pteAddrAt at hs
  unfold readLevel
  split
  · rename_i hck
    split
    rename_i pte source s1 heq
    rw [heq] at hs
    have hs1 := hs0.trans hs.1
    split
    · exact ⟨hs1.trans (.notePte pte s1), rfl, ‹_›, a, gp, hr, rfl, hc ▸ hck, hs0.pteFrom hs.2⟩
    · exact .page t va hs1
  · exact .access t va hs0

/-- What a walk can answer, from a table it reaches in `s0` on: a leaf it finds. -/
theorem walk_meets (useTc : Bool) {m : SatpMode} (t : AccessType) {va : Word} {i a : Nat} {s0 s : State}
    (hs0 : NotesOnly s0 s) (hr : ∃ g, Reaches m va s0 i a g) :
    (walk useTc m t va i a s).Meets
      (fun f s1 => NotesOnly s0 s1 ∧ f.level ≤ i ∧ pteLeaf f.pte = true ∧ Finds m va s0 f) (FaultOf t va s0) := by
  induction i generalizing a s with
  | zero =>
    unfold walk
    refine (readLevel_meets useTc t hs0 hr).andThen fun f s1 h => ?_
    split
    · exact ⟨h.1, by omega, ‹_›, h.2.2⟩
    · exact .page t va h.1
  | succ i ih =>
    unfold walk
    refine (readLevel_meets useTc t hs0 hr).andThen fun f s1 h => ?_
    split
    · exact ⟨h.1, by omega, ‹_›, h.2.2⟩
    · rename_i hl
      exact (ih h.1 (h.2.2.reaches h.2.1 (by simpa using hl))).mono
        (fun _ _ hw => ⟨hw.1, by omega, hw.2.2⟩) fun _ _ _ hf => hf

/-- With an empty cache, the walk comes down to every table it reaches: it is the walk from there on. -/
theorem walk_uncached (useTc : Bool) {m : SatpMode} (t : AccessType) {va : Word} {s : State} {i a : Nat}
    {g : Bool} (h : s.tc = []) (hr : Reaches m va s i a g) :
    ∃ s1, NotesOnly s s1 ∧
      walk useTc m t va (levels m - 1) (s.satp.ppn.toNat * 4096) s = walk useTc m t va i a s1 := by
  induction hr with
  | root => exact ⟨s, rfl, rfl⟩
  | @pointer i a g pte hr hc hp hb ih =>
    obtain ⟨s1, hs, hw⟩ := ih
    have htc : s1.tc = [] := by unfold NotesOnly at hs; rw [hs]; exact h
    have hcfg : s1.cfg = s.cfg := by unfold NotesOnly at hs; rw [hs]
    have hpte : physRead (pteAddrAt m va (i + 1) a) (pteBytes m) s1 = pte := by
      rw [hs.physRead]
      rcases hp with ⟨_, hp | ⟨e, he, -⟩⟩
      · exact hp.1.symm
      · rw [h] at he; cases he
    obtain ⟨hv, hl⟩ := pointer_pte hb
    refine ⟨notePte pte s1, hs.trans (.notePte pte s1), hw.trans ?_⟩
    unfold pteAddrAt at hpte hc
    simp only [walk, readLevel, hcfg, hc, readPte_uncached _ _ _ _ _ htc, hpte, hv, if_true, Access.andThen, hl,
      Bool.false_eq_true, if_false]

theorem adFaultArm_state (s : State) : NotesOnly s (adFaultArm s).2 := by
  unfold adFaultArm; split <;> rfl

/-- What is known of a translation a leaf gives: the access is permitted, the superpage aligned, the address
that of the leaf, and the update, if any, sets the A and D bits the access needs. -/
def LeafGives (m : SatpMode) (t : AccessType) (va : Word) (f : FoundPte) (s : State) (tr : Translation) : Prop :=
  permitted f.pte t s.priv s.sstatus.sum s.sstatus.mxr = true ∧ superpageMisaligned m f.pte f.level = false ∧
    tr.pa = leafPa m f.pte f.level va ∧
      ((needsAdUpdate f.pte t = false ∧ tr.update = none) ∨
        (needsAdUpdate f.pte t = true ∧ s.cfg.adScheme ≠ .fault ∧
          physCheck s.cfg f.pteAddr (pteBytes m) .store .supervisor = true ∧
          physRead f.pteAddr (pteBytes m) s = f.pte ∧
          tr.update = some { addr := f.pteAddr, size := pteBytes m, new := pteUpdated f.pte t }))

theorem leafSteps_meets (m : SatpMode) (t : AccessType) (va : Word) (f : FoundPte) (s : State) :
    (leafSteps m t va f s).Meets
      (fun r s1 => NotesOnly s s1 ∧ ∀ tr, r = some tr → LeafGives m t va f s tr) (FaultOf t va s) := by
  unfold leafSteps
  split
  · rename_i hp
    split
    · exact .page t va rfl
    · rename_i hm
      split
      · rename_i ha
        have hs := adFaultArm_state s
        split
        · rename_i s1 heq
          rw [heq] at hs; exact .page t va hs
        · rename_i s1 heq
          rw [heq] at hs
          split
          · rename_i hst
            split
            · rename_i hr
              refine ⟨hs, fun tr htr => ?_⟩
              cases htr
              refine ⟨hp, by simpa using hm, rfl, .inr ⟨ha, ?_, ?_, ?_, rfl⟩⟩
              · intro hc; simp [adFaultArm, hc] at heq
              · have hs1 : NotesOnly s s1 := hs
                unfold NotesOnly at hs1
                rw [hs1] at hst; exact hst
              · exact hs.physRead _ _ ▸ hr
            · exact ⟨hs, fun tr htr => by cases htr⟩
          · exact .access t va hs
      · rename_i ha
        refine ⟨rfl, fun tr htr => ?_⟩
        cases htr
        exact ⟨hp, by simpa using hm, rfl, .inl ⟨by simpa using ha, rfl⟩⟩
  · exact .page t va rfl

/-- What is known of the translation a pass gives: it found a leaf, which gives it. -/
def FindsLeaf (m : SatpMode) (t : AccessType) (va : Word) (s : State) (tr : Translation) : Prop :=
  ∃ f, Finds m va s f ∧ pteLeaf f.pte = true ∧ f.level ≤ levels m - 1 ∧ LeafGives m t va f s tr

theorem NotesOnly.reaches {s s1 : State} (h : NotesOnly s s1) {m : SatpMode} {va : Word} {i a : Nat}
    {g : Bool} (hr : Reaches m va s1 i a g) : Reaches m va s i a g := by
  induction hr with
  | root =>
    have hp : s1.satp = s.satp := by unfold NotesOnly at h; rw [h]
    rw [hp]; exact .root
  | pointer _ hc hp hv ih =>
    have hcfg : s1.cfg = s.cfg := by unfold NotesOnly at h; rw [h]
    exact .pointer ih (hcfg ▸ hc) (h.pteVisible hp) hv

theorem FindsLeaf.of_notes {m : SatpMode} {t : AccessType} {va : Word} {s s1 : State} {tr : Translation}
    (hf : FindsLeaf m t va s1 tr) (h : NotesOnly s s1) : FindsLeaf m t va s tr := by
  obtain ⟨f, ⟨hv, a, g, hr, ha, hc, hp⟩, hl, hi, hg⟩ := hf
  have hcfg : s1.cfg = s.cfg := by unfold NotesOnly at h; rw [h]
  refine ⟨f, ⟨hv, a, g, h.reaches hr, ha, hcfg ▸ hc, h.pteFrom hp⟩, hl, hi, ?_⟩
  unfold NotesOnly at h
  rw [h] at hg
  exact hg

/-- A successful pass has found a leaf that gives its translation. -/
theorem attempt_meets (useTc : Bool) (m : SatpMode) (t : AccessType) (va : Word) (s : State) :
    (attempt useTc m t va s).Meets (fun r s1 => NotesOnly s s1 ∧ ∀ tr, r = some tr → FindsLeaf m t va s tr)
      (FaultOf t va s) := by
  unfold attempt
  refine (walk_meets useTc t (.refl s) ⟨false, .root⟩).andThen fun f s1 h => ?_
  refine (leafSteps_meets m t va f s1).mono (fun r s2 hl => ⟨h.1.trans hl.1, fun tr htr => ?_⟩)
    fun _ _ _ hf => FaultOf.from h.1 hf
  have := hl.2 tr htr
  have hs := h.1
  unfold NotesOnly at hs
  rw [hs] at this
  exact ⟨f, h.2.2.2, h.2.2.1, h.2.1, this⟩

/-- A pass that reads memory only asks for no restart. -/
theorem attempt_memory_ne_none {m : SatpMode} {t : AccessType} {va : Word} {s s1 : State} :
    attempt false m t va s ≠ .ok none s1 := by
  have key : ∀ (i a : Nat) (s0 : State),
      (walk false m t va i a s0).Meets (fun f s2 => NotesOnly s0 s2 ∧ physRead f.pteAddr (pteBytes m) s0 = f.pte)
        (fun _ _ _ => True) := by
    have hl : ∀ (i a : Nat) (s0 : State), (readLevel false m t va i a s0).Meets
        (fun f s2 => NotesOnly s0 s2 ∧ physRead f.pteAddr (pteBytes m) s0 = f.pte) (fun _ _ _ => True) := by
      intro i a s0
      unfold readLevel
      split
      · rw [readPte_memory]; simp only
        split
        · exact ⟨rfl, rfl⟩
        · trivial
      · trivial
    intro i
    induction i with
    | zero =>
      intro a s0
      unfold walk
      refine (hl 0 a s0).andThen fun f s2 h => ?_
      split
      · exact h
      · trivial
    | succ i ih =>
      intro a s0
      unfold walk
      refine (hl (i + 1) a s0).andThen fun f s2 h => ?_
      split
      · exact h
      · exact (ih _ s2).mono (fun f s3 h' => ⟨h.1.trans h'.1, (h.1.physRead _ _) ▸ h'.2⟩) fun _ _ _ h => h
  have h : (attempt false m t va s).Meets (fun r _ => r ≠ none) (fun _ _ _ => True) := by
    unfold attempt
    refine (key _ _ s).andThen fun f s2 h => ?_
    unfold leafSteps
    split
    · split
      · trivial
      · split
        · have hs := adFaultArm_state s2
          split
          · trivial
          · rename_i s3 heq
            rw [heq] at hs
            split
            · split
              · simp [Access.Meets]
              · rename_i hne
                have hs' : NotesOnly s2 s3 := hs
                rw [hs'.physRead, h.1.physRead] at hne
                exact absurd h.2 hne
            · trivial
        · simp [Access.Meets]
    · trivial
  intro hn
  rw [hn] at h
  exact h rfl

/-- What is known of a successful translation. -/
def Translates (t : AccessType) (va : Word) (s : State) (tr : Translation) : Prop :=
  (s.satp.mode = .bare ∧ tr.pa = va.toNat ∧ tr.update = none) ∨
    (s.satp.mode ≠ .bare ∧ canonical s.satp.mode va = true ∧ FindsLeaf s.satp.mode t va s tr)

/-- What is known of the translation some passes give. -/
theorem passes_meets (m : SatpMode) (t : AccessType) (va : Word) (n : Nat) (s : State) :
    (passes m t va n s).Meets (fun tr s1 => NotesOnly s s1 ∧ FindsLeaf m t va s tr) (FaultOf t va s) := by
  induction n generalizing s with
  | zero =>
    refine (attempt_meets false m t va s).andThen fun r s1 h => ?_
    cases r with
    | some tr => exact ⟨h.1, h.2 tr rfl⟩
    | none => exact .page t va h.1
  | succ n ih =>
    refine (attempt_meets true m t va s).andThen fun r s1 h => ?_
    cases r with
    | some tr => exact ⟨h.1, h.2 tr rfl⟩
    | none =>
      exact (ih s1).mono (fun tr s2 h2 => ⟨h.1.trans h2.1, h2.2.of_notes h.1⟩) fun _ _ _ hf => FaultOf.from h.1 hf

theorem translatePaged_meets (m : SatpMode) (t : AccessType) (va : Word) (s : State) :
    (translatePaged m t va s).Meets
      (fun tr s1 => NotesOnly s s1 ∧ canonical m va = true ∧ FindsLeaf m t va s tr) (FaultOf t va s) := by
  unfold translatePaged
  split
  · exact (passes_meets m t va _ s).mono (fun tr s1 h => ⟨h.1, ‹_›, h.2⟩) fun _ _ _ hf => hf
  · exact .page t va rfl

/-- What translation can answer. -/
theorem translate_meets (t : AccessType) (va : Word) (s : State) :
    (translate t va s).Meets (fun tr s1 => NotesOnly s s1 ∧ Translates t va s tr) (FaultOf t va s) := by
  unfold translate
  split
  · exact ⟨rfl, .inl ⟨‹_›, rfl, rfl⟩⟩
  all_goals
    rename_i hm
    refine (translatePaged_meets _ t va s).mono (fun tr s1 h => ⟨h.1, .inr ?_⟩) fun _ _ _ hf => hf
    rw [hm]
    exact ⟨by simp, h.2⟩

/-- What an access can answer: it was translated and checked, and only its A/D update has been written; or it
raised a fault of its type and changed nothing. -/
theorem access_meets (t : AccessType) (va : Word) (n : Nat) (s : State) :
    (access t va n s).Meets
      (fun pa s1 => ∃ tr s0, NotesOnly s s0 ∧ Translates t va s tr ∧ pa = tr.pa ∧
        physCheck s.cfg pa n t s.priv = true ∧ s1 = commitUpdate tr.update s0)
      (FaultOf t va s) := by
  unfold access
  refine (translate_meets t va s).andThen fun tr s1 h => ?_
  have hs := h.1
  unfold NotesOnly at hs
  split
  · rename_i hp
    rw [hs] at hp
    exact ⟨tr, s1, h.1, h.2, rfl, hp, rfl⟩
  · exact .access t va h.1

/-- With translation off an access is its check. -/
theorem access_bare {s : State} (h : s.satp.mode = .bare) (t : AccessType) (va : Word) (n : Nat) :
    access t va n s =
      if physCheck s.cfg va.toNat n t s.priv then .ok va.toNat s else .raise (accessFaultOf t) va s := by
  simp [access, translate, h, Access.andThen, commitUpdate]

end Sys2Proof.Machine
end

