-- ==== Sys2Proof/Laws/Csr.lean ====
section
/-! SUPPORT. What a CSR instruction can do, said once: when its check passes, what the read changes, what the
write changes and leaves. -/

namespace Sys2Proof.Machine

/-- The number of an implemented CSR encodes who may access it (42_csr_access.md R241): a supervisor CSR has a
supervisor read/write number, a counter a user read-only one. -/
theorem csrOf_number {xl : Xlen} {num : CsrNum} {c : Csr} (h : csrOf xl num = some c) :
    (counterBit c = none → (num.extractLsb' 8 2).toNat = 1 ∧ num.extractLsb' 10 2 ≠ 3) ∧
    (counterBit c ≠ none → (num.extractLsb' 8 2).toNat = 0 ∧ num.extractLsb' 10 2 = 3) := by
  simp only [csrOf] at h
  have key : ∀ (p : Prop) [Decidable p] (x y : Option Csr) (Q : Prop), (p → x = some c → Q) → (y = some c → Q) → (if p then x else y) = some c → Q := by
    intro p _ x y Q h1 h2 h3
    split at h3
    · exact h1 ‹_› h3
    · exact h2 h3
  revert h
  iterate 10 (refine key _ _ _ _ (fun e1 e2 => ?_) ?_; (subst e1; cases e2; simp only [counterBit]; decide))
  have b1 : num.extractLsb' 8 2 = (num.extractLsb' 5 7).extractLsb' 3 2 := by
    ext i hi; simp only [BitVec.getElem_extractLsb', BitVec.getLsbD_extractLsb', ← Nat.add_assoc]; rw [decide_eq_true (by omega)]; simp
  have b2 : num.extractLsb' 10 2 = (num.extractLsb' 5 7).extractLsb' 5 2 := by
    ext i hi; simp only [BitVec.getElem_extractLsb', BitVec.getLsbD_extractLsb', ← Nat.add_assoc]; rw [decide_eq_true (by omega)]; simp
  rw [b1, b2]
  refine key _ _ _ _ (fun e1 e2 => ?_) ?_
  · cases e2
    refine ⟨fun h => (by cases h), fun _ => ?_⟩
    rw [e1]; decide
  · refine key _ _ _ _ (fun e1 e2 => ?_) fun h => by cases h
    cases e2
    refine ⟨fun h => (by cases h), fun _ => ?_⟩
    rw [e1.1]; decide

/-- The check passes exactly on an implemented CSR that the mode may access, that is not a read-only number
being written, and that `scounteren` does not keep from U-mode (42_csr_access.md R242). -/
theorem csrCheck_eq_some {num : CsrNum} {wr : Bool} {s : State} {c : Csr} :
    csrCheck num wr s = some c ↔
      csrOf s.cfg.sxlen num = some c ∧ (num.extractLsb' 8 2).toNat ≤ privLevel s.priv ∧
        ¬(wr = true ∧ num.extractLsb' 10 2 = 3) ∧ counterDenied c s = false := by
  unfold csrCheck
  cases hc : csrOf s.cfg.sxlen num with
  | none => simp
  | some d =>
    simp only [Option.some.injEq]
    constructor
    · intro h
      split at h
      · cases h
      · split at h
        · cases h
        · split at h
          · cases h
          · cases h; exact ⟨rfl, by omega, by assumption, by simp_all⟩
    · rintro ⟨rfl, h1, h2, h3⟩
      rw [if_neg (by omega), if_neg h2, if_neg (by simp [h3])]

/-- Observing a counter changes that counter, the draw, and nothing else. -/
theorem observeCounter_state (n : BitVec 5) (s : State) :
    (observeCounter n s).2 =
      { s with counters := (observeCounter n s).2.counters, draws := (observeCounter n s).2.draws } := by
  unfold observeCounter; split <;> rfl

/-- Reading a CSR changes nothing but a counter observed and the draw. -/
theorem csrRead_state (c : Csr) (s : State) :
    (csrRead c s).2 = { s with counters := (csrRead c s).2.counters, draws := (csrRead c s).2.draws } := by
  cases c <;> first | rfl | exact observeCounter_state _ s

/-- Reading a CSR that is no counter changes nothing. -/
theorem csrRead_of_noCounter {c : Csr} (h : counterBit c = none) (s : State) : (csrRead c s).2 = s := by
  cases c <;> first | rfl | (simp [counterBit] at h)

/-- A CSR write changes the ten supervisor CSRs only. -/
theorem csrWrite_state (c : Csr) (v : Word) (s : State) :
    csrWrite c v s =
      { s with
        sstatus := (csrWrite c v s).sstatus, sie := (csrWrite c v s).sie, stvec := (csrWrite c v s).stvec
        scounteren := (csrWrite c v s).scounteren, sscratch := (csrWrite c v s).sscratch
        sepc := (csrWrite c v s).sepc, scause := (csrWrite c v s).scause, stval := (csrWrite c v s).stval
        sip := (csrWrite c v s).sip, satp := (csrWrite c v s).satp } := by
  cases c <;> rfl

@[simp] theorem csrWrite_cfg (c : Csr) (v : Word) (s : State) : (csrWrite c v s).cfg = s.cfg := by cases c <;> rfl
@[simp] theorem csrWrite_priv (c : Csr) (v : Word) (s : State) : (csrWrite c v s).priv = s.priv := by cases c <;> rfl
@[simp] theorem csrWrite_pc (c : Csr) (v : Word) (s : State) : (csrWrite c v s).pc = s.pc := by cases c <;> rfl
@[simp] theorem csrWrite_x (c : Csr) (v : Word) (s : State) : (csrWrite c v s).x = s.x := by cases c <;> rfl
@[simp] theorem csrWrite_counters (c : Csr) (v : Word) (s : State) : (csrWrite c v s).counters = s.counters := by
  cases c <;> rfl
@[simp] theorem csrWrite_tc (c : Csr) (v : Word) (s : State) : (csrWrite c v s).tc = s.tc := by cases c <;> rfl
@[simp] theorem csrWrite_mem (c : Csr) (v : Word) (s : State) : (csrWrite c v s).mem = s.mem := by cases c <;> rfl
@[simp] theorem csrWrite_oldBytes (c : Csr) (v : Word) (s : State) : (csrWrite c v s).oldBytes = s.oldBytes := by
  cases c <;> rfl
@[simp] theorem csrWrite_turns (c : Csr) (v : Word) (s : State) : (csrWrite c v s).turns = s.turns := by
  cases c <;> rfl
@[simp] theorem csrWrite_reservedPte (c : Csr) (v : Word) (s : State) : (csrWrite c v s).reservedPte = s.reservedPte := by
  cases c <;> rfl
@[simp] theorem csrWrite_timer (c : Csr) (v : Word) (s : State) : (csrWrite c v s).timer = s.timer := by
  cases c <;> rfl
@[simp] theorem csrWrite_lastCall (c : Csr) (v : Word) (s : State) : (csrWrite c v s).lastCall = s.lastCall := by
  cases c <;> rfl
@[simp] theorem csrWrite_draws (c : Csr) (v : Word) (s : State) : (csrWrite c v s).draws = s.draws := by
  cases c <;> rfl

/-- A CSR write leaves every other supervisor CSR. -/
theorem csrWrite_others (c : Csr) (v : Word) (s : State) : KeepsCsrsBut c s (csrWrite c v s) := by
  cases c <;> simp [KeepsCsrsBut, csrWrite]

/-- The state after a CSR instruction that its check lets pass. -/
theorem csrAccess_eq (c : Csr) (rd : Reg) (wr : Bool) (op : Word → Word) (s : State) :
    csrAccess c rd wr op s =
      retire
        (if wr then csrWrite c (op (csrBase c (csrRead c s).1 s)) (setX rd (csrRead c s).1 (csrRead c s).2)
         else setX rd (csrRead c s).1 (csrRead c s).2) := by
  unfold csrAccess
  cases wr <;> simp

/-- A CSR instruction always answers a next state. -/
theorem csrInstr_cases (i : Instr) (num : CsrNum) (rd : Reg) (wr : Bool) (op : Word → Word) (s : State) :
    (csrCheck num wr s = none ∧ csrInstr i num rd wr op s = .next (raiseIllegal (encode i) s)) ∨
      ∃ c, csrCheck num wr s = some c ∧ csrInstr i num rd wr op s = .next (csrAccess c rd wr op s) := by
  unfold csrInstr
  cases h : csrCheck num wr s with
  | none => exact .inl ⟨rfl, rfl⟩
  | some c => exact .inr ⟨c, rfl, rfl⟩

end Sys2Proof.Machine
end

