-- ==== Sys2Proof/Laws/Environment.lean ====
section
/-! SUPPORT. What each part of an SBI call can do, said once. -/

namespace Sys2Proof.Machine

/-- The registers a call changes are those its contract names. -/
theorem sbiRegisters_spec (d : Nat) (args : List Word) (rs : List Reg) (s : State) :
    sbiRegisters d args rs s = { s with x := (sbiRegisters d args rs s).x } ∧
      ∀ r, r ∉ rs → getX r (sbiRegisters d args rs s) = getX r s := by
  induction rs generalizing s with
  | nil => exact ⟨rfl, fun _ _ => rfl⟩
  | cons q rs ih =>
    have h := ih (setX q (Config.sbiRegister d args q) s)
    refine ⟨?_, fun r hr => ?_⟩
    · unfold sbiRegisters; rw [h.1]; unfold setX; split <;> rfl
    · simp only [List.mem_cons, not_or] at hr
      exact (h.2 r hr.2).trans (getX_setX_other hr.1 _ s)

theorem sbiBytes_spec (d : Nat) (args : List Word) (pa n : Nat) (s : State) :
    sbiBytes d args pa n s =
        { s with mem := (sbiBytes d args pa n s).mem, oldBytes := (sbiBytes d args pa n s).oldBytes } ∧
      (∀ a, a < pa ∨ pa + n ≤ a → (sbiBytes d args pa n s).mem.read a = s.mem.read a) ∧
      (s.mem.wf = true → (sbiBytes d args pa n s).mem.wf = true) := by
  induction n generalizing pa s with
  | zero => exact ⟨rfl, fun _ _ => rfl, id⟩
  | succ n ih =>
    have h := ih (pa + 1) (storeByte pa (Config.sbiByte d args pa) s)
    refine ⟨?_, fun a ha => ?_, fun hw => h.2.2 (Memory.wf_write pa _ hw)⟩
    · unfold sbiBytes; rw [h.1]; rfl
    · exact (h.2.1 a (by omega)).trans (Memory.read_write_other _ _ (by omega))

/-- The bytes of memory a call changes are those its contract names; the canonical form is kept. -/
theorem sbiMemory_spec (d : Nat) (args : List Word) (l : List (Nat × Nat)) (s : State) :
    sbiMemory d args l s =
        { s with mem := (sbiMemory d args l s).mem, oldBytes := (sbiMemory d args l s).oldBytes } ∧
      (∀ a, (∀ m ∈ l, a < m.1 ∨ m.1 + m.2 ≤ a) → (sbiMemory d args l s).mem.read a = s.mem.read a) ∧
      (s.mem.wf = true → (sbiMemory d args l s).mem.wf = true) := by
  induction l generalizing s with
  | nil => exact ⟨rfl, fun _ _ => rfl, id⟩
  | cons q l ih =>
    have h := ih (sbiBytes d args q.1 q.2 s)
    have hb := sbiBytes_spec d args q.1 q.2 s
    refine ⟨?_, fun a ha => ?_, fun hw => h.2.2 (hb.2.2 hw)⟩
    · unfold sbiMemory; rw [h.1, hb.1]
    · exact (h.2.1 a fun m hm => ha m (by simp [hm])).trans (hb.2.1 a (ha q (by simp)))

/-- The CSRs a call changes are those its contract names. -/
theorem sbiCsrs_spec (d : Nat) (args : List Word) (cs : List Csr) (s : State) :
    sbiCsrs d args cs s =
        { s with
          sstatus := (sbiCsrs d args cs s).sstatus, sie := (sbiCsrs d args cs s).sie
          stvec := (sbiCsrs d args cs s).stvec, scounteren := (sbiCsrs d args cs s).scounteren
          sscratch := (sbiCsrs d args cs s).sscratch, sepc := (sbiCsrs d args cs s).sepc
          scause := (sbiCsrs d args cs s).scause, stval := (sbiCsrs d args cs s).stval
          sip := (sbiCsrs d args cs s).sip, satp := (sbiCsrs d args cs s).satp } ∧
      KeepsCsrsOutside cs s (sbiCsrs d args cs s) := by
  induction cs generalizing s with
  | nil => exact ⟨rfl, by simp [KeepsCsrsOutside, sbiCsrs]⟩
  | cons c cs ih =>
    have h := ih (csrWrite c (Config.sbiCsr d args c) s)
    refine ⟨?_, ?_⟩
    · unfold sbiCsrs; rw [h.1, csrWrite_state]
    · have hk := csrWrite_others c (Config.sbiCsr d args c) s
      obtain ⟨k1, k2, k3, k4, k5, k6, k7, k8, k9, k10⟩ := hk
      obtain ⟨h1, h2, h3, h4, h5, h6, h7, h8, h9, h10⟩ := h.2
      simp only [KeepsCsrsOutside, List.mem_cons, not_or]
      exact ⟨fun e => (h1 e.2).trans (k1 (Ne.symm e.1)), fun e => (h2 e.2).trans (k2 (Ne.symm e.1)),
        fun e => (h3 e.2).trans (k3 (Ne.symm e.1)), fun e => (h4 e.2).trans (k4 (Ne.symm e.1)),
        fun e => (h5 e.2).trans (k5 (Ne.symm e.1)), fun e => (h6 e.2).trans (k6 (Ne.symm e.1)),
        fun e => (h7 e.2).trans (k7 (Ne.symm e.1)), fun e => (h8 e.2).trans (k8 (Ne.symm e.1)),
        fun e => (h9 e.2).trans (k9 (Ne.symm e.1)), fun e => (h10 e.2).trans (k10 (Ne.symm e.1))⟩

/-! ## sbiRegisters -/

@[simp] theorem sbiRegisters_cfg (d : Nat) (args : List Word) (rs : List Reg) (s : State) :
    (sbiRegisters d args rs s).cfg = s.cfg := by
  have h := congrArg State.cfg (sbiRegisters_spec d args rs s).1; exact h

@[simp] theorem sbiRegisters_priv (d : Nat) (args : List Word) (rs : List Reg) (s : State) :
    (sbiRegisters d args rs s).priv = s.priv := by
  have h := congrArg State.priv (sbiRegisters_spec d args rs s).1; exact h

@[simp] theorem sbiRegisters_pc (d : Nat) (args : List Word) (rs : List Reg) (s : State) :
    (sbiRegisters d args rs s).pc = s.pc := by
  have h := congrArg State.pc (sbiRegisters_spec d args rs s).1; exact h

@[simp] theorem sbiRegisters_sstatus (d : Nat) (args : List Word) (rs : List Reg) (s : State) :
    (sbiRegisters d args rs s).sstatus = s.sstatus := by
  have h := congrArg State.sstatus (sbiRegisters_spec d args rs s).1; exact h

@[simp] theorem sbiRegisters_stvec (d : Nat) (args : List Word) (rs : List Reg) (s : State) :
    (sbiRegisters d args rs s).stvec = s.stvec := by
  have h := congrArg State.stvec (sbiRegisters_spec d args rs s).1; exact h

@[simp] theorem sbiRegisters_sie (d : Nat) (args : List Word) (rs : List Reg) (s : State) :
    (sbiRegisters d args rs s).sie = s.sie := by
  have h := congrArg State.sie (sbiRegisters_spec d args rs s).1; exact h

@[simp] theorem sbiRegisters_sip (d : Nat) (args : List Word) (rs : List Reg) (s : State) :
    (sbiRegisters d args rs s).sip = s.sip := by
  have h := congrArg State.sip (sbiRegisters_spec d args rs s).1; exact h

@[simp] theorem sbiRegisters_scounteren (d : Nat) (args : List Word) (rs : List Reg) (s : State) :
    (sbiRegisters d args rs s).scounteren = s.scounteren := by
  have h := congrArg State.scounteren (sbiRegisters_spec d args rs s).1; exact h

@[simp] theorem sbiRegisters_sscratch (d : Nat) (args : List Word) (rs : List Reg) (s : State) :
    (sbiRegisters d args rs s).sscratch = s.sscratch := by
  have h := congrArg State.sscratch (sbiRegisters_spec d args rs s).1; exact h

@[simp] theorem sbiRegisters_sepc (d : Nat) (args : List Word) (rs : List Reg) (s : State) :
    (sbiRegisters d args rs s).sepc = s.sepc := by
  have h := congrArg State.sepc (sbiRegisters_spec d args rs s).1; exact h

@[simp] theorem sbiRegisters_scause (d : Nat) (args : List Word) (rs : List Reg) (s : State) :
    (sbiRegisters d args rs s).scause = s.scause := by
  have h := congrArg State.scause (sbiRegisters_spec d args rs s).1; exact h

@[simp] theorem sbiRegisters_stval (d : Nat) (args : List Word) (rs : List Reg) (s : State) :
    (sbiRegisters d args rs s).stval = s.stval := by
  have h := congrArg State.stval (sbiRegisters_spec d args rs s).1; exact h

@[simp] theorem sbiRegisters_satp (d : Nat) (args : List Word) (rs : List Reg) (s : State) :
    (sbiRegisters d args rs s).satp = s.satp := by
  have h := congrArg State.satp (sbiRegisters_spec d args rs s).1; exact h

@[simp] theorem sbiRegisters_counters (d : Nat) (args : List Word) (rs : List Reg) (s : State) :
    (sbiRegisters d args rs s).counters = s.counters := by
  have h := congrArg State.counters (sbiRegisters_spec d args rs s).1; exact h

@[simp] theorem sbiRegisters_tc (d : Nat) (args : List Word) (rs : List Reg) (s : State) :
    (sbiRegisters d args rs s).tc = s.tc := by
  have h := congrArg State.tc (sbiRegisters_spec d args rs s).1; exact h

@[simp] theorem sbiRegisters_mem (d : Nat) (args : List Word) (rs : List Reg) (s : State) :
    (sbiRegisters d args rs s).mem = s.mem := by
  have h := congrArg State.mem (sbiRegisters_spec d args rs s).1; exact h

@[simp] theorem sbiRegisters_oldBytes (d : Nat) (args : List Word) (rs : List Reg) (s : State) :
    (sbiRegisters d args rs s).oldBytes = s.oldBytes := by
  have h := congrArg State.oldBytes (sbiRegisters_spec d args rs s).1; exact h

@[simp] theorem sbiRegisters_turns (d : Nat) (args : List Word) (rs : List Reg) (s : State) :
    (sbiRegisters d args rs s).turns = s.turns := by
  have h := congrArg State.turns (sbiRegisters_spec d args rs s).1; exact h

@[simp] theorem sbiRegisters_reservedPte (d : Nat) (args : List Word) (rs : List Reg) (s : State) :
    (sbiRegisters d args rs s).reservedPte = s.reservedPte := by
  have h := congrArg State.reservedPte (sbiRegisters_spec d args rs s).1; exact h

@[simp] theorem sbiRegisters_timer (d : Nat) (args : List Word) (rs : List Reg) (s : State) :
    (sbiRegisters d args rs s).timer = s.timer := by
  have h := congrArg State.timer (sbiRegisters_spec d args rs s).1; exact h

@[simp] theorem sbiRegisters_lastCall (d : Nat) (args : List Word) (rs : List Reg) (s : State) :
    (sbiRegisters d args rs s).lastCall = s.lastCall := by
  have h := congrArg State.lastCall (sbiRegisters_spec d args rs s).1; exact h

@[simp] theorem sbiRegisters_draws (d : Nat) (args : List Word) (rs : List Reg) (s : State) :
    (sbiRegisters d args rs s).draws = s.draws := by
  have h := congrArg State.draws (sbiRegisters_spec d args rs s).1; exact h

/-! ## sbiMemory -/

@[simp] theorem sbiMemory_cfg (d : Nat) (args : List Word) (l : List (Nat × Nat)) (s : State) :
    (sbiMemory d args l s).cfg = s.cfg := by
  have h := congrArg State.cfg (sbiMemory_spec d args l s).1; exact h

@[simp] theorem sbiMemory_priv (d : Nat) (args : List Word) (l : List (Nat × Nat)) (s : State) :
    (sbiMemory d args l s).priv = s.priv := by
  have h := congrArg State.priv (sbiMemory_spec d args l s).1; exact h

@[simp] theorem sbiMemory_pc (d : Nat) (args : List Word) (l : List (Nat × Nat)) (s : State) :
    (sbiMemory d args l s).pc = s.pc := by
  have h := congrArg State.pc (sbiMemory_spec d args l s).1; exact h

@[simp] theorem sbiMemory_x (d : Nat) (args : List Word) (l : List (Nat × Nat)) (s : State) :
    (sbiMemory d args l s).x = s.x := by
  have h := congrArg State.x (sbiMemory_spec d args l s).1; exact h

@[simp] theorem sbiMemory_sstatus (d : Nat) (args : List Word) (l : List (Nat × Nat)) (s : State) :
    (sbiMemory d args l s).sstatus = s.sstatus := by
  have h := congrArg State.sstatus (sbiMemory_spec d args l s).1; exact h

@[simp] theorem sbiMemory_stvec (d : Nat) (args : List Word) (l : List (Nat × Nat)) (s : State) :
    (sbiMemory d args l s).stvec = s.stvec := by
  have h := congrArg State.stvec (sbiMemory_spec d args l s).1; exact h

@[simp] theorem sbiMemory_sie (d : Nat) (args : List Word) (l : List (Nat × Nat)) (s : State) :
    (sbiMemory d args l s).sie = s.sie := by
  have h := congrArg State.sie (sbiMemory_spec d args l s).1; exact h

@[simp] theorem sbiMemory_sip (d : Nat) (args : List Word) (l : List (Nat × Nat)) (s : State) :
    (sbiMemory d args l s).sip = s.sip := by
  have h := congrArg State.sip (sbiMemory_spec d args l s).1; exact h

@[simp] theorem sbiMemory_scounteren (d : Nat) (args : List Word) (l : List (Nat × Nat)) (s : State) :
    (sbiMemory d args l s).scounteren = s.scounteren := by
  have h := congrArg State.scounteren (sbiMemory_spec d args l s).1; exact h

@[simp] theorem sbiMemory_sscratch (d : Nat) (args : List Word) (l : List (Nat × Nat)) (s : State) :
    (sbiMemory d args l s).sscratch = s.sscratch := by
  have h := congrArg State.sscratch (sbiMemory_spec d args l s).1; exact h

@[simp] theorem sbiMemory_sepc (d : Nat) (args : List Word) (l : List (Nat × Nat)) (s : State) :
    (sbiMemory d args l s).sepc = s.sepc := by
  have h := congrArg State.sepc (sbiMemory_spec d args l s).1; exact h

@[simp] theorem sbiMemory_scause (d : Nat) (args : List Word) (l : List (Nat × Nat)) (s : State) :
    (sbiMemory d args l s).scause = s.scause := by
  have h := congrArg State.scause (sbiMemory_spec d args l s).1; exact h

@[simp] theorem sbiMemory_stval (d : Nat) (args : List Word) (l : List (Nat × Nat)) (s : State) :
    (sbiMemory d args l s).stval = s.stval := by
  have h := congrArg State.stval (sbiMemory_spec d args l s).1; exact h

@[simp] theorem sbiMemory_satp (d : Nat) (args : List Word) (l : List (Nat × Nat)) (s : State) :
    (sbiMemory d args l s).satp = s.satp := by
  have h := congrArg State.satp (sbiMemory_spec d args l s).1; exact h

@[simp] theorem sbiMemory_counters (d : Nat) (args : List Word) (l : List (Nat × Nat)) (s : State) :
    (sbiMemory d args l s).counters = s.counters := by
  have h := congrArg State.counters (sbiMemory_spec d args l s).1; exact h

@[simp] theorem sbiMemory_tc (d : Nat) (args : List Word) (l : List (Nat × Nat)) (s : State) :
    (sbiMemory d args l s).tc = s.tc := by
  have h := congrArg State.tc (sbiMemory_spec d args l s).1; exact h

@[simp] theorem sbiMemory_turns (d : Nat) (args : List Word) (l : List (Nat × Nat)) (s : State) :
    (sbiMemory d args l s).turns = s.turns := by
  have h := congrArg State.turns (sbiMemory_spec d args l s).1; exact h

@[simp] theorem sbiMemory_reservedPte (d : Nat) (args : List Word) (l : List (Nat × Nat)) (s : State) :
    (sbiMemory d args l s).reservedPte = s.reservedPte := by
  have h := congrArg State.reservedPte (sbiMemory_spec d args l s).1; exact h

@[simp] theorem sbiMemory_timer (d : Nat) (args : List Word) (l : List (Nat × Nat)) (s : State) :
    (sbiMemory d args l s).timer = s.timer := by
  have h := congrArg State.timer (sbiMemory_spec d args l s).1; exact h

@[simp] theorem sbiMemory_lastCall (d : Nat) (args : List Word) (l : List (Nat × Nat)) (s : State) :
    (sbiMemory d args l s).lastCall = s.lastCall := by
  have h := congrArg State.lastCall (sbiMemory_spec d args l s).1; exact h

@[simp] theorem sbiMemory_draws (d : Nat) (args : List Word) (l : List (Nat × Nat)) (s : State) :
    (sbiMemory d args l s).draws = s.draws := by
  have h := congrArg State.draws (sbiMemory_spec d args l s).1; exact h

/-! ## sbiPendingBits -/

@[simp] theorem sbiPendingBits_cfg (d : Nat) (args : List Word) (s : State) :
    (sbiPendingBits d args s).cfg = s.cfg := rfl

@[simp] theorem sbiPendingBits_priv (d : Nat) (args : List Word) (s : State) :
    (sbiPendingBits d args s).priv = s.priv := rfl

@[simp] theorem sbiPendingBits_pc (d : Nat) (args : List Word) (s : State) :
    (sbiPendingBits d args s).pc = s.pc := rfl

@[simp] theorem sbiPendingBits_x (d : Nat) (args : List Word) (s : State) :
    (sbiPendingBits d args s).x = s.x := rfl

@[simp] theorem sbiPendingBits_sstatus (d : Nat) (args : List Word) (s : State) :
    (sbiPendingBits d args s).sstatus = s.sstatus := rfl

@[simp] theorem sbiPendingBits_stvec (d : Nat) (args : List Word) (s : State) :
    (sbiPendingBits d args s).stvec = s.stvec := rfl

@[simp] theorem sbiPendingBits_sie (d : Nat) (args : List Word) (s : State) :
    (sbiPendingBits d args s).sie = s.sie := rfl

@[simp] theorem sbiPendingBits_scounteren (d : Nat) (args : List Word) (s : State) :
    (sbiPendingBits d args s).scounteren = s.scounteren := rfl

@[simp] theorem sbiPendingBits_sscratch (d : Nat) (args : List Word) (s : State) :
    (sbiPendingBits d args s).sscratch = s.sscratch := rfl

@[simp] theorem sbiPendingBits_sepc (d : Nat) (args : List Word) (s : State) :
    (sbiPendingBits d args s).sepc = s.sepc := rfl

@[simp] theorem sbiPendingBits_scause (d : Nat) (args : List Word) (s : State) :
    (sbiPendingBits d args s).scause = s.scause := rfl

@[simp] theorem sbiPendingBits_stval (d : Nat) (args : List Word) (s : State) :
    (sbiPendingBits d args s).stval = s.stval := rfl

@[simp] theorem sbiPendingBits_satp (d : Nat) (args : List Word) (s : State) :
    (sbiPendingBits d args s).satp = s.satp := rfl

@[simp] theorem sbiPendingBits_counters (d : Nat) (args : List Word) (s : State) :
    (sbiPendingBits d args s).counters = s.counters := rfl

@[simp] theorem sbiPendingBits_tc (d : Nat) (args : List Word) (s : State) :
    (sbiPendingBits d args s).tc = s.tc := rfl

@[simp] theorem sbiPendingBits_mem (d : Nat) (args : List Word) (s : State) :
    (sbiPendingBits d args s).mem = s.mem := rfl

@[simp] theorem sbiPendingBits_oldBytes (d : Nat) (args : List Word) (s : State) :
    (sbiPendingBits d args s).oldBytes = s.oldBytes := rfl

@[simp] theorem sbiPendingBits_turns (d : Nat) (args : List Word) (s : State) :
    (sbiPendingBits d args s).turns = s.turns := rfl

@[simp] theorem sbiPendingBits_reservedPte (d : Nat) (args : List Word) (s : State) :
    (sbiPendingBits d args s).reservedPte = s.reservedPte := rfl

@[simp] theorem sbiPendingBits_timer (d : Nat) (args : List Word) (s : State) :
    (sbiPendingBits d args s).timer = s.timer := rfl

@[simp] theorem sbiPendingBits_lastCall (d : Nat) (args : List Word) (s : State) :
    (sbiPendingBits d args s).lastCall = s.lastCall := rfl

@[simp] theorem sbiPendingBits_draws (d : Nat) (args : List Word) (s : State) :
    (sbiPendingBits d args s).draws = s.draws := rfl

/-! ## sbiCsrs -/

@[simp] theorem sbiCsrs_cfg (d : Nat) (args : List Word) (cs : List Csr) (s : State) :
    (sbiCsrs d args cs s).cfg = s.cfg := by
  have h := congrArg State.cfg (sbiCsrs_spec d args cs s).1; exact h

@[simp] theorem sbiCsrs_priv (d : Nat) (args : List Word) (cs : List Csr) (s : State) :
    (sbiCsrs d args cs s).priv = s.priv := by
  have h := congrArg State.priv (sbiCsrs_spec d args cs s).1; exact h

@[simp] theorem sbiCsrs_pc (d : Nat) (args : List Word) (cs : List Csr) (s : State) :
    (sbiCsrs d args cs s).pc = s.pc := by
  have h := congrArg State.pc (sbiCsrs_spec d args cs s).1; exact h

@[simp] theorem sbiCsrs_x (d : Nat) (args : List Word) (cs : List Csr) (s : State) :
    (sbiCsrs d args cs s).x = s.x := by
  have h := congrArg State.x (sbiCsrs_spec d args cs s).1; exact h

@[simp] theorem sbiCsrs_counters (d : Nat) (args : List Word) (cs : List Csr) (s : State) :
    (sbiCsrs d args cs s).counters = s.counters := by
  have h := congrArg State.counters (sbiCsrs_spec d args cs s).1; exact h

@[simp] theorem sbiCsrs_tc (d : Nat) (args : List Word) (cs : List Csr) (s : State) :
    (sbiCsrs d args cs s).tc = s.tc := by
  have h := congrArg State.tc (sbiCsrs_spec d args cs s).1; exact h

@[simp] theorem sbiCsrs_mem (d : Nat) (args : List Word) (cs : List Csr) (s : State) :
    (sbiCsrs d args cs s).mem = s.mem := by
  have h := congrArg State.mem (sbiCsrs_spec d args cs s).1; exact h

@[simp] theorem sbiCsrs_oldBytes (d : Nat) (args : List Word) (cs : List Csr) (s : State) :
    (sbiCsrs d args cs s).oldBytes = s.oldBytes := by
  have h := congrArg State.oldBytes (sbiCsrs_spec d args cs s).1; exact h

@[simp] theorem sbiCsrs_turns (d : Nat) (args : List Word) (cs : List Csr) (s : State) :
    (sbiCsrs d args cs s).turns = s.turns := by
  have h := congrArg State.turns (sbiCsrs_spec d args cs s).1; exact h

@[simp] theorem sbiCsrs_reservedPte (d : Nat) (args : List Word) (cs : List Csr) (s : State) :
    (sbiCsrs d args cs s).reservedPte = s.reservedPte := by
  have h := congrArg State.reservedPte (sbiCsrs_spec d args cs s).1; exact h

@[simp] theorem sbiCsrs_timer (d : Nat) (args : List Word) (cs : List Csr) (s : State) :
    (sbiCsrs d args cs s).timer = s.timer := by
  have h := congrArg State.timer (sbiCsrs_spec d args cs s).1; exact h

@[simp] theorem sbiCsrs_lastCall (d : Nat) (args : List Word) (cs : List Csr) (s : State) :
    (sbiCsrs d args cs s).lastCall = s.lastCall := by
  have h := congrArg State.lastCall (sbiCsrs_spec d args cs s).1; exact h

@[simp] theorem sbiCsrs_draws (d : Nat) (args : List Word) (cs : List Csr) (s : State) :
    (sbiCsrs d args cs s).draws = s.draws := by
  have h := congrArg State.draws (sbiCsrs_spec d args cs s).1; exact h

/-! ## sbiCounters -/

@[simp] theorem sbiCounters_cfg (d : Nat) (args : List Word) (s : State) :
    (sbiCounters d args s).cfg = s.cfg := rfl

@[simp] theorem sbiCounters_priv (d : Nat) (args : List Word) (s : State) :
    (sbiCounters d args s).priv = s.priv := rfl

@[simp] theorem sbiCounters_pc (d : Nat) (args : List Word) (s : State) :
    (sbiCounters d args s).pc = s.pc := rfl

@[simp] theorem sbiCounters_x (d : Nat) (args : List Word) (s : State) :
    (sbiCounters d args s).x = s.x := rfl

@[simp] theorem sbiCounters_sstatus (d : Nat) (args : List Word) (s : State) :
    (sbiCounters d args s).sstatus = s.sstatus := rfl

@[simp] theorem sbiCounters_stvec (d : Nat) (args : List Word) (s : State) :
    (sbiCounters d args s).stvec = s.stvec := rfl

@[simp] theorem sbiCounters_sie (d : Nat) (args : List Word) (s : State) :
    (sbiCounters d args s).sie = s.sie := rfl

@[simp] theorem sbiCounters_sip (d : Nat) (args : List Word) (s : State) :
    (sbiCounters d args s).sip = s.sip := rfl

@[simp] theorem sbiCounters_scounteren (d : Nat) (args : List Word) (s : State) :
    (sbiCounters d args s).scounteren = s.scounteren := rfl

@[simp] theorem sbiCounters_sscratch (d : Nat) (args : List Word) (s : State) :
    (sbiCounters d args s).sscratch = s.sscratch := rfl

@[simp] theorem sbiCounters_sepc (d : Nat) (args : List Word) (s : State) :
    (sbiCounters d args s).sepc = s.sepc := rfl

@[simp] theorem sbiCounters_scause (d : Nat) (args : List Word) (s : State) :
    (sbiCounters d args s).scause = s.scause := rfl

@[simp] theorem sbiCounters_stval (d : Nat) (args : List Word) (s : State) :
    (sbiCounters d args s).stval = s.stval := rfl

@[simp] theorem sbiCounters_satp (d : Nat) (args : List Word) (s : State) :
    (sbiCounters d args s).satp = s.satp := rfl

@[simp] theorem sbiCounters_tc (d : Nat) (args : List Word) (s : State) :
    (sbiCounters d args s).tc = s.tc := rfl

@[simp] theorem sbiCounters_mem (d : Nat) (args : List Word) (s : State) :
    (sbiCounters d args s).mem = s.mem := rfl

@[simp] theorem sbiCounters_oldBytes (d : Nat) (args : List Word) (s : State) :
    (sbiCounters d args s).oldBytes = s.oldBytes := rfl

@[simp] theorem sbiCounters_turns (d : Nat) (args : List Word) (s : State) :
    (sbiCounters d args s).turns = s.turns := rfl

@[simp] theorem sbiCounters_reservedPte (d : Nat) (args : List Word) (s : State) :
    (sbiCounters d args s).reservedPte = s.reservedPte := rfl

@[simp] theorem sbiCounters_timer (d : Nat) (args : List Word) (s : State) :
    (sbiCounters d args s).timer = s.timer := rfl

@[simp] theorem sbiCounters_lastCall (d : Nat) (args : List Word) (s : State) :
    (sbiCounters d args s).lastCall = s.lastCall := rfl

@[simp] theorem sbiCounters_draws (d : Nat) (args : List Word) (s : State) :
    (sbiCounters d args s).draws = s.draws := rfl

/-! ## sbiTimer -/

@[simp] theorem sbiTimer_cfg (d : Nat) (args : List Word) (s : State) :
    (sbiTimer d args s).cfg = s.cfg := rfl

@[simp] theorem sbiTimer_priv (d : Nat) (args : List Word) (s : State) :
    (sbiTimer d args s).priv = s.priv := rfl

@[simp] theorem sbiTimer_pc (d : Nat) (args : List Word) (s : State) :
    (sbiTimer d args s).pc = s.pc := rfl

@[simp] theorem sbiTimer_x (d : Nat) (args : List Word) (s : State) :
    (sbiTimer d args s).x = s.x := rfl

@[simp] theorem sbiTimer_sstatus (d : Nat) (args : List Word) (s : State) :
    (sbiTimer d args s).sstatus = s.sstatus := rfl

@[simp] theorem sbiTimer_stvec (d : Nat) (args : List Word) (s : State) :
    (sbiTimer d args s).stvec = s.stvec := rfl

@[simp] theorem sbiTimer_sie (d : Nat) (args : List Word) (s : State) :
    (sbiTimer d args s).sie = s.sie := rfl

@[simp] theorem sbiTimer_sip (d : Nat) (args : List Word) (s : State) :
    (sbiTimer d args s).sip = s.sip := rfl

@[simp] theorem sbiTimer_scounteren (d : Nat) (args : List Word) (s : State) :
    (sbiTimer d args s).scounteren = s.scounteren := rfl

@[simp] theorem sbiTimer_sscratch (d : Nat) (args : List Word) (s : State) :
    (sbiTimer d args s).sscratch = s.sscratch := rfl

@[simp] theorem sbiTimer_sepc (d : Nat) (args : List Word) (s : State) :
    (sbiTimer d args s).sepc = s.sepc := rfl

@[simp] theorem sbiTimer_scause (d : Nat) (args : List Word) (s : State) :
    (sbiTimer d args s).scause = s.scause := rfl

@[simp] theorem sbiTimer_stval (d : Nat) (args : List Word) (s : State) :
    (sbiTimer d args s).stval = s.stval := rfl

@[simp] theorem sbiTimer_satp (d : Nat) (args : List Word) (s : State) :
    (sbiTimer d args s).satp = s.satp := rfl

@[simp] theorem sbiTimer_counters (d : Nat) (args : List Word) (s : State) :
    (sbiTimer d args s).counters = s.counters := rfl

@[simp] theorem sbiTimer_tc (d : Nat) (args : List Word) (s : State) :
    (sbiTimer d args s).tc = s.tc := rfl

@[simp] theorem sbiTimer_mem (d : Nat) (args : List Word) (s : State) :
    (sbiTimer d args s).mem = s.mem := rfl

@[simp] theorem sbiTimer_oldBytes (d : Nat) (args : List Word) (s : State) :
    (sbiTimer d args s).oldBytes = s.oldBytes := rfl

@[simp] theorem sbiTimer_turns (d : Nat) (args : List Word) (s : State) :
    (sbiTimer d args s).turns = s.turns := rfl

@[simp] theorem sbiTimer_reservedPte (d : Nat) (args : List Word) (s : State) :
    (sbiTimer d args s).reservedPte = s.reservedPte := rfl

@[simp] theorem sbiTimer_lastCall (d : Nat) (args : List Word) (s : State) :
    (sbiTimer d args s).lastCall = s.lastCall := rfl

@[simp] theorem sbiTimer_draws (d : Nat) (args : List Word) (s : State) :
    (sbiTimer d args s).draws = s.draws := rfl

/-! ## noteCall -/

@[simp] theorem noteCall_cfg (x : Vector Word 32) (s : State) : (noteCall x s).cfg = s.cfg := rfl

@[simp] theorem noteCall_priv (x : Vector Word 32) (s : State) : (noteCall x s).priv = s.priv := rfl

@[simp] theorem noteCall_pc (x : Vector Word 32) (s : State) : (noteCall x s).pc = s.pc := rfl

@[simp] theorem noteCall_x (x : Vector Word 32) (s : State) : (noteCall x s).x = s.x := rfl

@[simp] theorem noteCall_sstatus (x : Vector Word 32) (s : State) : (noteCall x s).sstatus = s.sstatus := rfl

@[simp] theorem noteCall_stvec (x : Vector Word 32) (s : State) : (noteCall x s).stvec = s.stvec := rfl

@[simp] theorem noteCall_sie (x : Vector Word 32) (s : State) : (noteCall x s).sie = s.sie := rfl

@[simp] theorem noteCall_sip (x : Vector Word 32) (s : State) : (noteCall x s).sip = s.sip := rfl

@[simp] theorem noteCall_scounteren (x : Vector Word 32) (s : State) : (noteCall x s).scounteren = s.scounteren := rfl

@[simp] theorem noteCall_sscratch (x : Vector Word 32) (s : State) : (noteCall x s).sscratch = s.sscratch := rfl

@[simp] theorem noteCall_sepc (x : Vector Word 32) (s : State) : (noteCall x s).sepc = s.sepc := rfl

@[simp] theorem noteCall_scause (x : Vector Word 32) (s : State) : (noteCall x s).scause = s.scause := rfl

@[simp] theorem noteCall_stval (x : Vector Word 32) (s : State) : (noteCall x s).stval = s.stval := rfl

@[simp] theorem noteCall_satp (x : Vector Word 32) (s : State) : (noteCall x s).satp = s.satp := rfl

@[simp] theorem noteCall_counters (x : Vector Word 32) (s : State) : (noteCall x s).counters = s.counters := rfl

@[simp] theorem noteCall_tc (x : Vector Word 32) (s : State) : (noteCall x s).tc = s.tc := rfl

@[simp] theorem noteCall_timer (x : Vector Word 32) (s : State) : (noteCall x s).timer = s.timer := rfl

@[simp] theorem noteCall_mem (x : Vector Word 32) (s : State) : (noteCall x s).mem = s.mem := rfl

@[simp] theorem noteCall_oldBytes (x : Vector Word 32) (s : State) : (noteCall x s).oldBytes = s.oldBytes := rfl

@[simp] theorem noteCall_turns (x : Vector Word 32) (s : State) : (noteCall x s).turns = s.turns := rfl

@[simp] theorem noteCall_reservedPte (x : Vector Word 32) (s : State) : (noteCall x s).reservedPte = s.reservedPte := rfl

@[simp] theorem noteCall_lastCall (x : Vector Word 32) (s : State) : (noteCall x s).lastCall = some x := rfl

@[simp] theorem noteCall_draws (x : Vector Word 32) (s : State) : (noteCall x s).draws = s.draws := rfl

/-! ## sbiServe -/

@[simp] theorem sbiServe_cfg (d : Nat) (args : List Word) (s : State) : (sbiServe d args s).cfg = s.cfg := by
  simp [sbiServe]

@[simp] theorem sbiServe_priv (d : Nat) (args : List Word) (s : State) : (sbiServe d args s).priv = s.priv := by
  simp [sbiServe]

@[simp] theorem sbiServe_pc (d : Nat) (args : List Word) (s : State) : (sbiServe d args s).pc = s.pc := by
  simp [sbiServe]

@[simp] theorem sbiServe_tc (d : Nat) (args : List Word) (s : State) : (sbiServe d args s).tc = s.tc := by
  simp [sbiServe]

@[simp] theorem sbiServe_turns (d : Nat) (args : List Word) (s : State) : (sbiServe d args s).turns = s.turns := by
  simp [sbiServe]

@[simp] theorem sbiServe_reservedPte (d : Nat) (args : List Word) (s : State) : (sbiServe d args s).reservedPte = s.reservedPte := by
  simp [sbiServe]

@[simp] theorem sbiServe_lastCall (d : Nat) (args : List Word) (s : State) : (sbiServe d args s).lastCall = s.lastCall := by
  simp [sbiServe]

@[simp] theorem sbiServe_draws (d : Nat) (args : List Word) (s : State) : (sbiServe d args s).draws = s.draws := by
  simp [sbiServe]

/-- What a call leaves in the registers is what its register part leaves there. -/
theorem sbiServe_x (d : Nat) (args : List Word) (s : State) :
    (sbiServe d args s).x = (sbiRegisters d args s.cfg.sbi.results s).x := by
  simp [sbiServe]

/-- What a call leaves in memory is what its memory part leaves there. -/
theorem sbiServe_mem (d : Nat) (args : List Word) (s : State) :
    (sbiServe d args s).mem =
      (sbiMemory d args s.cfg.sbi.memory (sbiRegisters d args s.cfg.sbi.results s)).mem := by
  simp [sbiServe]

/-- What a call leaves in the counters is what its counter part leaves there. -/
theorem sbiServe_counters (d : Nat) (args : List Word) (s : State) :
    (sbiServe d args s).counters = (sbiCounters d args s).counters := by
  simp [sbiServe, sbiCounters]

/-- The timer interrupt a call leaves scheduled is what its timer part leaves. -/
theorem sbiServe_timer (d : Nat) (args : List Word) (s : State) :
    (sbiServe d args s).timer = (sbiTimer d args s).timer := by
  simp [sbiServe, sbiTimer]

/-- The state whose pending bits a call changes: the one after all the call does before but for memory and
registers. -/
theorem sbiPendingBits_sip (d : Nat) (args : List Word) (s : State) :
    (sbiPendingBits d args (sbiTimer d args (sbiCounters d args
      (sbiMemory d args s.cfg.sbi.memory (sbiRegisters d args s.cfg.sbi.results s))))).sip =
      (sbiPendingBits d args (sbiTimer d args (sbiCounters d args s))).sip := by
  simp [sbiPendingBits, stipAfter, timerDue, sbiTimer, sbiCounters]

/-- A call leaves every CSR its contract does not name, but for the pending bits. -/
theorem sbiServe_csrs (d : Nat) (args : List Word) (s : State) :
    KeepsCsrsOutside (.sip :: s.cfg.sbi.csrs) s (sbiServe d args s) := by
  obtain ⟨h1, h2, h3, h4, h5, h6, h7, h8, -, h10⟩ := (sbiCsrs_spec d args s.cfg.sbi.csrs
    (sbiPendingBits d args (sbiTimer d args (sbiCounters d args
      (sbiMemory d args s.cfg.sbi.memory (sbiRegisters d args s.cfg.sbi.results s)))))).2
  simp only [KeepsCsrsOutside, List.mem_cons, not_or]
  exact ⟨fun e => (h1 e.2).trans (by simp), fun e => (h2 e.2).trans (by simp), fun e => (h3 e.2).trans (by simp),
    fun e => (h4 e.2).trans (by simp), fun e => (h5 e.2).trans (by simp), fun e => (h6 e.2).trans (by simp),
    fun e => (h7 e.2).trans (by simp), fun e => (h8 e.2).trans (by simp), fun e => absurd trivial e.1,
    fun e => (h10 e.2).trans (by simp)⟩

/-- Where its contract does not name `sip`, a call changes the pending bits the SEE owns. -/
theorem sbiServe_sip {d : Nat} {args : List Word} {s : State} (h : .sip ∉ s.cfg.sbi.csrs) :
    (sbiServe d args s).sip = (sbiPendingBits d args (sbiTimer d args (sbiCounters d args s))).sip :=
  ((sbiCsrs_spec d args s.cfg.sbi.csrs _).2.2.2.2.2.2.2.2.2.1 h).trans (sbiPendingBits_sip d args s)

/-- CSR writes of a call leave STIP, which no CSR write changes (10_state.md R49). -/
theorem sbiCsrs_stip (d : Nat) (args : List Word) (cs : List Csr) (s : State) :
    (sbiCsrs d args cs s).sip.stip = s.sip.stip := by
  induction cs generalizing s with
  | nil => rfl
  | cons c cs ih => exact (ih _).trans (by cases c <;> rfl)

/-- A call does not set STIP before the time it leaves scheduled (60_exceptions.md R331). -/
theorem sbiServe_stipOnTime (d : Nat) (args : List Word) (s : State) : StipOnTime s (sbiServe d args s) := by
  intro h0 h1 T hT
  rw [sbiServe_timer] at hT
  rw [sbiServe_counters]
  have h2 : (sbiPendingBits d args (sbiTimer d args (sbiCounters d args s))).sip.stip = true := by
    rw [← sbiPendingBits_sip, ← h1]; exact (sbiCsrs_stip ..).symm
  simp only [sbiPendingBits, sbiTimer_cfg, sbiCounters_cfg, sbiTimer_sip, sbiCounters_sip, h0] at h2
  split at h2
  · simp only [stipAfter, sbiTimer_sip, sbiCounters_sip, h0, Bool.false_or, Bool.and_eq_true] at h2
    have h3 := h2.2
    unfold timerDue at h3
    rw [show (sbiTimer d args (sbiCounters d args s)).timer = some T from hT] at h3
    exact of_decide_eq_true h3
  · cases h2

end Sys2Proof.Machine
end

