-- ==== Sys2Proof/Laws/Step.lean ====
section
/-! SUPPORT. What an instruction and a step can do, each said once. -/

namespace Sys2Proof.Machine

/-- The states an instruction can end in, by what it does. -/
inductive InstrEffect (i : Instr) (s : State) : State → Prop where
  /-- It raises an exception. -/
  | traps (e : Exc) (tval : Word) : InstrEffect i s (trapToS (.exception e) tval s.pc s)
  /-- It is one of the six CSR instructions and its check passes. -/
  | csr (num : CsrNum) (c : Csr) (rd : Reg) (wr : Bool) (op : Word → Word) (h : csrCheck num wr s = some c) :
      InstrEffect i s (csrAccess c rd wr op s)
  /-- It is SRET in S-mode. -/
  | returns (hi : i = .sret) (h : s.priv = .supervisor) : InstrEffect i s (returnFromS s)
  /-- It is SFENCE.VMA in S-mode. -/
  | fences (va : Option Word) (asid : Option (BitVec 16)) (h : s.priv = .supervisor) :
      InstrEffect i s (retire (fenceTc va asid s))
  /-- It is ECALL in S-mode. -/
  | calls (hi : i = .ecall) (h : s.priv = .supervisor) : InstrEffect i s (sbiCall s)
  /-- It is FENCE. -/
  | retires : InstrEffect i s (retire s)

theorem csrInstr_effect {i : Instr} {num : CsrNum} {rd : Reg} {wr : Bool} {op : Word → Word} {s t : State}
    (h : csrInstr i num rd wr op s = .next t) : InstrEffect i s t := by
  rcases csrInstr_cases i num rd wr op s with ⟨_, he⟩ | ⟨c, hc, he⟩
  · rw [he] at h; cases h; exact .traps _ _
  · rw [he] at h; cases h; exact .csr num c rd wr op hc

/-- Every next state of an instruction is one of these. -/
theorem exec_effect {i : Instr} {s t : State} (h : exec i s = .next t) : InstrEffect i s t := by
  cases i <;> simp only [exec] at h
  case ecall =>
    unfold execEcall at h
    split at h
    · cases h; exact .traps _ _
    · cases h; exact .calls rfl ‹_›
  case ebreak => cases h; exact .traps _ _
  case uret =>
    unfold execUret at h
    split at h
    · cases h
    · cases h; exact .traps _ _
  case sret =>
    unfold execSret at h
    split at h
    · cases h; exact .traps _ _
    · cases h; exact .returns rfl ‹_›
  case sfenceVma rs1 rs2 =>
    unfold execSfenceVma at h
    split at h
    · cases h; exact .traps _ _
    · cases h; exact .fences _ _ ‹_›
  case fence => cases h; exact .retires
  all_goals exact csrInstr_effect h

theorem csrInstr_ne_fault {i : Instr} {num : CsrNum} {rd : Reg} {wr : Bool} {op : Word → Word} {s : State}
    {f : Fault} : csrInstr i num rd wr op s ≠ .fault f := by
  rcases csrInstr_cases i num rd wr op s with ⟨_, he⟩ | ⟨c, _, he⟩ <;> rw [he] <;> exact fun h => by cases h

/-- No instruction faults. -/
theorem exec_ne_fault (i : Instr) (s : State) (f : Fault) : exec i s ≠ .fault f := by
  intro h
  cases i <;> simp only [exec] at h
  case ecall => unfold execEcall at h; split at h <;> cases h
  case ebreak => cases h
  case uret => unfold execUret at h; split at h <;> cases h
  case sret => unfold execSret at h; split at h <;> cases h
  case sfenceVma => unfold execSfenceVma at h; split at h <;> cases h
  case fence => cases h
  all_goals exact csrInstr_ne_fault h

/-! ## Fetching -/

/-- What fetching may change: memory by A/D updates, kept canonical, the bytes a fetch may still return, the note
on reserved PTE contents, and the draws. -/
def FetchChange (s t : State) : Prop :=
  t = { s with mem := t.mem, oldBytes := t.oldBytes, reservedPte := t.reservedPte, draws := t.draws } ∧ (s.mem.wf = true → t.mem.wf = true)

theorem FetchChange.refl (s : State) : FetchChange s s := ⟨rfl, id⟩

theorem FetchChange.trans {s t u : State} (h : FetchChange s t) (h' : FetchChange t u) : FetchChange s u := by
  refine ⟨?_, fun hw => h'.2 (h.2 hw)⟩
  rw [h'.1, h.1]

theorem FetchChange.of_notes {s t : State} (h : NotesOnly s t) : FetchChange s t := by
  unfold NotesOnly at h
  refine ⟨by rw [h], fun hw => by rw [h]; exact hw⟩

theorem storeBytes_state (pa : Nat) (bs : List Byte) (s : State) :
    storeBytes pa bs s =
      { s with mem := (storeBytes pa bs s).mem, oldBytes := (storeBytes pa bs s).oldBytes } := by
  induction bs generalizing pa s with
  | nil => rfl
  | cons b bs ih => exact ih (pa + 1) (storeByte pa b s)

theorem commitUpdate_change (u : Option PteUpdate) (s : State) : FetchChange s (commitUpdate u s) := by
  refine ⟨?_, commitUpdate_wf u s⟩
  cases u with
  | none => rfl
  | some u =>
    rw [show commitUpdate (some u) s = storeBytes u.addr (leBytes u.new u.size) s from rfl, storeBytes_state]

theorem fetchBytes_state (pa n : Nat) (s : State) : NotesOnly s (fetchBytes pa n s).2 := by
  induction n generalizing pa s with
  | zero => rfl
  | succ n ih => exact (NotesOnly.of_or (fetchByte_state pa s)).trans (ih (pa + 1) _)

/-- An access that is carried out changes what a fetch may change. -/
theorem access_change {t : AccessType} {va : Word} {n pa : Nat} {s s1 : State} (h : access t va n s = .ok pa s1) :
    FetchChange s s1 := by
  have hm := access_meets t va n s
  rw [h] at hm
  obtain ⟨tr, s0, hd, -, -, -, rfl⟩ := hm
  exact (FetchChange.of_notes hd).trans (commitUpdate_change _ _)

theorem fetchPortion_meets (va : Word) (n : Nat) (s : State) :
    (fetchPortion va n s).Meets (fun _ s1 => FetchChange s s1) (FaultOf .fetch va s) := by
  unfold fetchPortion
  refine (access_meets .fetch va n s).andThen fun pa s1 h => ?_
  obtain ⟨tr, s0, hd, _, _, _, rfl⟩ := h
  exact (FetchChange.of_notes hd).trans
    ((commitUpdate_change _ _).trans (FetchChange.of_notes (fetchBytes_state _ _ _)))

theorem mayUndo_meets {α : Type} {s : State} {a : Access α} {P : α → State → Prop} {Q : Exc → Word → State → Prop}
    (h : a.Meets P Q) (hk : ∀ e tv s1, Q e tv s1 → Q e tv (drawn s1))
    (hu : ∀ e tv s1, Q e tv s1 → Q e tv (drawn { s with draws := s1.draws, reservedPte := s1.reservedPte })) : (mayUndo s a).Meets P Q := by
  cases a with
  | ok v s1 => exact h
  | raise e tv s1 =>
    unfold mayUndo
    simp only
    split
    · exact hk e tv s1 h
    · exact hu e tv s1 h
  | refuse r => exact h

/-- What a fetch can answer. -/
theorem fetch_meets (s : State) :
    (fetch s).Meets (fun _ s1 => FetchChange s s1)
      (fun e _ s1 => (e = .instrPageFault ∨ e = .instrAccessFault) ∧ FetchChange s s1) := by
  have hp : ∀ va n s0, (fetchPortion va n s0).Meets (fun _ s1 => FetchChange s0 s1)
      (fun e _ s1 => (e = .instrPageFault ∨ e = .instrAccessFault) ∧ FetchChange s0 s1) := fun va n s0 =>
    (fetchPortion_meets va n s0).mono (fun _ _ h => h) fun _ _ _ h => ⟨h.1, FetchChange.of_notes h.2.2⟩
  unfold fetch
  split
  · exact (hp _ _ s).andThen fun w s1 h => h
  · refine mayUndo_meets ?_ (fun e tv s1 h => ⟨h.1, h.2.trans (.of_notes rfl)⟩)
      fun e tv s1 h => ⟨h.1, .of_notes rfl⟩
    refine (hp _ _ s).andThen fun lo s1 h => ?_
    refine ((hp _ _ s1).mono (fun _ _ h2 => h.trans h2) fun _ _ _ h2 => ⟨h2.1, h.trans h2.2⟩).andThen
      fun hi s2 h2 => h2

theorem FetchMemory.congr {s s' t t' : State} (h : FetchMemory s t)
    (hs : s = { s' with turns := s.turns, draws := s.draws }) (hm : t'.mem = t.mem)
    (ho : t'.oldBytes = t.oldBytes) : FetchMemory s' t' := by
  have e1 : s.mem = s'.mem := by rw [hs]
  have e2 : s.oldBytes = s'.oldBytes := by rw [hs]
  have e3 : s.pc = s'.pc := by rw [hs]
  have e4 : s.cfg = s'.cfg := by rw [hs]
  have e5 : firstPortion s = firstPortion s' := by unfold firstPortion; rw [e3]
  unfold FetchMemory at *
  rw [hm, ho, ← e1, ← e2, ← e3, ← e4, ← e5]
  refine h.imp id fun ⟨s0, pa, s1, h0, h1⟩ => ⟨s0, pa, s1, ?_, h1⟩
  rw [h0, hs]

theorem FetchMemory.of_notes {s t : State} (h : NotesOnly s t) : FetchMemory s t := by
  unfold NotesOnly at h
  exact .inl ⟨by rw [h], by rw [h]⟩

/-- The memory a fetch leaves is that of its accesses. -/
theorem fetch_memory (s : State) :
    (fetch s).Meets (fun _ s1 => FetchMemory s s1) (fun _ _ s1 => FetchMemory s s1) := by
  have hportion : ∀ n, n = firstPortion s → (fetchPortion s.pc n s).Meets
      (fun _ s1 => FetchMemory s s1 ∧ ∃ pa s0, access .fetch s.pc n s = .ok pa s0 ∧ NotesOnly s0 s1)
      (fun _ _ s1 => FetchMemory s s1) := by
    rintro n rfl
    have hm := access_meets .fetch s.pc (firstPortion s) s
    unfold fetchPortion
    cases ha : access .fetch s.pc (firstPortion s) s with
    | ok pa s1 =>
      have hn := fetchBytes_state pa (firstPortion s) s1
      refine ⟨?_, pa, s1, rfl, hn⟩
      unfold NotesOnly at hn
      show FetchMemory s (fetchBytes pa (firstPortion s) s1).2
      rw [hn]
      exact .inr ⟨s, pa, s1, rfl, ha, .inl ⟨rfl, rfl⟩⟩
    | raise e tv s1 => rw [ha] at hm; exact .of_notes hm.2.2
    | refuse r => rw [ha] at hm; exact hm
  unfold fetch
  split
  · rename_i hpc
    exact (hportion 4 (by unfold firstPortion; rw [if_pos hpc])).andThen fun w s1 h => h.1
  · rename_i hpc
    have hfp : 2 = firstPortion s := by unfold firstPortion; rw [if_neg hpc]
    refine mayUndo_meets ?_ (fun e tv s1 h => h.congr rfl rfl rfl) fun e tv s1 _ => .of_notes rfl
    refine (hportion 2 hfp).andThen fun lo s2 h => ?_
    obtain ⟨h, pa, s1, ha, hn⟩ := h
    have hc := access_change ha
    have e1 : s2.cfg = s.cfg := by unfold NotesOnly at hn; rw [hn, hc.1]
    have e2 : s2.pc = s.pc := by unfold NotesOnly at hn; rw [hn, hc.1]
    rw [e1, e2]
    have hm := access_meets .fetch (truncX s.cfg.sxlen (s.pc + 2)) 2 s2
    unfold fetchPortion
    cases hb : access .fetch (truncX s.cfg.sxlen (s.pc + 2)) 2 s2 with
    | ok pa' s3 =>
      have hn3 := fetchBytes_state pa' 2 s3
      unfold NotesOnly at hn3
      show FetchMemory s (fetchBytes pa' 2 s3).2
      rw [hn3]
      exact .inr ⟨s, pa, s1, rfl, hfp ▸ ha, .inr ⟨s2, pa', s3, hpc, hn, hb, rfl, rfl⟩⟩
    | raise e tv s3 =>
      rw [hb] at hm
      have h3 := hm.2.2
      unfold NotesOnly at h3
      show FetchMemory s s3
      rw [h3]; exact h.congr rfl rfl rfl
    | refuse r => rw [hb] at hm; exact hm

/-! ## Steps -/

/-- The states a turn of the hart that executes can end in. -/
inductive ExecuteEffect (s : State) : State → Prop where
  /-- The fetch raises an exception. -/
  | fetchTraps (e : Exc) (tval : Word) (s1 : State) (h : FetchChange s s1) (hm : FetchMemory s s1) :
      ExecuteEffect s (trapToS (.exception e) tval s1.pc s1)
  /-- The word is no instruction. -/
  | illegal (w : BitVec 32) (s1 : State) (h : FetchChange s s1) (hm : FetchMemory s s1) :
      ExecuteEffect s (raiseIllegal w s1)
  /-- The instruction executes. -/
  | executes (i : Instr) (s1 t : State) (h : FetchChange s s1) (hm : FetchMemory s s1) (he : InstrEffect i s1 t) :
      ExecuteEffect s t

theorem executeWord_effect {s s1 t : State} {w : BitVec 32} (hf : FetchChange s s1) (hm : FetchMemory s s1)
    (h : executeWord w s1 = .next t) : ExecuteEffect s t := by
  unfold executeWord at h
  split at h
  · exact .executes _ s1 t hf hm (exec_effect h)
  · cases h
  · cases h; exact .illegal w s1 hf hm
  · cases h; exact .illegal w s1 hf hm
  · cases h; exact .illegal w s1 hf hm

theorem executeNext_effect {s t : State} (h : executeNext s = .next t) : ExecuteEffect s t := by
  have hm := fetch_meets s
  have hmem := fetch_memory s
  unfold executeNext at h
  split at h
  · split at h
    · rename_i w s1 hf
      rw [hf] at hm hmem
      exact executeWord_effect hm hmem h
    · rename_i e tv s1 hf
      rw [hf] at hm hmem
      cases h
      exact .fetchTraps e tv s1 hm.2 hmem
    · cases h
  · cases h

/-- The states a step can end in; `rest` is what is left of the turns, `d` the number of the next draw. -/
inductive StepEffect (s : State) : State → Prop where
  /-- The hart takes an interrupt. -/
  | interrupted (i : Interrupt) (rest : List Turn) (d : Nat) (h : takeable i s = true) :
      StepEffect s (takeInterrupt i { s with turns := rest, draws := d })
  /-- The hart executes. -/
  | executed (rest : List Turn) (d : Nat) (t : State) (h : ExecuteEffect { s with turns := rest, draws := d } t) :
      StepEffect s t
  /-- Another agent moves. -/
  | agent (a : AgentStep) (rest : List Turn) : StepEffect s (agentStep a { s with turns := rest })

theorem firstTakeable_takeable {s : State} {i : Interrupt} (h : firstTakeable s = some i) : takeable i s = true :=
  List.find?_some (p := fun i => takeable i s) h

/-- Every next state of a step is one of these. -/
theorem step_effect {s t : State} (h : step s = .next t) : StepEffect s t := by
  unfold step takeTurn at h
  split at h
  · rename_i hturns
    unfold hartTurn at h
    have hs : s = { s with turns := [] } := by cases s; simp_all
    split at h
    · rename_i i hi
      split at h
      · cases h
        have := StepEffect.interrupted (s := s) i [] (s.draws + 1) (firstTakeable_takeable hi)
        rw [← hturns] at this; exact this
      · have := StepEffect.executed (s := s) s.turns (s.draws + 1) t (executeNext_effect h)
        exact this
    · exact StepEffect.executed (s := s) s.turns s.draws t (executeNext_effect h)
  · exact .executed _ s.draws t (executeNext_effect h)
  · rename_i rest _
    unfold hartTurnInterrupted at h
    split at h
    · rename_i i hi
      cases h
      exact .interrupted i rest s.draws (firstTakeable_takeable hi)
    · exact .executed rest s.draws t (executeNext_effect h)
  · cases h; exact .agent _ _

end Sys2Proof.Machine
end

