-- ==== Sys2Proof/Laws/Legal.lean ====
section
/-! SUPPORT. What each operation keeps of a legal state (Safety.lean), said once per operation. -/

namespace Sys2Proof.Machine

/-! ## Values -/

theorem truncX_and_mask (xl : Xlen) (v w : Word) : truncX xl (truncX xl v &&& w) = truncX xl v &&& w := by
  cases xl
  · simp only [truncX]; ext i hi; simp only [BitVec.getElem_and]; cases v[i] <;> cases w[i] <;> simp
  · rfl

theorem legalSepc_fits (c : Config) (v : Word) : fitsX c.sxlen (legalSepc c v) :=
  truncX_and_mask _ _ _

theorem legalSepc_idem (c : Config) (v : Word) : legalSepc c (legalSepc c v) = legalSepc c v := by
  show truncX _ (legalSepc c v) &&& _ = _
  rw [show truncX c.sxlen (legalSepc c v) = legalSepc c v from legalSepc_fits c v]
  unfold legalSepc
  rw [BitVec.and_assoc, BitVec.and_self]

theorem toNat_mod_four (v : Word) : v.toNat % 4 = (v.extractLsb' 0 2).toNat := by
  simp [BitVec.extractLsb'_toNat]

theorem toNat_mod_two (v : Word) : v.toNat % 2 = (v.extractLsb' 0 1).toNat := by
  simp [BitVec.extractLsb'_toNat]

theorem extractLsb'_and {w n : Nat} (a b : BitVec w) (i : Nat) :
    (a &&& b).extractLsb' i n = a.extractLsb' i n &&& b.extractLsb' i n := by
  ext k hk; simp

theorem extractLsb'_or {w n : Nat} (a b : BitVec w) (i : Nat) :
    (a ||| b).extractLsb' i n = a.extractLsb' i n ||| b.extractLsb' i n := by
  ext k hk; simp

/-- The saved pc as it reads is an aligned address (41_trap_return.md R221). -/
theorem legalSepc_aligned (c : Config) (v : Word) : alignedPc c (legalSepc c v) = true := by
  unfold alignedPc legalSepc
  cases c.ialign16
  · simp only [Bool.false_eq_true, if_false, toNat_mod_four, extractLsb'_and,
      show (~~~3 : Word).extractLsb' 0 2 = 0#2 by decide, BitVec.and_zero]
    rfl
  · simp only [if_true, toNat_mod_two, extractLsb'_and, show (~~~1 : Word).extractLsb' 0 1 = 0#1 by decide,
      BitVec.and_zero]
    rfl

theorem truncX_toNat (xl : Xlen) (v : Word) : (truncX xl v).toNat = v.toNat % 2 ^ xl.bits := by
  cases xl
  · exact (BitVec.toNat_and v 0xFFFFFFFF#64).trans (Nat.and_two_pow_sub_one_eq_mod v.toNat 32)
  · exact (Nat.mod_eq_of_lt v.isLt).symm

/-- Wrapping a value to SXLEN bits does not change its two low bits. -/
theorem truncX_mod_four (xl : Xlen) (v : Word) : (truncX xl v).toNat % 4 = v.toNat % 4 := by
  rw [truncX_toNat]
  cases xl
  · exact Nat.mod_mod_of_dvd _ (by decide)
  · exact Nat.mod_mod_of_dvd _ (by decide)

theorem alignedPc_of_mod_four {c : Config} {v : Word} (h : v.toNat % 4 = 0) : alignedPc c v = true := by
  unfold alignedPc; split <;> simp only [decide_eq_true_eq] <;> omega

/-- The instruction behind an aligned one is aligned (10_state.md R22). -/
theorem nextPc_aligned {c : Config} {v : Word} (h : alignedPc c v = true) :
    alignedPc c (truncX c.sxlen (v + 4)) = true := by
  have hm := truncX_mod_four c.sxlen (v + 4)
  have ha : (v + 4).toNat % 4 = v.toNat % 4 := by
    rw [BitVec.toNat_add]; show (v.toNat + 4) % 2 ^ 64 % 4 = _; omega
  rw [ha] at hm
  unfold alignedPc at *
  split at h <;> rename_i hi <;> simp only [hi, if_true, Bool.false_eq_true, if_false, decide_eq_true_eq] at * <;> omega

/-- A trap vector is aligned: BASE is, and the offset is a multiple of 4 (10_state.md R41, R42). -/
theorem trapPc_aligned (c : Config) (base : Word) (cause : Cause) : alignedPc c (trapPc c.sxlen base cause) = true := by
  apply alignedPc_of_mod_four
  have hb : (tvecBase base).toNat % 4 = 0 := by
    unfold tvecBase
    rw [toNat_mod_four, extractLsb'_and, show (~~~3 : Word).extractLsb' 0 2 = 0#2 by decide, BitVec.and_zero]
    rfl
  cases cause with
  | exception e => exact (truncX_mod_four _ _).trans hb
  | interrupt i =>
    unfold trapPc
    simp only
    split
    · rw [truncX_mod_four, BitVec.toNat_add, BitVec.toNat_ofNat]
      omega
    · exact (truncX_mod_four _ _).trans hb

theorem trapPc_fits (xl : Xlen) (base : Word) (cause : Cause) : fitsX xl (trapPc xl base cause) := by
  unfold trapPc
  cases cause with
  | exception e => exact truncX_truncX _ _
  | interrupt i => simp only; split <;> exact truncX_truncX _ _

theorem causeWord_fits (xl : Xlen) (cause : Cause) : fitsX xl (causeWord xl cause) := by
  unfold fitsX
  cases xl <;> rcases cause with i | e
  · cases i <;> decide
  · cases e <;> decide
  · rfl
  · rfl

/-! ## CSR writes -/

/-- Every CSR write leaves legal CSRs, whatever the value (10_state.md R39 to R76). -/
theorem csrWrite_legal (c : Csr) (v : Word) {s : State} (h : CsrsLegal s) : CsrsLegal (csrWrite c v s) := by
  obtain ⟨hu, ht, hp, hc, h1, h2, h3, h4⟩ := h
  cases c with
  | sstatus =>
    refine ⟨fun hn => ?_, ht, hp, hc, h1, h2, h3, h4⟩
    have hn' : s.cfg.hasN = false := hn
    obtain ⟨-, -, r⟩ := hu hn'
    exact ⟨by simp [csrWrite, sstatusOfWord, hn'], by simp [csrWrite, sstatusOfWord, hn'], r⟩
  | sie =>
    refine ⟨fun hn => ?_, ht, hp, hc, h1, h2, h3, h4⟩
    have hn' : s.cfg.hasN = false := hn
    obtain ⟨r1, r2, -, -, -, r⟩ := hu hn'
    exact ⟨r1, r2, by simp [csrWrite, sieOfWord, hn'], by simp [csrWrite, sieOfWord, hn'],
      by simp [csrWrite, sieOfWord, hn'], r⟩
  | sip =>
    refine ⟨fun hn => ?_, ht, hp, hc, h1, h2, h3, h4⟩
    have hn' : s.cfg.hasN = false := hn
    obtain ⟨r1, r2, r3, r4, r5, r6, r7, r8⟩ := hu hn'
    exact ⟨r1, r2, r3, r4, r5, by simp [csrWrite, sipOfWord, hn', r6], r7, by simp [csrWrite, sipOfWord, hn', r8]⟩
  | stvec =>
    refine ⟨hu, ?_, hp, hc, h1, h2, h3, h4⟩
    show fitsX s.cfg.sxlen (stvecOfWord s.cfg s.stvec v) ∧ _
    show _ ∧ (((stvecOfWord s.cfg s.stvec v).extractLsb' 0 2 = 0 ∧ _) ∨
      ((stvecOfWord s.cfg s.stvec v).extractLsb' 0 2 = 1 ∧ _))
    unfold stvecOfWord
    split
    · rename_i hm
      refine ⟨truncX_and_mask _ _ _, .inl ⟨?_, by simpa using hm.2⟩⟩
      rw [extractLsb'_and, show (~~~3 : Word).extractLsb' 0 2 = 0#2 by decide, BitVec.and_zero]
      rfl
    · split
      · rename_i hm
        refine ⟨?_, .inr ⟨?_, by simpa using hm.2⟩⟩
        · rw [BitVec.and_assoc]
          unfold fitsX
          generalize (~~~(BitVec.ofNat 64 (s.cfg.stvecVecAlign - 1)) &&& ~~~3 : Word) = w
          have hw := truncX_and_mask s.cfg.sxlen v w
          generalize truncX s.cfg.sxlen v &&& w = u at hw ⊢
          cases hx : s.cfg.sxlen
          · rw [hx] at hw
            simp only [truncX] at hw ⊢
            have hd : ∀ a b c : Word, (a ||| b) &&& c = (a &&& c) ||| (b &&& c) := by
              intro a b c; ext i hi
              simp only [BitVec.getElem_and, BitVec.getElem_or]
              exact Bool.and_or_distrib_right _ _ _
            rw [hd, hw]
            rfl
          · rfl
        · rw [extractLsb'_or, extractLsb'_and _ (~~~3 : Word),
            show (~~~3 : Word).extractLsb' 0 2 = 0#2 by decide, BitVec.and_zero, BitVec.zero_or]
          rfl
      · exact ht
  | scounteren =>
    refine ⟨hu, ht, hp, ?_, h1, h2, h3, h4⟩
    show (v.setWidth 32 &&& s.cfg.scounterenMask) &&& ~~~s.cfg.scounterenMask = 0
    rw [BitVec.and_assoc, BitVec.and_not_self]; simp
  | sscratch => exact ⟨hu, ht, hp, hc, truncX_truncX _ _, h2, h3, h4⟩
  | sepc => exact ⟨hu, ht, hp, hc, h1, legalSepc_idem _ _, h3, h4⟩
  | scause => exact ⟨hu, ht, hp, hc, h1, h2, truncX_truncX _ _, h4⟩
  | stval => exact ⟨hu, ht, hp, hc, h1, h2, h3, truncX_truncX _ _⟩
  | satp =>
    refine ⟨hu, ht, ?_, hc, h1, h2, h3, h4⟩
    show satpSupported s.cfg (satpOfWord s.cfg s.satp v).mode = true ∧
      (satpOfWord s.cfg s.satp v).asid &&& _ = 0 ∧ (satpOfWord s.cfg s.satp v).ppn &&& _ = 0
    unfold satpOfWord
    split
    · exact hp
    · split
      · rename_i m _ hm
        refine ⟨hm, ?_, ?_⟩
        · show satpAsidField s.cfg v &&& ~~~(BitVec.ofNat 16 (2 ^ s.cfg.asidLen - 1)) = 0
          unfold satpAsidField; split <;> (rw [BitVec.and_assoc, BitVec.and_not_self]; simp)
        · show satpPpnField s.cfg v &&& ~~~(BitVec.ofNat 44 (2 ^ (s.cfg.paLen - 12) - 1)) = 0
          unfold satpPpnField; split <;> (rw [BitVec.and_assoc, BitVec.and_not_self]; simp)
      · exact hp
  | counter n => exact ⟨hu, ht, hp, hc, h1, h2, h3, h4⟩
  | counterHigh n => exact ⟨hu, ht, hp, hc, h1, h2, h3, h4⟩

/-! ## The cache -/

theorem tcInsert_legal {e : TcEntry} {s : State} (h : CacheLegal s) (he : pteValid e.pte = true) :
    CacheLegal (tcInsert e s) := by
  unfold tcInsert
  split
  · exact h
  · intro d hd
    rcases List.mem_cons.1 hd with rfl | hd
    · exact he
    · exact h d hd

theorem evict_legal (k : Nat) {s : State} (h : CacheLegal s) : CacheLegal (evict k s) :=
  fun e he => h e (List.mem_of_mem_eraseIdx he)

theorem fenceTc_legal (va : Option Word) (asid : Option (BitVec 16)) {s : State} (h : CacheLegal s) :
    CacheLegal (fenceTc va asid s) :=
  fun e he => h e (List.mem_filter.1 he).1

end Sys2Proof.Machine
end

