-- ==== Sys2Proof/Laws/PerInstr.lean ====
section
/-! SUPPORT. Facts about every instruction as syntax, one lemma per constructor. -/

namespace Sys2Proof.Laws

/-- The word of an instruction is 32 bits with the low two bits set: it can be told from a 16-bit one
(30_encoding.md R180). -/
def LowBits.Statement (i : Instr) : Prop :=
  (encode i).extractLsb' 0 2 = 0b11#2

/-- The low two bits of an assembled word are those of its opcode. -/
theorem assemble_low_bits (imm : BitVec 12) (rs1 : BitVec 5) (funct3 : BitVec 3) (rd : BitVec 5)
    (opcode : BitVec 7) : (assemble imm rs1 funct3 rd opcode).extractLsb' 0 2 = opcode.extractLsb' 0 2 := by
  ext k hk
  have h : k < 7 := by omega
  have e : (assemble imm rs1 funct3 rd opcode).getLsbD k = opcode.getLsbD k :=
    (BitVec.getLsbD_append (x := imm ++ rs1 ++ funct3 ++ rd) (y := opcode)).trans (by simp [h])
  simp only [BitVec.getElem_extractLsb', Nat.zero_add, e]

theorem LowBits.ecall : LowBits.Statement .ecall := by unfold Statement; decide
theorem LowBits.ebreak : LowBits.Statement .ebreak := by unfold Statement; decide
theorem LowBits.uret : LowBits.Statement .uret := by unfold Statement; decide
theorem LowBits.sret : LowBits.Statement .sret := by unfold Statement; decide
theorem LowBits.sfenceVma (rs1 rs2 : Reg) : LowBits.Statement (.sfenceVma rs1 rs2) := assemble_low_bits ..
theorem LowBits.csrrw (rd : Reg) (csr : CsrNum) (rs1 : Reg) : LowBits.Statement (.csrrw rd csr rs1) :=
  assemble_low_bits ..
theorem LowBits.csrrs (rd : Reg) (csr : CsrNum) (rs1 : Reg) : LowBits.Statement (.csrrs rd csr rs1) :=
  assemble_low_bits ..
theorem LowBits.csrrc (rd : Reg) (csr : CsrNum) (rs1 : Reg) : LowBits.Statement (.csrrc rd csr rs1) :=
  assemble_low_bits ..
theorem LowBits.csrrwi (rd : Reg) (csr : CsrNum) (uimm : Nat) : LowBits.Statement (.csrrwi rd csr uimm) :=
  assemble_low_bits ..
theorem LowBits.csrrsi (rd : Reg) (csr : CsrNum) (uimm : Nat) : LowBits.Statement (.csrrsi rd csr uimm) :=
  assemble_low_bits ..
theorem LowBits.csrrci (rd : Reg) (csr : CsrNum) (uimm : Nat) : LowBits.Statement (.csrrci rd csr uimm) :=
  assemble_low_bits ..
theorem LowBits.fence (pred succ : FenceSet) : LowBits.Statement (.fence pred succ) := assemble_low_bits ..

end Sys2Proof.Laws
end

