-- ==== Sys2Proof/Tests/Slice0.lean ====
section
/-! SUPPORT. The author's own tests. Words and expected values come from 95_test_vectors.md (the vector's name
stands in the docstring) or are worked by hand from the rule named; the witnesses show for every statement with
hypotheses a state and operands that meet them. -/

namespace Sys2Proof.Tests

open Sys2Proof Sys2Proof.Machine

/-! ## Small states -/

/-- Does the outcome go on, with a state that passes a check? -/
def onNext (o : Host.Outcome State Fault Refusal) (p : State → Bool) : Bool :=
  match o with
  | .next t => p t
  | .fault _ => false
  | .refused _ => false

/-- Does the outcome stop with this refusal? -/
def refusedBy (o : Host.Outcome State Fault Refusal) (r : Refusal) : Bool :=
  match o with
  | .next _ => false
  | .fault _ => false
  | .refused q => decide (q = r)

/-- Does an access raise this exception with this trap value? -/
def raises {α : Type} (a : Access α) (e : Exc) (tval : Word) : Bool :=
  match a with
  | .ok _ _ => false
  | .raise e' tval' _ => decide (e' = e ∧ tval' = tval)
  | .refuse _ => false

/-- Does an access answer a value that passes a check? -/
def answers {α : Type} (a : Access α) (p : α → Bool) : Bool :=
  match a with
  | .ok v _ => p v
  | .raise _ _ _ => false
  | .refuse _ => false

/-- The state after reset, in U-mode at 0x1000 with a handler at 0x80000000. -/
def user : State := { State.reset with priv := .user, pc := 0x1000, stvec := 0x80000000 }

/-- SXLEN = 64 with Sv39 and Sv48. -/
def wideCfg : Config :=
  { Config.vectors with
    sxlen := .rv64, satpModes := [.bare, .sv39, .sv48], asidLen := 16, paLen := 56, stvecVecAlign := 256,
    physRegions := [{ base := 0, size := 2 ^ 56, types := [.fetch, .load, .store], privs := [.user, .supervisor],
                      widths := [1, 2, 4, 8] }] }

def wide : State := State.resetFor wideCfg

/-- With the N extension. -/
def withN : State := State.resetFor { Config.vectors with hasN := true }

/-- Words laid out in empty memory. -/
def memoryOf : List (Nat × BitVec 32) → Memory
  | [] => []
  | (a, w) :: rest => placeBytes a (bytesOfWord w) (memoryOf rest)

/-- Section 2.8's machine: Sv32, root table at 0x80000000, its PTE 1 as a pointer to the table at 0x80001000,
whose PTE 1 is given. -/
def paged (scheme : AdScheme) (leaf : BitVec 32) : State :=
  { State.reset with
    cfg := { Config.vectors with adScheme := scheme }
    satp := { mode := .sv32, asid := 0, ppn := 0x80000 }
    mem := memoryOf [(0x80000004, 0x20000401), (0x80001004, leaf)] }

/-- Sv39 with a root table at 0x80000000 holding one 64-bit PTE. -/
def paged39 (at_ : Nat) (pte : Word) : State :=
  { wide with
    satp := { mode := .sv39, asid := 5, ppn := 0x80000 }
    mem := placeBytes at_ (leBytes pte 8) [] }

/-- The five cache entries of section 2.2. -/
def e1 : TcEntry := ⟨1, false, 0, 0x401, 0x80001004, 0x200008CF⟩
def e2 : TcEntry := ⟨1, false, 1, 0x001, 0x80000004, 0x20000401⟩
def e3 : TcEntry := ⟨2, false, 0, 0x401, 0x80001004, 0x200008CF⟩
def e4 : TcEntry := ⟨1, true, 0, 0xC00, 0x80003000, 0x200008EF⟩
def e5 : TcEntry := ⟨1, false, 0, 0x402, 0x80001008, 0x200008CF⟩

/-- Section 2.2's machine, `x10` and `x11` given. -/
def cached (x10 x11 : Word) : State :=
  { State.reset with
    satp := { mode := .sv32, asid := 1, ppn := 0x80000 }
    x := (State.reset.x.set 10 x10).set 11 x11
    tc := [e1, e2, e3, e4, e5] }

/-! ## WellFormed: each check refuses an ill-formed term -/

theorem test_wf_refuses_uimm_csrrwi : Instr.wf (.csrrwi 1 0x140 32) = false := by decide
theorem test_wf_refuses_uimm_csrrsi : Instr.wf (.csrrsi 1 0x140 32) = false := by decide
theorem test_wf_refuses_uimm_csrrci : Instr.wf (.csrrci 1 0x140 32) = false := by decide
theorem test_wf_accepts_all_else : Instr.wf (.csrrwi 1 0x140 31) = true ∧ Instr.wf .ecall = true ∧
    Instr.wf (.sfenceVma 31 31) = true ∧ Instr.wf (.csrrc 31 0xFFF 31) = true ∧
    Instr.wf (.fence ⟨true, true, true, true⟩ ⟨false, false, false, false⟩) = true := by decide

theorem test_cfg_wf : Config.vectors.wf = true ∧ wideCfg.wf = true := by decide
theorem test_cfg_wf_wants_bare : Config.wf { Config.vectors with satpModes := [.sv32] } = false := by decide
theorem test_cfg_wf_refuses_wide_scheme : Config.wf { Config.vectors with satpModes := [.bare, .sv39] } = false := by
  decide
theorem test_cfg_wf_refuses_asidLen : Config.wf { Config.vectors with asidLen := 10 } = false := by decide
theorem test_cfg_wf_refuses_paLen : Config.wf { Config.vectors with paLen := 35 } = false ∧
    Config.wf { Config.vectors with paLen := 11 } = false := by decide
theorem test_cfg_wf_wants_tvec_mode : Config.wf { Config.vectors with stvecModes := [] } = false := by decide
theorem test_cfg_wf_refuses_alignment : Config.wf { Config.vectors with stvecVecAlign := 256 } = false ∧
    Config.wf { Config.vectors with stvecVecAlign := 48 } = false := by decide
theorem test_cfg_wf_refuses_entry : Config.wf { Config.vectors with entryPc := 0x80000002 } = false ∧
    Config.wf { Config.vectors with entryPc := 0x100000000 } = false := by decide
theorem test_cfg_wf_refuses_ilenMax : Config.wf { Config.vectors with ilenMax := 16 } = false := by decide
theorem test_cfg_wf_refuses_nharts : Config.wf { Config.vectors with nharts := 0 } = false := by decide
theorem test_cfg_wf_wants_every_interrupt :
    Config.wf { Config.vectors with intPriority := [.supervisorExternal] } = false := by decide

/-! ## Decoding: words of 95_test_vectors.md section 2.1 -/

/-- V-ENC-1 to V-ENC-4: all 32 bits fixed. -/
theorem test_decode_fixed : decodeWord 0x00000073 = .ok .ecall ∧ decodeWord 0x00100073 = .ok .ebreak ∧
    decodeWord 0x00200073 = .ok .uret ∧ decodeWord 0x10200073 = .ok .sret := by decide

/-- V-ENC-6, 7, 9: funct7 0001001, rs2 `asid`, rs1 `vaddr`, rd 0. -/
theorem test_decode_sfence : decodeWord 0b0001001_00000_01010_000_00000_1110011 = .ok (.sfenceVma 10 0) ∧
    decodeWord 0x12B00073 = .ok (.sfenceVma 0 11) ∧ decodeWord 0x12528073 = .ok (.sfenceVma 5 5) := by decide

/-- V-ENC-10 to V-ENC-12 and V-ENC-16, the first bit by bit. -/
theorem test_decode_csr_register :
    decodeWord 0b000101000000_01010_001_01010_1110011 = .ok (.csrrw 10 0x140 10) ∧
      decodeWord 0x1002A073 = .ok (.csrrs 0 0x100 5) ∧ decodeWord 0x1442B073 = .ok (.csrrc 0 0x144 5) ∧
      decodeWord 0x18029073 = .ok (.csrrw 0 0x180 5) := by decide

/-- V-ENC-13 to V-ENC-15, the last bit by bit. -/
theorem test_decode_csr_immediate : decodeWord 0x1063D073 = .ok (.csrrwi 0 0x106 7) ∧
    decodeWord 0x10016073 = .ok (.csrrsi 0 0x100 2) ∧
    decodeWord 0b000100000000_00010_111_00101_1110011 = .ok (.csrrci 5 0x100 2) := by decide

/-- V-ENC-20, V-ENC-21, and a set of each kind bit by bit: pred I, succ O. -/
theorem test_decode_fence :
    decodeWord 0x0330000F = .ok (.fence ⟨false, false, true, true⟩ ⟨false, false, true, true⟩) ∧
      decodeWord 0x0FF0000F = .ok (.fence ⟨true, true, true, true⟩ ⟨true, true, true, true⟩) ∧
      decodeWord 0b0000_1000_0100_00000_000_00000_0001111 =
        .ok (.fence ⟨true, false, false, false⟩ ⟨false, true, false, false⟩) := by decide

/-- The byte columns of V-ENC-8 and V-ENC-15. -/
theorem test_decode_bytes : decode [0x73, 0x00, 0xB5, 0x12] = .ok (.sfenceVma 10 11, []) ∧
    decode [0xF3, 0x72, 0x01, 0x10, 0xAA] = .ok (.csrrci 5 0x100 2, [0xAA]) := by decide

/-- V-ENC-30 to V-ENC-36, and bytes too few for a word. -/
theorem test_decode_rejects : decodeWord 0x120000F3 = .error .undefinedSystem ∧
    decodeWord 0x10208073 = .error .undefinedSystem ∧ decodeWord 0x000000F3 = .error .undefinedSystem ∧
    decodeWord 0x10400073 = .error .undefinedSystem ∧ decodeWord 0x10004073 = .error .undefinedSystem ∧
    decodeWord 0x10500073 = .error .higherLevel ∧ decodeWord 0x30200073 = .error .higherLevel ∧
    decodeWord 0x00000013 = .error .noRule ∧ decode [0x73, 0x00, 0x00] = .error .tooShort := by decide

/-- The host's two doors: the first instruction of P1 is decoded and run from reset. -/
theorem test_host_doors : decodeTableWord 32 0x10529073 = some (.csrrw 0 0x105 5) ∧
    onNext (step (State.reset.withFetchWord 32 0x14051573)) (fun t => decide (t.pc = 0x80000004)) = true := by
  decide

/-! ## One step of each instruction -/

/-- V-ENV-1. -/
theorem test_ecall_user :
    onNext (exec .ecall { user with sstatus := sstatusOfWord user.cfg 0x22 }) (fun t =>
      decide (t.priv = .supervisor ∧ t.sepc = 0x1000 ∧ t.scause = 8 ∧ t.stval = 0 ∧ t.pc = 0x80000000 ∧
        (csrRead .sstatus t).1 = 0x20)) = true := by decide

/-- V-ENV-2. -/
theorem test_ecall_supervisor :
    onNext (exec .ecall { State.reset with pc := 0x80000100 }) (fun t =>
      decide (t.priv = .supervisor ∧ t.pc = 0x80000104 ∧ t.sepc = 0 ∧ t.scause = 0)) = true := by decide

/-- V-ENV-3. -/
theorem test_ebreak_supervisor :
    onNext (exec .ebreak { State.reset with pc := 0x80000100, stvec := 0x80000000, sstatus := sstatusOfWord user.cfg 2 })
      (fun t => decide (t.sepc = 0x80000100 ∧ t.scause = 3 ∧ t.stval = 0 ∧ t.pc = 0x80000000 ∧
        (csrRead .sstatus t).1 = 0x120)) = true := by decide

/-- V-ENV-4. -/
theorem test_ebreak_user :
    onNext (exec .ebreak { user with pc := 0x1004, sstatus := sstatusOfWord user.cfg 0x20 })
      (fun t => decide (t.sepc = 0x1004 ∧ t.scause = 3 ∧ t.priv = .supervisor ∧ (csrRead .sstatus t).1 = 0)) = true := by
  decide

/-- V-RET-8, V-RET-9. -/
theorem test_uret : onNext (exec .uret State.reset) (fun t => decide (t.scause = 2 ∧ t.sepc = 0x80000000)) = true ∧
    refusedBy (exec .uret withN) .uretWithN = true := by decide

/-- V-RET-1 and V-RET-5. -/
theorem test_sret_returns :
    onNext (exec .sret { State.reset with sepc := 0x80001000, sstatus := sstatusOfWord user.cfg 0x20 }) (fun t =>
        decide (t.priv = .user ∧ t.pc = 0x80001000 ∧ (csrRead .sstatus t).1 = 0x22)) = true ∧
      onNext (exec .sret { State.reset with sepc := 0x80001000, sstatus := sstatusOfWord user.cfg 0xC0122 }) (fun t =>
        decide (t.priv = .supervisor ∧ t.pc = 0x80001000 ∧ (csrRead .sstatus t).1 = 0xC0022)) = true := by decide

/-- V-RET-6. -/
theorem test_sret_user : onNext (exec .sret user) (fun t => decide (t.scause = 2 ∧ t.sepc = 0x1000)) = true := by
  decide

/-- V-SF-1, V-SF-4 and V-SF-7: what must be gone is gone. -/
theorem test_sfence_removes :
    onNext (exec (.sfenceVma 0 0) (cached 0 0)) (fun t => decide (t.tc = [] ∧ t.pc = 0x80000004)) = true ∧
      covered .sv32 (some 0x00401ABC) (some 1) e1 = true ∧
      asidSelector 11 (cached 0 0xFFFFFE01) = some 1 := by decide

/-- V-SF-2 to V-SF-6 and V-SF-8: what need not go, and V-TRAP-7. -/
theorem test_sfence_spares :
    ([e1, e2, e3, e4, e5].map (covered .sv32 none (some 1))) = [true, true, false, false, true] ∧
      ([e1, e2, e3, e4, e5].map (covered .sv32 (some 0x00401ABC) none)) = [true, false, true, false, false] ∧
      ([e1, e2, e3, e4, e5].map (covered .sv32 (some 0x00C00000) (some 1))) = [false, false, false, false, false] ∧
      ([e1, e2, e3, e4, e5].map (covered .sv32 (some 0x00C00000) none)) = [false, false, false, true, false] ∧
      ([e1, e2, e3, e4, e5].map (covered .sv32 (some 0) (some 0))) = [false, false, false, false, false] ∧
      onNext (exec (.sfenceVma 0 0) { user with pc := 0x2000, cfg := { user.cfg with stvalInsn := true } }) (fun t =>
        decide (t.scause = 2 ∧ t.stval = 0x12000073 ∧ t.sepc = 0x2000)) = true := by decide

/-- V-CSR-1 and V-CSR-6. -/
theorem test_csrrw :
    onNext (exec (.csrrw 10 0x140 10) { State.reset with sscratch := 0x2222, x := State.reset.x.set 10 0x1111 }) (fun t =>
        decide (getX 10 t = 0x2222 ∧ t.sscratch = 0x1111)) = true ∧
      onNext (exec (.csrrw 5 0x105 6) { State.reset with stvec := 0x80000100, x := State.reset.x.set 6 0x800001FD })
        (fun t => decide (getX 5 t = 0x80000100 ∧ (csrRead .stvec t).1 = 0x80000181)) = true := by decide

/-- V-CSR-12 with ASIDLEN 4, V-CSR-14, V-CSR-16. -/
theorem test_csrrw_satp :
    onNext (exec (.csrrw 5 0x180 6)
        { State.reset with cfg := { Config.vectors with asidLen := 4 }, x := State.reset.x.set 6 0x7FC00000 }) (fun t =>
        decide (getX 5 t = 0 ∧ (csrRead .satp t).1 = 0x03C00000)) = true ∧
      onNext (exec (.csrrw 5 0x180 6)
        { wide with
          cfg := { wideCfg with satpModes := [.bare, .sv39] }, satp := { mode := .sv39, asid := 5, ppn := 0x80000 }
          x := wide.x.set 6 0x9000600000090000 }) (fun t =>
        decide (getX 5 t = 0x8000500000080000 ∧ (csrRead .satp t).1 = 0x8000500000080000)) = true ∧
      onNext (exec (.csrrw 0 0x180 5)
        { State.reset with cfg := { Config.vectors with paLen := 32 }, x := State.reset.x.set 5 0x803FFFFF }) (fun t =>
        decide ((csrRead .satp t).1 = 0x800FFFFF)) = true := by decide

/-- V-CSR-11 and V-CSR-30. -/
theorem test_csrrs :
    onNext (exec (.csrrs 0 0x144 5) { State.reset with x := State.reset.x.set 5 0xFFFFFFFF }) (fun t =>
        decide ((csrRead .sip t).1 = 2)) = true ∧
      onNext (exec (.csrrs 5 0x144 6)
        { withN with sip := { withN.sip with ueipSig := true }, x := withN.x.set 6 2 }) (fun t =>
        decide (getX 5 t = 0x100 ∧ t.sip.ueipSw = false ∧ t.sip.ssip = true ∧ (csrRead .sip t).1 = 0x102)) = true := by
  decide

/-- V-CSR-19, V-CSR-20. -/
theorem test_csrrs_read_only :
    onNext (exec (.csrrs 5 0x180 0) { State.reset with satp := { mode := .sv32, asid := 1, ppn := 0x80010 } }) (fun t =>
        decide (getX 5 t = 0x80480010 ∧ (csrRead .satp t).1 = 0x80480010)) = true ∧
      onNext (exec (.csrrs 5 0x100 0) user) (fun t => decide (t.scause = 2 ∧ getX 5 t = 0)) = true := by decide

/-- V-CSR-31 and V-CSR-33. -/
theorem test_csrrc :
    onNext (exec (.csrrc 5 0x144 6)
        { withN with sip := { withN.sip with ueipSw := true, ueipSig := true }, x := withN.x.set 6 0x100 }) (fun t =>
        decide (getX 5 t = 0x100 ∧ t.sip.ueipSw = false ∧ (csrRead .sip t).1 = 0x100)) = true ∧
      onNext (exec (.csrrc 5 0x144 6)
        { withN with sip := { withN.sip with ueipSig := true }, x := withN.x.set 6 0x100 }) (fun t =>
        decide (getX 5 t = 0x100 ∧ (csrRead .sip t).1 = 0x100)) = true := by decide

/-- V-CSR-9, both alignments. -/
theorem test_csrrwi :
    onNext (exec (.csrrwi 0 0x141 31) State.reset) (fun t => decide ((csrRead .sepc t).1 = 0x1C)) = true ∧
      onNext (exec (.csrrwi 0 0x141 31) { State.reset with cfg := { Config.vectors with ialign16 := true } }) (fun t =>
        decide ((csrRead .sepc t).1 = 0x1E)) = true := by decide

/-- P3 step 4. -/
theorem test_csrrsi : onNext (exec (.csrrsi 0 0x100 2) State.reset) (fun t =>
    decide ((csrRead .sstatus t).1 = 2 ∧ t.pc = 0x80000004)) = true := by decide

/-- V-ENC-15 on `sstatus` 0x22: SIE goes, SPIE stays (R255). -/
theorem test_csrrci : onNext (exec (.csrrci 5 0x100 2) { State.reset with sstatus := sstatusOfWord user.cfg 0x22 })
    (fun t => decide (getX 5 t = 0x22 ∧ (csrRead .sstatus t).1 = 0x20)) = true := by decide

/-- R265: in U-mode too, only the pc moves. -/
theorem test_fence : onNext (exec (.fence ⟨true, true, true, true⟩ ⟨true, true, true, true⟩) user) (fun t =>
    decide (t.pc = 0x1004 ∧ t.priv = .user ∧ t.scause = 0)) = true := by decide

/-- R305 (3): a word that is none of them traps; R293 gives its trap value. -/
theorem test_no_rule_traps :
    onNext (executeWord 0x00000013 { user with cfg := { user.cfg with stvalInsn := true } }) (fun t =>
      decide (t.scause = 2 ∧ t.stval = 0x00000013 ∧ t.sepc = 0x1000 ∧ t.pc = 0x80000000)) = true := by decide

/-- R353: an end of run is read off the state and does not stop the hart: here U-mode at an address, or a cause. -/
theorem test_end_of_run :
    let s : State := { user with
      cfg := { user.cfg with
        endOfRun := .either (.both (.test .pc (BitVec.allOnes 64) 0x1004) (.test .priv 1 0))
          (.test (.csr .scause) 0xFF 2) } }
    atEnd s = false ∧ atEnd { s with pc := 0x1004 } = true ∧
      atEnd { s with pc := 0x1004, priv := .supervisor } = false ∧ atEnd { s with scause := 0x102 } = true := by decide

/-- R353's own example: the end is an SBI call made with 8 in `x17`. -/
theorem test_end_at_call :
    let s : State := { State.reset with
      cfg := { user.cfg with endOfRun := .both (.test .sbiCalled 1 1) (.test (.sbiReg 17) (BitVec.allOnes 64) 8) }
      x := State.reset.x.set 17 8 }
    atEnd s = false ∧ onNext (exec .ecall s) atEnd = true ∧
      onNext (exec .ecall { s with x := State.reset.x }) (fun t => !atEnd t) = true := by decide

/-! ## Interrupts (sections 2.6, 2.7) -/

/-- V-TRAP-6: the external interrupt comes first, vectored to BASE + 0x24, and stays pending. -/
theorem test_interrupt_vectored :
    onNext (step { State.reset with
      turns := [.hartInterrupted], stvec := 0x80000101, sstatus := sstatusOfWord user.cfg 2
      sie := sieOfWord user.cfg 0x222
      sip := { State.reset.sip with ssip := true, stip := true, seip := true } }) (fun t =>
      decide (t.scause = 0x80000009 ∧ t.pc = 0x80000124 ∧ (csrRead .sip t).1 = 0x222)) = true := by decide

/-- V-INT-1, V-INT-2, V-INT-4. -/
theorem test_takeable :
    let s : State := { State.reset with sip := { State.reset.sip with ssip := true }, sie := sieOfWord user.cfg 2 }
    takeable .supervisorSoftware s = false ∧
      takeable .supervisorSoftware { s with sstatus := sstatusOfWord user.cfg 2 } = true ∧
      takeable .supervisorSoftware { s with priv := .user } = true := by decide

/-- R331: the SEE does not set STIP before the time scheduled, and may from then on. -/
theorem test_timer :
    let s : State := { user with timer := some 100, turns := [.agent (.setStip true)] }
    onNext (step s) (fun t => !t.sip.stip) = true ∧
      onNext (step { s with counters := s.counters.set 1 100 }) (fun t => t.sip.stip) = true ∧
      onNext (step { s with timer := none }) (fun t => t.sip.stip) = true := by decide

/-! ## Translation (section 2.8) -/

/-- V-TR-1. -/
theorem test_translate_two_levels :
    answers (Machine.translate .load 0x00401ABC (paged .fault 0x200008CF)) (fun r =>
      decide (r.pa = 0x80002ABC ∧ r.update = none)) = true := by decide

/-- V-TR-4 and V-TR-6. -/
theorem test_translate_faults :
    raises (Machine.translate .store 0x00401ABC (paged .fault 0x200008C5)) .storePageFault 0x00401ABC = true ∧
      raises (Machine.translate .load 0x00401ABC (paged .fault 0x20000C01)) .loadPageFault 0x00401ABC = true := by decide

/-- V-TR-12, both schemes. -/
theorem test_translate_sets_bits :
    raises (Machine.translate .store 0x00401ABC (paged .fault 0x2000080F)) .storePageFault 0x00401ABC = true ∧
      answers (Machine.translate .store 0x00401ABC (paged .hwUpdate 0x2000080F)) (fun r =>
        decide (r.pa = 0x80002ABC ∧ r.update = some { addr := 0x80001004, size := 4, new := 0x200008CF })) = true := by
  decide

/-- V-TR-24 and V-TR-25: a gigapage, aligned and not. -/
theorem test_translate_gigapage :
    answers (Machine.translate .load 0x0000000080123456 (paged39 0x80000010 0x200000CF)) (fun r =>
        decide (r.pa = 0x80123456)) = true ∧
      raises (Machine.translate .load 0x0000000080123456 (paged39 0x80000010 0x200800CF)) .loadPageFault
        0x0000000080123456 = true := by decide

/-- V-TR-26b: reserved bits are ignored by the walk, and flag the program. -/
theorem test_translate_reserved_bits :
    let s : State := { wide with
      satp := { mode := .sv39, asid := 5, ppn := 0x80000 }
      mem := placeBytes 0x80000000 (leBytes 0x20000401 8) (placeBytes 0x80001018 (leBytes 0xFFC00000201000CF 8) []) }
    (match Machine.translate .load 0x0000000000612345 s with
      | .ok r t => decide (r.pa = 0x80412345 ∧ t.reservedPte = true ∧ s.reservedPte = false)
      | .raise _ _ _ => false
      | .refuse _ => false) = true := by decide

/-- V-TR-28: four levels. -/
theorem test_translate_four_levels :
    answers (Machine.translate .load 0xFFFF800000001008 { wide with
      satp := { mode := .sv48, asid := 5, ppn := 0x80000 }
      mem := placeBytes 0x80000800 (leBytes 0x20000401 8) (placeBytes 0x80001000 (leBytes 0x20000801 8)
        (placeBytes 0x80002000 (leBytes 0x20000C01 8) (placeBytes 0x80003008 (leBytes 0x048D14CF 8) []))) }) (fun r =>
      decide (r.pa = 0x12345008)) = true := by decide

/-- R163: a fill caches the pointer and the leaf. -/
theorem test_fill_caches : (fill 0x00401ABC (paged .fault 0x200008CF)).tc =
    [⟨0, false, 0, 0x401, 0x80001004, 0x200008CF⟩, ⟨0, false, 1, 0x001, 0x80000004, 0x20000401⟩] := by decide

/-- R145, R161: below a pointer with G set the entries are global. -/
theorem test_fill_global :
    (fill 0x00401ABC { paged .fault 0 with
      mem := memoryOf [(0x80000004, 0x20000421), (0x80001004, 0x200008CF)] }).tc =
    [⟨0, true, 0, 0x401, 0x80001004, 0x200008CF⟩, ⟨0, true, 1, 0x001, 0x80000004, 0x20000421⟩] := by decide

/-- R162: an entry of ASID 1 matches at its own PTE address only, a global one from another table too (U9), one of ASID
2 or of another page not at all. -/
theorem test_matching_entries :
    let c := Config.vectors
    tcMatches c .sv32 0x00401ABC 0 0x80001004 1 e1 = true ∧ tcMatches c .sv32 0x00401ABC 0 0x80005004 1 e1 = false ∧
      tcMatches c .sv32 0x00401ABC 1 0x80000004 1 e2 = true ∧ tcMatches c .sv32 0x00401ABC 0 0x80001004 2 e1 = false ∧
      tcMatches c .sv32 0x00401ABC 0 0x80001004 1 e3 = false ∧ tcMatches c .sv32 0x00C00000 0 0x80005000 7 e4 = true ∧
      tcMatches c .sv32 0x00401ABC 0 0x80001008 1 e5 = false := by decide

/-- R345(a), where the implementation has it so: entries of ASID 1 stay usable whatever table the walk has come to. -/
theorem test_stale_entries :
    let c := { Config.vectors with tcAcrossTables := true }
    tcMatches c .sv32 0x00401ABC 0 0x80005004 1 e1 = true ∧ tcMatches c .sv32 0x00401ABC 1 0x80005004 1 e2 = true ∧
      tcMatches c .sv32 0x00401ABC 0 0x80001004 1 e3 = false ∧
      tcMatches c .sv32 0x00401ABC 0 0x80001008 1 e5 = false := by decide

/-- Section 2.8's machine with 16-bit alignment, two pages that are not neighbours in memory, and `csrrw` at 0x00401FFE,
its upper half on the second page. -/
def straddling : State :=
  { paged .fault 0 with
    cfg := { Config.vectors with ialign16 := true }, pc := 0x00401FFE
    mem := memoryOf [(0x80000004, 0x20000401), (0x80001004, 0x200008CF), (0x80001008, 0x200014CF),
      (0x80002FFC, 0x90730000), (0x80005000, 0x1802)] }

/-- R292, R306: a fetch in two portions, with translation on, the second on another page. -/
theorem test_fetch_two_portions : answers (fetch straddling) (fun w => decide (w = 0x18029073)) = true := by decide

/-- R105: a misaligned load, its bytes in ascending order. -/
theorem test_misaligned_load :
    answers (dataLoad 0x80000001 2 { State.reset with mem := memoryOf [(0x80000000, 0x11223344)] }) (fun v =>
      decide (v = 0x2233)) = true := by decide

theorem raises_mayUndo {α : Type} (s : State) (a : Access α) (e : Exc) (tval : Word) :
    raises (mayUndo s a) e tval = raises a e tval := by
  cases a with
  | ok v s1 => rfl
  | raise e' tv s1 => unfold mayUndo; simp only; split <;> rfl
  | refuse r => rfl

theorem raises_mayUnwrite (ea : Word) (s : State) (a : Access Unit) (e : Exc) (tval : Word) :
    raises (mayUnwrite ea s a) e tval = raises a e tval := by
  cases a with
  | ok v s1 => rfl
  | raise e' tv s1 => unfold mayUnwrite; simp only; split <;> rfl
  | refuse r => rfl

/-! ## Witnesses: the hypotheses of every statement that has any are met -/

theorem witness_EncodedInstructionsDecode : Instr.wf (.csrrci 31 0xFFF 31) = true ∧ Instr.wf (.csrrwi 0 0 0) = true := by
  decide

theorem witness_DecodedWordsEncodeBack : decodeWord 0xFFFFFFF3 = .ok (.csrrci 31 0xFFF 31) := by decide

/-- SFENCE.VMA with `rd` 31, ECALL with `rs1` 1, SRET with `rd` 1. -/
theorem witness_FixedFieldViolationsAreIllegal :
    (fieldOpcode 0x12000FF3 = 0b1110011#7 ∧ fieldFunct3 0x12000FF3 = 0#3 ∧ fieldFunct7 0x12000FF3 = 0b0001001#7 ∧
      fieldRd 0x12000FF3 ≠ 0) ∧
      (fieldOpcode 0x00008073 = 0b1110011#7 ∧ fieldFunct3 0x00008073 = 0#3 ∧
        fieldCsr 0x00008073 ∈ [0x000#12, 0x001#12, 0x002#12, 0x102#12] ∧ fieldRs1 0x00008073 ≠ 0) ∧
      fieldCsr 0x102000F3 ∈ [0x000#12, 0x001#12, 0x002#12, 0x102#12] ∧ fieldRd 0x102000F3 ≠ 0 := by decide

/-- A word of each kind; ADDI and a FENCE with `fm` not 0 are outside the SYSTEM opcode. -/
theorem witness_UndefinedWordsAreIllegal :
    (fieldOpcode 0x00000013 ≠ 0b1110011#7 ∧ (0x00000013#32) &&& 0xF00FFFFF ≠ 0x0000000F) ∧
      (fieldOpcode 0x8330000F ≠ 0b1110011#7 ∧ (0x8330000F#32) &&& 0xF00FFFFF ≠ 0x0000000F) ∧
      (fieldOpcode 0x10400073 = 0b1110011#7 ∧ fieldFunct3 0x10400073 = 0b000#3 ∧
        (0x10400073#32) ∉ [0x00000073#32, 0x00100073#32, 0x00200073#32, 0x10200073#32, 0x10500073#32, 0x30200073#32] ∧
        (0x10400073#32) &&& 0xFE007FFF ≠ 0x12000073) ∧
      fieldOpcode 0x10004073 = 0b1110011#7 ∧ fieldFunct3 0x10004073 = 0b100#3 ∧
        (0x10004073#32) ∉ [0x00000073#32, 0x00100073#32, 0x00200073#32, 0x10200073#32, 0x10500073#32, 0x30200073#32] ∧
        (0x10004073#32) &&& 0xFE007FFF ≠ 0x12000073 := by
  refine ⟨?_, ?_, ?_, ?_⟩ <;> decide

/-- Reset with ECALL placed; a byte just above the word may be stale. -/
def stepping : State := { State.reset.withFetchWord 32 0x73 with oldBytes := [(0x80000004, 1), (0x7FFFFFFF, 1)] }

theorem witness_StepRunsDecodedInstruction :
    stepping.turns = [] ∧ firstTakeable stepping = none ∧ stepping.satp.mode = .bare ∧ stepping.pc.toNat % 4 = 0 ∧
      physCheck stepping.cfg stepping.pc.toNat 4 .fetch stepping.priv = true ∧
      (∀ c ∈ stepping.oldBytes, c.1 < stepping.pc.toNat ∨ stepping.pc.toNat + 4 ≤ c.1) ∧
      decode [stepping.mem.read stepping.pc.toNat, stepping.mem.read (stepping.pc.toNat + 1),
        stepping.mem.read (stepping.pc.toNat + 2), stepping.mem.read (stepping.pc.toNat + 3)] = .ok (.ecall, []) := by
  decide

/-- Reset with 16-bit alignment and `csrrw` in the middle of a word; bytes just outside the portions may be stale. -/
def steppingHalf : State :=
  { State.reset with
    cfg := { Config.vectors with ialign16 := true }, pc := 0x80000002, oldBytes := [(0x80000006, 1), (0x80000001, 1)]
    mem := memoryOf [(0x80000000, 0x90730000), (0x80000004, 0x1802)] }

theorem witness_StepRunsDecodedInstruction_half :
    let s := steppingHalf
    let lo := s.pc.toNat
    let hi := (truncX s.cfg.sxlen (s.pc + 2)).toNat
    s.turns = [] ∧ firstTakeable s = none ∧ s.satp.mode = .bare ∧ s.cfg.ialign16 = true ∧ lo % 4 = 2 ∧
      physCheck s.cfg lo 2 .fetch s.priv = true ∧ physCheck s.cfg hi 2 .fetch s.priv = true ∧
      (∀ c ∈ s.oldBytes, (c.1 < lo ∨ lo + 2 ≤ c.1) ∧ (c.1 < hi ∨ hi + 2 ≤ c.1)) ∧
      decode [s.mem.read lo, s.mem.read (lo + 1), s.mem.read hi, s.mem.read (hi + 1)] =
        .ok (.csrrw 0 0x180 5, []) := by
  decide

/-- Under Sv32 as well: the megapage of P2, its `csrrw` at 0x80000004. -/
def steppingPaged : State :=
  { State.reset with
    pc := 0x80000004, satp := { mode := .sv32, asid := 1, ppn := 0x80010 }
    mem := memoryOf [(0x80000004, 0x18029073), (0x80010800, 0x200000EF)] }

/-- A fetch in two portions that answers a word. -/
theorem witness_StepRunsFetchedInstruction_half :
    alignedPc straddling.cfg straddling.pc = true ∧ straddling.pc.toNat % 4 ≠ 0 ∧ straddling.turns = [] ∧
      firstTakeable straddling = none ∧ decodeWord 0x18029073 = .ok (.csrrw 0 0x180 5) ∧
      fetch straddling = .ok 0x18029073 straddling := by
  decide

theorem witness_StepRunsFetchedInstruction :
    alignedPc steppingPaged.cfg steppingPaged.pc = true ∧ decodeWord 0x18029073 = .ok (.csrrw 0 0x180 5) ∧
      steppingPaged.turns = [] ∧ firstTakeable steppingPaged = none ∧
      fetch steppingPaged = .ok 0x18029073 steppingPaged ∧
      (let s : State := { steppingPaged with turns := [.hartExecutes] }
       s.turns = .hartExecutes :: [] ∧ fetch { s with turns := [] } = .ok 0x18029073 steppingPaged) :=
  ⟨by decide, by decide, by decide, by decide, by decide, by decide⟩

/-- Under Sv32 a fetch that finds no valid PTE, with no turn listed and with the hart's; the second portion of a fetch in
the middle of a word; and with translation off a fetch the platform does not grant. -/
theorem witness_FaultingFetchesTrap :
    (let s : State := { steppingPaged with pc := 0x00401ABC }
     alignedPc s.cfg s.pc = true ∧ s.turns = [] ∧ firstTakeable s = none ∧
       raises (fetch s) .instrPageFault 0x00401ABC = true) ∧
      (let s : State := { steppingPaged with pc := 0x00401ABC, turns := [.hartExecutes] }
       s.turns = .hartExecutes :: [] ∧ raises (fetch { s with turns := [] }) .instrPageFault 0x00401ABC = true) ∧
      (let s : State := { steppingPaged with
         cfg := { Config.vectors with ialign16 := true }, pc := 0x803FFFFE }
       alignedPc s.cfg s.pc = true ∧ s.pc.toNat % 4 ≠ 0 ∧ raises (fetch s) .instrPageFault 0x80400000 = true) ∧
      (let s : State := { State.reset with cfg := { Config.vectors with physRegions := [] } }
       s.turns = [] ∧ firstTakeable s = none ∧ s.satp.mode = .bare ∧ s.pc.toNat % 4 = 0 ∧
         physCheck s.cfg s.pc.toNat 4 .fetch s.priv = false) := by
  refine ⟨by decide, by decide, ⟨by decide, by decide, ?_⟩, by decide⟩
  rw [show ∀ s : State, fetch s = if s.pc.toNat % 4 = 0 then _ else _ from fun _ => rfl, if_neg (by decide),
    raises_mayUndo]
  decide

/-- Two interrupts pend in U-mode. -/
def pending : State :=
  { user with sip := { user.sip with ssip := true, stip := true }, sie := sieOfWord user.cfg 0x22 }

theorem witness_TakeableInterruptTrapsOrWaits :
    pending.turns = [] ∧ firstTakeable pending = some .supervisorSoftware ∧
      (let s : State := { pending with turns := [.hartInterrupted] }
       s.turns = .hartInterrupted :: [] ∧ firstTakeable s = some .supervisorSoftware) := by decide

theorem witness_FirstInterruptHasPriority : firstTakeable pending = some .supervisorSoftware ∧
    user.cfg.intPriorityWf = true ∧ firstTakeable user = none := by decide

/-- An interrupt pends and is enabled; no turn is listed, and one that asks for the interrupt. -/
theorem witness_ClearSieMasksInterrupts :
    let s : State := { State.reset with sip := { user.sip with ssip := true }, sie := sieOfWord user.cfg 2 }
    s.priv = .supervisor ∧ s.sstatus.sie = false ∧ s.turns = [] ∧
      { s with turns := [.hartInterrupted] }.turns = .hartInterrupted :: [] := by decide

theorem witness_TrapVectorAddresses : (0x80000100 : Word) &&& 3 = 0 ∧ (0 : Word) &&& 3 = 0 ∧
    (0xFFFFFFFC : Word) &&& 3 = 0 ∧ (0xFFFFFFFFFFFFFFFC : Word) &&& 3 = 0 := by decide

/-- For EcallFromUserTraps, PrivilegedInstructionsTrapInUser. -/
theorem witness_user_mode : user.priv = .user := by decide

/-- For EcallFromSupervisorCallsSbi: a contract that names one register, one byte, no CSR and one liberty, and
something outside each. -/
theorem witness_EcallFromSupervisorCallsSbi :
    let s : State := { State.reset with
      cfg := { Config.vectors with
        sbi := { args := [17], results := [10], memory := [(0x1000, 1)], csrs := [], liberties := [.stip] } } }
    s.priv = .supervisor ∧ (11 : Reg) ∉ s.cfg.sbi.results ∧
      (∀ m ∈ s.cfg.sbi.memory, 0xFFF < m.1 ∨ m.1 + m.2 ≤ 0xFFF) ∧
      (∀ m ∈ s.cfg.sbi.memory, 0x1001 < m.1 ∨ m.1 + m.2 ≤ 0x1001) ∧ Csr.sip ∉ s.cfg.sbi.csrs ∧
      SbiLiberty.seip ∉ s.cfg.sbi.liberties ∧ SbiLiberty.counters ∉ s.cfg.sbi.liberties ∧
      SbiLiberty.timer ∉ s.cfg.sbi.liberties ∧
      s.cfg.hasN = false := by decide

theorem witness_EbreakTraps : State.reset.cfg.ebreakTval = .zero ∧
    (State.resetFor { Config.vectors with ebreakTval := .pc }).cfg.ebreakTval = .pc := by decide

/-- For SretReturns, FullFenceForcesMemoryWalks. -/
theorem witness_supervisor_mode : State.reset.priv = .supervisor := by decide

theorem witness_SretUndoesTrapEntry :
    legalSepc Config.vectors 0xFFFFFFFC = 0xFFFFFFFC ∧ legalSepc Config.vectors 0 = 0 := by decide

theorem witness_UretTrapsOrIsRefused : State.reset.cfg.hasN = false ∧ withN.cfg.hasN = true := by decide

/-- Each of the four forms, an entry in the cache. -/
theorem witness_SfenceRemovesCoveredEntries :
    (cached 0x00401ABC 1).priv = .supervisor ∧ (cached 0x00401ABC 1).cfg.asidLen ≤ 16 ∧ wide.cfg.asidLen = 16 ∧
      wide.priv = .supervisor ∧ (0 : Reg) = 0 ∧ (10 : Reg) ≠ 0 ∧ (11 : Reg) ≠ 0 ∧
      (cached 0x00401ABC 1).satp.mode ≠ .bare ∧ wide.satp.mode = .bare := by decide

/-- For the three statements of forms of supervisor CSRs: register and immediate 0 and not, the immediate at its
bounds. -/
theorem witness_CsrForms : State.reset.priv = .supervisor ∧ csrOf State.reset.cfg.sxlen 0x180 = some .satp ∧
    counterBit .satp = none ∧ csrOf .rv64 0x100 = some .sstatus ∧ counterBit .sstatus = none ∧
    csrOf .rv32 0x144 = some .sip ∧ counterBit .sip = none ∧ (0 : Nat) < 32 ∧ (31 : Nat) < 32 ∧ (0 : Reg) = 0 ∧
    (31 : Reg) ≠ 0 ∧ (0x102 : Word) = ((0x002 : Word) &&& ~~~0x100) ||| (if true then 0x100 else 0) := by decide

/-- `instret` in S-mode, its neighbours `time` and the last high half in U-mode. -/
theorem witness_CounterReads :
    csrOf .rv32 0xC02 = some (.counter 2) ∧ csrOf .rv32 0xC01 = some (.counter 1) ∧
      csrOf .rv32 0xC9F = some (.counterHigh 31) ∧ csrOf .rv32 0xC82 = some (.counterHigh 2) ∧
      State.reset.priv = .supervisor ∧
      (let s : State := { user with scounteren := 0x80000002 }
       s.scounteren.getLsbD 31 = true ∧ s.scounteren.getLsbD 1 = true) ∧
      Instr.csrrci 5 0xC9F 0 ∈
        [Instr.csrrs 5 0xC9F 0, .csrrc 5 0xC9F 0, .csrrsi 5 0xC9F 0, .csrrci 5 0xC9F 0] := by decide

theorem witness_CounterAvailability :
    user.priv = .user ∧ csrOf user.cfg.sxlen 0xC00 = some (.counter 0) ∧
      csrOf user.cfg.sxlen 0xC80 = some (.counterHigh 0) ∧ csrOf user.cfg.sxlen 0xC1F = some (.counter 31) ∧
      user.scounteren.getLsbD 0 = false ∧ user.scounteren.getLsbD 31 = false ∧
      (∀ i ∈ [Instr.csrrs 5 0xC00 0, .csrrc 5 0xC00 0, .csrrsi 5 0xC00 0, .csrrci 5 0xC00 0],
        i ∈ [Instr.csrrs 5 0xC00 0, .csrrc 5 0xC00 0, .csrrsi 5 0xC00 0, .csrrci 5 0xC00 0]) ∧
      { user with scounteren := 0x80000001 }.scounteren.getLsbD 0 = true ∧
      { user with scounteren := 0x80000001 }.scounteren.getLsbD 31 = true := by decide

theorem witness_SupervisorCsrsTrapInUser : user.priv = .user ∧ csrOf user.cfg.sxlen 0x100 = some .sstatus ∧
    csrOf user.cfg.sxlen 0x180 = some .satp ∧ counterBit .sstatus = none ∧ counterBit .satp = none := by decide

theorem witness_CounterWritesTrap : csrOf .rv32 0xC00 = some (.counter 0) ∧ counterBit (.counter 0) ≠ none ∧
    csrOf .rv32 0xC9F = some (.counterHigh 31) ∧ counterBit (.counterHigh 31) ≠ none ∧ (1 : Reg) ≠ 0 ∧
    (1 : Nat) ≠ 0 := by decide

/-- The numbers next to the implemented ranges, and with SXLEN = 64 the `h` halves. -/
theorem witness_CsrNumbersNameTheirCsrs :
    (∀ num ∈ [0x000#12, 0x101#12, 0x181#12, 0xBFF#12, 0xC20#12, 0xC7F#12, 0xCA0#12, 0xFFF#12],
      num ∉ [0x100#12, 0x104#12, 0x105#12, 0x106#12, 0x140#12, 0x141#12, 0x142#12, 0x143#12, 0x144#12, 0x180#12] ∧
        ¬(0xC00 ≤ num.toNat ∧ num.toNat ≤ 0xC1F) ∧ ¬(0xC80 ≤ num.toNat ∧ num.toNat ≤ 0xC9F)) ∧
      ¬(wide.cfg.sxlen = .rv32 ∧ 0xC80 ≤ (0xC80#12).toNat ∧ (0xC80#12).toNat ≤ 0xC9F) := by decide

theorem witness_InterruptRegisterWriteRules : withN.cfg.hasN = true ∧ State.reset.cfg.hasN = false := by decide

theorem witness_UeipSignalIsNotLatched :
    withN.priv = .supervisor ∧ withN.cfg.hasN = true ∧ (5 : Reg) ≠ 0 := by decide

/-- Both modes supported, and each alone. -/
theorem witness_StvecWriteRule : Config.vectors.vecAlignWf = true ∧ wideCfg.vecAlignWf = true ∧
    Config.vectors.stvecModes.contains .direct = true ∧ Config.vectors.stvecModes.contains .vectored = true ∧
    [TvecMode.direct].contains .vectored = false ∧ [TvecMode.vectored].contains .direct = false ∧
    (0x80000100 : Word).extractLsb' 0 2 = 0 ∧ (0x800001FD : Word).extractLsb' 0 2 = 1 ∧
    (0x80000106 : Word).extractLsb' 0 2 = 2 ∧ (0x80000203 : Word).extractLsb' 0 2 = 3 := by decide

/-- Each width with supported and unsupported schemes, and fields at their greatest. -/
theorem witness_SatpReadAndWriteRules :
    Config.vectors.wf = true ∧ Config.vectors.sxlen = .rv32 ∧ Config.vectors.satpModes.contains .sv32 = true ∧
      Config.wf { Config.vectors with satpModes := [.bare] } = true ∧ [SatpMode.bare].contains .sv32 = false ∧
      wideCfg.wf = true ∧ wideCfg.sxlen = .rv64 ∧ wideCfg.satpModes.contains .sv48 = true ∧
      Config.wf { wideCfg with satpModes := [.bare, .sv39] } = true ∧
      [SatpMode.bare, .sv39].contains .sv48 = false ∧
      (0x1000000000000000 : Word).toNat / 2 ^ 60 ∉ [0, 8, 9] ∧
      ((0x9000600000090000 : Word).toNat / 2 ^ 60, SatpMode.sv48) ∈ [(0, SatpMode.bare), (8, .sv39), (9, .sv48)] ∧
      (0x1FF : BitVec 16).toNat < 2 ^ 9 ∧ (0x3FFFFF : BitVec 44).toNat < 2 ^ 22 := by decide

theorem witness_StorageCsrWriteRules : (0 : Nat) < 64 ∧ (1 : Nat) < 64 ∧ (31 : Nat) < 64 ∧ (32 : Nat) < 64 ∧
    (63 : Nat) < 64 := by decide

/-- The last byte of the physical addresses, and the first one past it. -/
theorem witness_BareNeverPageFaults : State.reset.satp.mode = .bare ∧
    physCheck State.reset.cfg (0x3FFFFFFFF : Word).toNat 1 .load State.reset.priv = true ∧
    physCheck State.reset.cfg (0x400000000 : Word).toNat 1 .load State.reset.priv = false := by decide

/-- A reserved PTE, for each type of access. -/
theorem witness_FaultingAccessChangesNothing :
    raises (access .fetch 0x00401ABC 4 (paged .fault 0x200008C5)) .instrPageFault 0x00401ABC = true ∧
      raises (access .load 0x00401ABC 4 (paged .fault 0x200008C5)) .loadPageFault 0x00401ABC = true ∧
      raises (access .store 0x00401ABC 4 (paged .fault 0x200008C5)) .storePageFault 0x00401ABC = true := by
  refine ⟨?_, ?_, ?_⟩ <;> decide

/-- With no bit to set, and with both to set; in S-mode, and in U-mode on a user page. -/
theorem witness_SuccessfulTranslationIsPermitted :
    (paged .fault 0x200008CF).satp.mode ≠ .bare ∧
      answers (Machine.translate .load 0x00401ABC (paged .fault 0x200008CF)) (fun r => decide (r.update = none)) = true ∧
      answers (Machine.translate .fetch 0x00401ABC { paged .fault 0x200008D9 with priv := .user }) (fun r =>
        decide (r.update = none)) = true ∧
      answers (Machine.translate .store 0x00401ABC (paged .hwUpdate 0x2000080F)) (fun r =>
        decide (r.update = some { addr := 0x80001004, size := 4, new := 0x200008CF })) = true := by
  refine ⟨?_, ?_, ?_, ?_⟩ <;> decide

/-- V-TR-20, V-TR-21, V-TR-27 and the greatest address each scheme refuses. -/
theorem witness_NonCanonicalAddressesFault :
    (paged39 0 0).satp.mode = .sv39 ∧
      (∀ va ∈ [0x0000004000000000#64, 0xFFFFFF8000000000#64, 0xFFFFFFBFFFFFFFFF#64],
        va.toNat / 2 ^ 38 ≠ 0 ∧ va.toNat / 2 ^ 38 ≠ 2 ^ 26 - 1) ∧
      (let s : State := { wide with satp := { mode := .sv48, asid := 5, ppn := 0x80000 } }
       s.satp.mode = .sv48) ∧
      (∀ va ∈ [0x0000800000000000#64, 0xFFFF7FFFFFFFFFFF#64],
        va.toNat / 2 ^ 47 ≠ 0 ∧ va.toNat / 2 ^ 47 ≠ 2 ^ 17 - 1) := by
  refine ⟨rfl, ?_, rfl, ?_⟩ <;> norm_num

/-- What section 2.8's machine with a leaf PTE has to show: translation is on, nothing is cached, the root's
pointer and the leaf stand in memory and may be read. -/
def pagedShows (leaf : BitVec 32) : Bool :=
  let s := paged .fault leaf
  decide (s.satp.mode = .sv32) && decide (s.tc = []) && canonical .sv32 0x00401ABC &&
    decide (pteAddrAt .sv32 0x00401ABC 0 0x80001000 = 0x80001004) &&
    physCheck s.cfg 0x80000004 4 .load .supervisor && physCheck s.cfg 0x80001004 4 .load .supervisor &&
    decide (0x20000401 = physRead 0x80000004 4 s) && decide (physRead 0x80001004 4 s = leaf.setWidth 64)

/-- Each leaf PTE of the walk's clauses below the root (marked, invalid, reserved, a pointer, not permitted,
unmarked), and what holds of it. -/
theorem witness_UncachedWalkFollowsPageTables :
    (pagedShows 0x200008CF = true ∧ pagedShows 0x200008CE = true ∧ pagedShows 0x200008C5 = true ∧
      pagedShows 0x20000C01 = true ∧ pagedShows 0x200008D9 = true ∧ pagedShows 0x2000080F = true) ∧
      (0x200008CE : Word).getLsbD 0 = false ∧
      ((0x200008C5 : Word).getLsbD 1 = false ∧ (0x200008C5 : Word).getLsbD 2 = true) ∧
      (0x20000C01 : Word).extractLsb' 0 4 = 0b0001#4 ∧
      (LeafPte 0x200008D9 ∧ ¬LeafPermits 0x200008D9 .load (paged .fault 0x200008D9)) ∧
      (LeafPte 0x200008CF ∧ LeafPermits 0x200008CF .store (paged .fault 0x200008CF) ∧
        LeafMarked 0x200008CF .store) ∧
      (LeafPte 0x2000080F ∧ LeafPermits 0x2000080F .store (paged .fault 0x2000080F) ∧
        ¬LeafMarked 0x2000080F .store) ∧
      ∀ pte : Word, ptePpn .sv32 pte % 2 ^ (0 * vpnBits .sv32) = 0 := by
  unfold LeafPte LeafPermits LeafMarked
  refine ⟨?_, by decide, by decide, by decide, by decide, by decide, by decide, fun pte => Nat.mod_one _⟩
  exact ⟨by decide, by decide, by decide, by decide, by decide, by decide⟩

/-- In each of these machines the walk reaches the table at 0x80001000, at level 0. -/
theorem pagedShows_reaches {leaf : BitVec 32} (h : pagedShows leaf = true) :
    Reaches .sv32 0x00401ABC (paged .fault leaf) 0 0x80001000 false := by
  simp only [pagedShows, Bool.and_eq_true, decide_eq_true_eq] at h
  have ha : (paged .fault leaf).satp.ppn.toNat * 4096 = 0x80000000 := by
    show (0x80000 : BitVec 44).toNat * 4096 = 0x80000000
    decide
  have hroot : Reaches .sv32 0x00401ABC (paged .fault leaf) 1 0x80000000 false := by rw [← ha]; exact .root
  have hstep := fun hc hp => Reaches.pointer (pte := 0x20000401) hroot hc hp (by decide)
  rw [show pteAddrAt .sv32 0x00401ABC 1 0x80000000 = 0x80000004 by decide,
    show ptePpn .sv32 0x20000401 * 4096 = 0x80001000 by decide] at hstep
  exact hstep h.1.1.1.2 ⟨_, .inl ⟨(by
    rw [show pteAddrAt .sv32 0x00401ABC 1 0x80000000 = 0x80000004 by decide]; exact h.1.2), rfl⟩⟩

/-- The clauses at the root: a PTE that may not be read, and a misaligned gigapage. -/
theorem witness_UncachedWalkFollowsPageTables_root :
    let s := paged39 0x80000010 0x200800CF
    s.satp.mode = .sv39 ∧ s.tc = [] ∧ canonical .sv39 0x0000000080123456 = true ∧
      Reaches .sv39 0x0000000080123456 s 2 0x80000000 false ∧
      pteAddrAt .sv39 0x0000000080123456 2 0x80000000 = 0x80000010 ∧
      physCheck { wideCfg with physRegions := [] } 0x80000010 8 .load .supervisor = false ∧
      physCheck wideCfg 0x80000010 8 .load .supervisor = true ∧ physRead 0x80000010 8 s = 0x200800CF ∧
      LeafPte 0x200800CF ∧ LeafPermits 0x200800CF .load s ∧
      ptePpn .sv39 0x200800CF % 2 ^ (2 * vpnBits .sv39) ≠ 0 := by
  unfold LeafPte LeafPermits
  exact ⟨by decide, by decide, by decide, .root, by decide, by decide, by decide, by decide, by decide, by decide,
    by decide⟩

/-- With no update, and with one. -/
theorem witness_AccessSetsOnlyAccessedAndDirty :
    (paged .hwUpdate 0x2000080F).mem.wf = true ∧
      answers (Machine.translate .load 0x00401ABC (paged .hwUpdate 0x200008CF)) (fun r =>
        decide (r.update = none)) = true ∧
      answers (access .load 0x00401ABC 4 (paged .hwUpdate 0x200008CF)) (fun pa => decide (pa = 0x80002ABC)) = true ∧
      answers (Machine.translate .store 0x00401ABC (paged .hwUpdate 0x2000080F)) (fun r =>
        decide (r.update = some { addr := 0x80001004, size := 4, new := 0x200008CF })) = true ∧
      answers (access .store 0x00401ABC 4 (paged .hwUpdate 0x2000080F)) (fun pa =>
        decide (pa = 0x80002ABC)) = true := by
  refine ⟨?_, ?_, ?_, ?_, ?_⟩ <;> decide

theorem witness_StoredValueReadsBack : (paged .fault 0x200008CF).mem.wf = true ∧ (0 : Nat) ≤ 8 ∧ (8 : Nat) ≤ 8 := by
  decide

theorem witness_DataLoadReturnsStoredValue :
    wide.mem.wf = true ∧ wide.satp.mode = .bare ∧ 8 ∈ [1, 2, 4, 8] ∧ (0x80000008 : Word).toNat % 8 = 0 ∧
      physCheck wide.cfg (0x80000008 : Word).toNat 8 .store wide.priv = true ∧
      physCheck wide.cfg (0x80000008 : Word).toNat 8 .load wide.priv = true := by decide

theorem witness_MisalignedAtomicsRaise : (0x80000001 : Word).toNat % 4 ≠ 0 ∧ (0x80000004 : Word).toNat % 8 ≠ 0 := by
  decide

/-- Refused; performed in full; and performed, the last byte on a page that faults. -/
theorem witness_MisalignedAccessesGoByteByByte :
    fitsX .rv32 0x00401FFF ∧ (2 : Nat) ≤ 8 ∧ (0x00401FFF : Word).toNat % 2 ≠ 0 ∧
      (0x00401ABD : Word).toNat % 8 ≠ 0 ∧
      (let s : State := { State.reset with cfg := { Config.vectors with misaligned := .refuse } }
       s.cfg.misaligned = .refuse) ∧
      (paged .fault 0x200008CF).cfg.misaligned = .perform ∧
      answers (dataLoad 0x00401ABD 8 (paged .fault 0x200008CF)) (fun v => decide (v = 0)) = true ∧
      answers (dataStore 0x00401ABD 2 0x1234 (paged .fault 0x200008CF)) (fun _ => true) = true ∧
      raises (dataLoad 0x00401FFF 2 (paged .fault 0x200008CF)) .loadPageFault 0x00402000 = true ∧
      raises (dataStore 0x00401FFF 2 0x1234 (paged .fault 0x200008CF)) .storePageFault 0x00402000 = true :=
  ⟨by decide, by decide, by decide, by decide, by decide, by decide, by decide, by decide,
    (raises_mayUndo _ (loadSplit 0x00401FFF 2 (paged .fault 0x200008CF)) _ _).trans (by decide),
    (raises_mayUndo _ (mayUnwrite _ _ (storeSplit 0x00401FFF (leBytes 0x1234 2) (paged .fault 0x200008CF))) _ _).trans
      ((raises_mayUnwrite _ _ _ _ _).trans (by decide))⟩

theorem witness_MisalignedTargetsTrap : fitsX .rv32 0x80000002 ∧ fitsX .rv32 0xFFFFFFFC ∧
    alignedPc Config.vectors 0xFFFFFFFC = true ∧ alignedPc Config.vectors 0x80000002 = false := by decide

/-- U-mode with SXLEN = 64, an interrupt to be taken. -/
def interrupted : State :=
  { wide with
    priv := .user, turns := [.hartInterrupted], sie := sieOfWord wideCfg 0x20, sip := { wide.sip with stip := true } }

/-- For StepKeepsStateLegal and LegalRunsNeverFault. -/
theorem witness_Inv : interrupted.Inv where
  cfg := by decide
  registers := ⟨by decide, by decide⟩
  pc := ⟨by decide, by decide⟩
  csrs := ⟨fun _ => by decide, by unfold TvecLegal; decide, by unfold SatpLegal; decide, by decide, by decide, by decide,
    by decide, by decide⟩
  memory := by decide
  cache := by unfold CacheLegal; decide

/-- For StepKeepsStateLegal, StepKeepsMemoryCanonical and UserModeIsLeftOnlyByTrap. -/
theorem witness_user_step : interrupted.mem.wf = true ∧ interrupted.priv = .user ∧
    ∃ t, step interrupted = .next t ∧ t.priv = .supervisor :=
  ⟨by decide, by decide, _, rfl, rfl⟩

theorem witness_UserInstructionsKeepSupervisorState :
    user.priv = .user ∧ ∃ t, exec (.csrrs 5 0xC02 0) { user with scounteren := 4 } = .next t ∧ t.priv = .user :=
  ⟨by decide, _, rfl, rfl⟩

/-- Reset with SRET placed. -/
theorem witness_SupervisorModeIsLeftOnlyBySret :
    State.reset.priv = .supervisor ∧ (∃ t, exec .sret State.reset = .next t ∧ t.priv = .user) ∧
      ∃ t, step (State.reset.withFetchWord 32 0x10200073) = .next t ∧ t.priv = .user :=
  ⟨by decide, ⟨_, rfl, rfl⟩, ⟨_, rfl, rfl⟩⟩

/-- Each agent's step, STIP with a time scheduled and reached; the store of another hart on a system of two harts and on one of one. -/
theorem witness_AgentsTouchOnlyTheirState :
    (∀ a ∈ [AgentStep.setStip true, .setSeip true, .setUtip true, .raiseSsip, .setUeipSig true, .timeReaches 5,
        .otherStore 0 [1], .fill 0, .evict 0],
      (let s : State := { user with turns := [.agent a] }
       s.turns = .agent a :: []) ) ∧
      user.cfg.nharts ≤ 1 ∧ user.counters[1].toNat ≤ (5 : Word).toNat ∧
      (let s : State := { user with timer := some 0, turns := [.agent (.setStip true)] }
       s.sip.stip = false ∧ s.timer = some 0 ∧ (0 : Word).toNat ≤ s.counters[1].toNat) ∧
      (let s : State := { user with cfg := { user.cfg with nharts := 2 } }
       s.mem.wf = true ∧ 1 < s.cfg.nharts ∧ 0 + [(1 : Byte)].length ≤ 2 ^ s.cfg.paLen) := by
  refine ⟨by decide, by decide, by decide, by decide, by decide, by decide, by decide⟩

end Sys2Proof.Tests
end

section
/-! SUPPORT. The statements about the state and the CSRs of 10_state.md, proved. -/

namespace Sys2Proof.Machine

/-! ## Bits and fields of a word -/

@[simp] theorem getElem_bitAt (b : Bool) (i : Nat) {k : Nat} (h : k < 64) : (bitAt b i)[k] = (b && decide (i = k)) := by
  cases b <;> simp [bitAt, eq_comm]

/-- Wrapping to SXLEN bits, at least 32, keeps the bits below 32. -/
theorem getLsbD_truncX (xl : Xlen) (v : Word) {k : Nat} (h : k < 32) : (truncX xl v).getLsbD k = v.getLsbD k := by
  rw [← BitVec.testBit_toNat, truncX_toNat, Nat.testBit_mod_two_pow, BitVec.testBit_toNat,
    decide_eq_true (show k < xl.bits by cases xl <;> simp only [Xlen.bits] <;> omega), Bool.true_and]

theorem toNat_and_lowMask {w k : Nat} (x : BitVec w) (h : k ≤ w) :
    (x &&& BitVec.ofNat w (2 ^ k - 1)).toNat = x.toNat % 2 ^ k := by
  have hlt : 2 ^ k - 1 < 2 ^ w := Nat.lt_of_lt_of_le (Nat.sub_lt (Nat.two_pow_pos k) Nat.one_pos)
    (Nat.pow_le_pow_right (by decide) h)
  rw [BitVec.toNat_and, BitVec.toNat_ofNat, Nat.mod_eq_of_lt hlt, Nat.and_two_pow_sub_one_eq_mod]

/-- A field of a word of which only the low `k` bits are kept. -/
theorem toNat_maskedField (v : Word) (lo : Nat) {n w k : Nat} (hk : k ≤ n) (hn : n ≤ w) :
    ((v.extractLsb' lo n).setWidth w &&& BitVec.ofNat w (2 ^ k - 1)).toNat = v.toNat / 2 ^ lo % 2 ^ k := by
  rw [toNat_and_lowMask _ (hk.trans hn), BitVec.toNat_setWidth, Nat.mod_mod_of_dvd _ (Nat.pow_dvd_pow 2 (hk.trans hn)),
    BitVec.extractLsb'_toNat, Nat.mod_mod_of_dvd _ (Nat.pow_dvd_pow 2 hk), Nat.shiftRight_eq_div_pow]

/-- A field put above a value that does not reach it. -/
theorem toNat_shiftLeft_or {x y : Word} {n : Nat} (hx : x.toNat * 2 ^ n < 2 ^ 64) (hy : y.toNat < 2 ^ n) :
    ((x <<< n) ||| y).toNat = x.toNat * 2 ^ n + y.toNat := by
  rw [BitVec.toNat_or, BitVec.toNat_shiftLeft, Nat.shiftLeft_eq, Nat.mod_eq_of_lt hx, ← Nat.shiftLeft_eq,
    Nat.shiftLeft_add_eq_or_of_lt hy]

/-! ## sip, sie and takeable interrupts -/

/-- Where the pending bits stand in `sip`, `ueip` being the value at UEIP (10_state.md R44). -/
theorem getLsbD_sipWordWith (c : Config) (p : Sip) (ueip : Bool) (i : Interrupt) :
    (sipWordWith c p ueip).getLsbD (interruptCode i) =
      match i with
      | .userSoftware => c.hasN && p.usip
      | .supervisorSoftware => p.ssip
      | .userTimer => c.hasN && p.utip
      | .supervisorTimer => p.stip
      | .userExternal => c.hasN && ueip
      | .supervisorExternal => p.seip := by
  cases i <;> simp [sipWordWith, interruptCode]

/-- Where the enable bits stand in `sie` (10_state.md R45). -/
theorem getLsbD_sieWord (c : Config) (e : Sie) (i : Interrupt) :
    (sieWord c e).getLsbD (interruptCode i) =
      match i with
      | .userSoftware => c.hasN && e.usie
      | .supervisorSoftware => e.ssie
      | .userTimer => c.hasN && e.utie
      | .supervisorTimer => e.stie
      | .userExternal => c.hasN && e.ueie
      | .supervisorExternal => e.seie := by
  cases i <;> simp [sieWord, interruptCode]

/-- Supervisor-level interrupts are masked by SIE in S-mode only (10_state.md R28). -/
theorem modeEnabled_supervisorLevel {i : Interrupt} (h : supervisorLevel i = true) (s : State) :
    modeEnabled i s = true ↔ s.priv = .user ∨ s.sstatus.sie = true := by
  cases hp : s.priv <;> simp [modeEnabled, h, hp]

/-- User-level interrupts are enabled in U-mode only, with N and UIE (10_state.md R30). -/
theorem modeEnabled_userLevel {i : Interrupt} (h : supervisorLevel i = false) (s : State) :
    modeEnabled i s = true ↔ s.cfg.hasN = true ∧ s.priv = .user ∧ s.sstatus.uie = true := by
  cases hp : s.priv <;> simp [modeEnabled, h, hp]

theorem takeable_iff (i : Interrupt) (s : State) :
    takeable i s = true ↔ pending i s = true ∧ enabled i s = true ∧ modeEnabled i s = true := by
  simp [takeable, and_assoc]

/-- Settles O10: the pending and the enable bit stand at the interrupt's code, and its level says which modes
mask it. -/
theorem takeableConditions : Obligations.TakeableConditions := by
  unfold Obligations.TakeableConditions
  intro s
  simp only [takeable_iff, pending, enabled, sipWord, getLsbD_sipWordWith, getLsbD_sieWord]
  refine ⟨?_, ?_, ?_, ?userSoftware, ?userTimer, ?userExternal⟩
  case userSoftware | userTimer | userExternal =>
    rw [modeEnabled_userLevel rfl]
    cases s.cfg.hasN <;> simp
  all_goals rw [modeEnabled_supervisorLevel rfl]

/-! ## Trap vectors -/

theorem and_not_of_and_eq_zero {b m : Word} (h : b &&& m = 0) : b &&& ~~~m = b := by
  calc b &&& ~~~m = b &&& ~~~m ||| b &&& m := by rw [h]; exact BitVec.or_zero.symm
    _ = b := by ext i hi; simp only [BitVec.getElem_and, BitVec.getElem_or, BitVec.getElem_not]; cases m[i] <;> simp

/-- A word whose two low bits are clear is a BASE with MODE Direct (10_state.md R40). -/
theorem tvecBase_of_aligned {base : Word} (h : base &&& 3 = 0) : tvecBase base = base :=
  and_not_of_and_eq_zero h

theorem tvecMode_of_aligned {base : Word} (h : base &&& 3 = 0) : base.extractLsb' 0 2 = 0#2 := by
  calc base.extractLsb' 0 2 = (base &&& 3).extractLsb' 0 2 := by
        rw [extractLsb'_and, show (3 : Word).extractLsb' 0 2 = BitVec.allOnes 2 by decide, BitVec.and_allOnes]
    _ = 0#2 := by rw [h]; rfl

theorem tvecVectored_of_aligned {base : Word} (h : base &&& 3 = 0) : tvecVectored base = false := by
  simp [tvecVectored, tvecMode_of_aligned h]

/-- Setting MODE to Vectored leaves BASE (10_state.md R42). -/
theorem tvecBase_or_one {base : Word} (h : base &&& 3 = 0) : tvecBase (base ||| 1) = base := by
  calc tvecBase (base ||| 1) = base &&& ~~~3 ||| 1 &&& ~~~3 := by
        ext i hi; simp only [tvecBase, BitVec.getElem_and, BitVec.getElem_or, Bool.and_or_distrib_right]
    _ = base &&& ~~~3 := BitVec.or_zero
    _ = base := and_not_of_and_eq_zero h

theorem tvecVectored_or_one {base : Word} (h : base &&& 3 = 0) : tvecVectored (base ||| 1) = true := by
  simp [tvecVectored, extractLsb'_or, tvecMode_of_aligned h]

/-- With MODE Vectored an interrupt goes to BASE plus four times its code (10_state.md R42). -/
theorem trapPc_vectored_interrupt (xl : Xlen) {base : Word} (h : base &&& 3 = 0) (i : Interrupt) :
    trapPc xl (base ||| 1) (.interrupt i) = truncX xl (base + BitVec.ofNat 64 (4 * interruptCode i)) := by
  simp only [trapPc, tvecVectored_or_one h, tvecBase_or_one h, if_true]

/-- Settles O14: MODE is read off the low bits of `stvec` and BASE off the others, and each interrupt's offset is four
times its code. -/
theorem trapVectorAddresses : Obligations.TrapVectorAddresses := by
  unfold Obligations.TrapVectorAddresses
  intro xl base h
  refine ⟨fun cause => ?direct, fun e => ?vectoredException, ?userSoftware, ?_, ?_, ?_, ?_, ?_⟩
  case direct => cases cause <;> simp [trapPc, tvecVectored_of_aligned h, tvecBase_of_aligned h]
  case vectoredException => simp only [trapPc, tvecBase_or_one h]
  case userSoftware => simpa [interruptCode] using trapPc_vectored_interrupt xl h .userSoftware
  all_goals exact trapPc_vectored_interrupt xl h _

/-! ## CSR instructions on sip -/

/-- In S-mode the check passes on every supervisor CSR (42_csr_access.md R241, R242). -/
theorem csrCheck_of_supervisor {num : CsrNum} {c : Csr} {s : State} (hp : s.priv = .supervisor)
    (hc : csrOf s.cfg.sxlen num = some c) (hn : counterBit c = none) (wr : Bool) : csrCheck num wr s = some c := by
  obtain ⟨hlevel, hwritable⟩ := (csrOf_number hc).1 hn
  refine csrCheck_eq_some.2 ⟨hc, ?_, fun h => hwritable h.2, by simp [counterDenied, hn]⟩
  rw [hlevel, hp]; exact Nat.le_refl 1

theorem csrInstr_of_check {num : CsrNum} {wr : Bool} {s : State} {c : Csr} (h : csrCheck num wr s = some c)
    (i : Instr) (rd : Reg) (op : Word → Word) : csrInstr i num rd wr op s = .next (csrAccess c rd wr op s) := by
  simp [csrInstr, h]

/-- What a CSR instruction leaves in `rd`: the value the CSR read as. -/
theorem getX_csrAccess {rd : Reg} (h : rd ≠ 0) {c : Csr} (hc : counterBit c = none) (wr : Bool) (op : Word → Word)
    (s : State) : getX rd (csrAccess c rd wr op s) = truncX s.cfg.sxlen (csrRead c s).1 := by
  have hx : (csrAccess c rd wr op s).x = (setX rd (csrRead c s).1 s).x := by
    rw [csrAccess_eq, csrRead_of_noCounter hc]; cases wr <;> simp
  rw [getX_congr hx, getX_setX_same h]

/-- What a CSR instruction on `sip` leaves there: the modify step works on the word with the software UEIP bit alone
(42_csr_access.md R248). -/
theorem csrAccess_sip (rd : Reg) (wr : Bool) (op : Word → Word) (s : State) :
    (csrAccess .sip rd wr op s).sip =
      if wr then sipOfWord s.cfg s.sip (op (sipBaseWord s.cfg s.sip)) else s.sip := by
  rw [csrAccess_eq]
  cases wr <;> simp [csrRead, csrWrite, csrBase]

/-- With N, `UEIP` reads as the value put at bit 8. -/
theorem getLsbD_sipWordWith_ueip {c : Config} (h : c.hasN = true) (p : Sip) (ueip : Bool) :
    (sipWordWith c p ueip).getLsbD 8 = ueip := by
  simpa [h, interruptCode] using getLsbD_sipWordWith c p ueip .userExternal

/-- UEIP through a CSR instruction on `sip` with N: `rd` has the signal in it, the modify step has not, and the
instruction does not touch the signal (10_state.md R53). -/
theorem csrAccess_sip_ueip {s : State} (hN : s.cfg.hasN = true) (rd : Reg) (wr : Bool) (op : Word → Word) :
    (rd ≠ 0 → (getX rd (csrAccess .sip rd wr op s)).getLsbD 8 = (s.sip.ueipSw || s.sip.ueipSig)) ∧
      (csrAccess .sip rd wr op s).sip.ueipSw =
        (if wr then (op (sipBaseWord s.cfg s.sip)).getLsbD 8 else s.sip.ueipSw) ∧
      (csrAccess .sip rd wr op s).sip.ueipSig = s.sip.ueipSig := by
  refine ⟨fun hrd => ?_, ?_, ?_⟩
  · rw [getX_csrAccess hrd rfl, getLsbD_truncX _ _ (by decide)]
    exact getLsbD_sipWordWith_ueip hN ..
  · rw [csrAccess_sip]; cases wr <;> simp [sipOfWord, hN]
  · rw [csrAccess_sip]; cases wr <;> simp [sipOfWord]

/-- Settles O36: each of the three is an access to `sip` (`csrAccess_sip_ueip`) with its own `op`; where CSRRS or CSRRC
names `x0` nothing is written and the operand is 0. -/
theorem ueipSignalIsNotLatched : Obligations.UeipSignalIsNotLatched := by
  unfold Obligations.UeipSignalIsNotLatched
  intro s rd rs1 hp hN
  have hcheck := csrCheck_of_supervisor (num := 0x144) (c := .sip) hp rfl rfl
  have hbase : (sipBaseWord s.cfg s.sip).getLsbD 8 = s.sip.ueipSw := getLsbD_sipWordWith_ueip hN ..
  refine ⟨⟨_, csrInstr_of_check (hcheck _) .., ?_⟩, ⟨_, csrInstr_of_check (hcheck _) .., ?_⟩,
    ⟨_, csrInstr_of_check (hcheck _) .., ?_⟩⟩
  · exact csrAccess_sip_ueip hN rd true _
  · obtain ⟨hread, hsw, hsig⟩ := csrAccess_sip_ueip hN rd (decide (rs1 ≠ 0)) (· ||| getX rs1 s)
    refine ⟨hread, hsw.trans ?_, hsig⟩
    by_cases h0 : rs1 = 0
    · rw [h0, getX_zero]; simp
    · rw [if_pos (by simpa using h0), BitVec.getLsbD_or, hbase]
  · obtain ⟨hread, hsw, hsig⟩ := csrAccess_sip_ueip hN rd (decide (rs1 ≠ 0)) (· &&& ~~~(getX rs1 s))
    refine ⟨hread, hsw.trans ?_, hsig⟩
    by_cases h0 : rs1 = 0
    · rw [h0, getX_zero]; simp
    · rw [if_pos (by simpa using h0), BitVec.getLsbD_and, BitVec.getLsbD_not, hbase]; simp

/-! ## satp -/

/-- What well-formed parameters say of `satp` (00_scope.md R5, 10_state.md R76). -/
theorem satp_bounds_of_wf {c : Config} (h : c.wf = true) :
    c.satpModes.contains .bare = true ∧ c.asidLen ≤ c.sxlen.asidMax ∧ c.paLen ≤ c.sxlen.paMax := by
  simp only [Config.wf, Config.satpModesWf, Bool.and_eq_true, decide_eq_true_eq] at h
  tauto

/-- Bare is listed, so a scheme is supported where it is listed. -/
theorem satpSupported_of_wf {c : Config} (h : c.wf = true) (m : SatpMode) :
    satpSupported c m = c.satpModes.contains m := by
  obtain ⟨hbare, -, -⟩ := satp_bounds_of_wf h
  by_cases hm : m = .bare
  · subst hm; rw [hbare]; rfl
  · simp [satpSupported, hm]

/-- Where the ASID stands in `satp` (10_state.md R71, R72). -/
def satpAsidPos : Xlen → Nat
  | .rv32 => 22
  | .rv64 => 44

/-- The implemented ASID bits of a written word (10_state.md R76). -/
theorem satpAsidField_toNat {c : Config} (h : c.asidLen ≤ c.sxlen.asidMax) (v : Word) :
    (satpAsidField c v).toNat = v.toNat / 2 ^ satpAsidPos c.sxlen % 2 ^ c.asidLen := by
  unfold satpAsidField
  cases hx : c.sxlen with
  | rv32 => rw [hx] at h; exact toNat_maskedField v 22 h (by decide)
  | rv64 => rw [hx] at h; simpa [satpAsidPos] using toNat_maskedField (n := 16) v 44 h (Nat.le_refl 16)

/-- The implemented PPN bits of a written word (10_state.md R75). -/
theorem satpPpnField_toNat {c : Config} (h : c.paLen ≤ c.sxlen.paMax) (v : Word) :
    (satpPpnField c v).toNat = v.toNat % 2 ^ (c.paLen - 12) := by
  unfold satpPpnField
  cases hx : c.sxlen with
  | rv32 =>
    have hk : c.paLen - 12 ≤ 22 := Nat.sub_le_sub_right (hx ▸ h) 12
    simpa using toNat_maskedField (w := 44) v 0 hk (by decide)
  | rv64 =>
    have hk : c.paLen - 12 ≤ 44 := Nat.sub_le_sub_right (hx ▸ h) 12
    simpa using toNat_maskedField (w := 44) v 0 hk (Nat.le_refl 44)

/-- With SXLEN = 32 every MODE names a scheme. -/
theorem satpModeOf_rv32 (v : Word) :
    satpModeOf .rv32 (satpModeField .rv32 v) = some (if v.getLsbD 31 then .sv32 else .bare) := by
  have hbit : v.extractLsb' 31 1 = BitVec.ofBool (v.getLsbD 31) := by
    ext i hi
    obtain rfl : i = 0 := by omega
    simp
  unfold satpModeField
  simp only [hbit]
  cases v.getLsbD 31 <;> rfl

/-- With SXLEN = 64 the MODE field is the top four bits. -/
theorem satpModeField_rv64 (v : Word) : satpModeField .rv64 v = v.toNat / 2 ^ 60 := by
  simp only [satpModeField, BitVec.extractLsb'_toNat, Nat.shiftRight_eq_div_pow]
  have := v.isLt
  omega

theorem satpModeOf_rv64_eq_none {k : Nat} (h : k ∉ [0, 8, 9]) : satpModeOf .rv64 k = none := by
  simp only [List.mem_cons, List.not_mem_nil, or_false, not_or] at h
  obtain ⟨h0, h8, h9⟩ := h
  simp [satpModeOf, h0, h8, h9]

theorem satpModeOf_rv64_eq_some {k : Nat} {m : SatpMode}
    (h : (k, m) ∈ [(0, SatpMode.bare), (8, .sv39), (9, .sv48)]) : satpModeOf .rv64 k = some m := by
  simp only [List.mem_cons, Prod.mk.injEq, List.not_mem_nil, or_false] at h
  obtain ⟨rfl, rfl⟩ | ⟨rfl, rfl⟩ | ⟨rfl, rfl⟩ := h <;> rfl

/-- A MODE that is no scheme of the width: the write has no effect (10_state.md R74). -/
theorem csrWrite_satp_reserved {s : State} {v : Word}
    (h : satpModeOf s.cfg.sxlen (satpModeField s.cfg.sxlen v) = none) : (csrWrite .satp v s).satp = s.satp := by
  simp [csrWrite, satpOfWord, h]

/-- A MODE that is a scheme of the width: without support the write has no effect, with it all fields are stored
(10_state.md R74, R75, R76). -/
theorem csrWrite_satp_scheme {s : State} {v : Word} {m : SatpMode} (hw : s.cfg.wf = true)
    (h : satpModeOf s.cfg.sxlen (satpModeField s.cfg.sxlen v) = some m) :
    (s.cfg.satpModes.contains m = false → (csrWrite .satp v s).satp = s.satp) ∧
      (s.cfg.satpModes.contains m = true →
        (csrWrite .satp v s).satp.mode = m ∧
        (csrWrite .satp v s).satp.asid.toNat = v.toNat / 2 ^ satpAsidPos s.cfg.sxlen % 2 ^ s.cfg.asidLen ∧
        (csrWrite .satp v s).satp.ppn.toNat = v.toNat % 2 ^ (s.cfg.paLen - 12)) := by
  obtain ⟨-, hasid, hpa⟩ := satp_bounds_of_wf hw
  have hsatp : (csrWrite .satp v s).satp =
      if s.cfg.satpModes.contains m then ⟨m, satpAsidField s.cfg v, satpPpnField s.cfg v⟩ else s.satp := by
    simp only [csrWrite, satpOfWord, h, satpSupported_of_wf hw]
  refine ⟨fun hm => by rw [hsatp, hm]; rfl, fun hm => ?_⟩
  rw [hsatp, if_pos hm]
  exact ⟨rfl, satpAsidField_toNat hasid v, satpPpnField_toNat hpa v⟩

/-- The word of three fields: the ASID does not reach MODE, nor the PPN the ASID. -/
theorem toNat_threeFields {m a p : Word} {lo n : Nat} (hm : m.toNat * 2 ^ (lo + n) < 2 ^ 64) (hn : lo + n ≤ 64)
    (ha : a.toNat < 2 ^ n) (hp : p.toNat < 2 ^ lo) :
    ((m <<< (lo + n)) ||| (a <<< lo) ||| p).toNat = m.toNat * 2 ^ (lo + n) + a.toNat * 2 ^ lo + p.toNat := by
  have hlow : a.toNat * 2 ^ lo + p.toNat < 2 ^ (lo + n) := by
    calc a.toNat * 2 ^ lo + p.toNat < (a.toNat + 1) * 2 ^ lo := by rw [Nat.add_mul, Nat.one_mul]; omega
      _ ≤ 2 ^ n * 2 ^ lo := Nat.mul_le_mul_right _ ha
      _ = 2 ^ (lo + n) := by rw [Nat.add_comm, Nat.pow_add]
  have hfits : a.toNat * 2 ^ lo < 2 ^ 64 := by
    have := Nat.pow_le_pow_right (n := 2) (by decide) hn
    omega
  have hlower := toNat_shiftLeft_or hfits hp
  rw [BitVec.or_assoc, toNat_shiftLeft_or hm (by rw [hlower]; exact hlow), hlower, Nat.add_assoc]

theorem satpModeNum_lt (m : SatpMode) : satpModeNum m < 2 ^ 4 := by
  cases m <;> decide

theorem toNat_satpModeNum (m : SatpMode) : (BitVec.ofNat 64 (satpModeNum m)).toNat = satpModeNum m := by
  cases m <;> rfl

/-- How `satp` reads with SXLEN = 32 (10_state.md R71). -/
theorem satpWord_rv32_toNat {p : Satp} (hm : satpModeNum p.mode < 2) (ha : p.asid.toNat < 2 ^ 9)
    (hp : p.ppn.toNat < 2 ^ 22) :
    (satpWord .rv32 p).toNat = satpModeNum p.mode * 2 ^ 31 + p.asid.toNat * 2 ^ 22 + p.ppn.toNat := by
  have hasid : (p.asid.setWidth 64 &&& 0x1FF : Word).toNat = p.asid.toNat := by
    refine (toNat_and_lowMask (k := 9) (p.asid.setWidth 64 : Word) (by decide)).trans ?_
    rw [BitVec.toNat_setWidth_of_le (by decide), Nat.mod_eq_of_lt ha]
  have hppn : (p.ppn.setWidth 64 &&& 0x3FFFFF : Word).toNat = p.ppn.toNat := by
    refine (toNat_and_lowMask (k := 22) (p.ppn.setWidth 64 : Word) (by decide)).trans ?_
    rw [BitVec.toNat_setWidth_of_le (by decide), Nat.mod_eq_of_lt hp]
  have hmode := toNat_satpModeNum p.mode
  have h := toNat_threeFields (m := BitVec.ofNat 64 (satpModeNum p.mode)) (a := p.asid.setWidth 64 &&& 0x1FF)
    (p := p.ppn.setWidth 64 &&& 0x3FFFFF) (lo := 22) (n := 9) (by omega) (by decide) (by omega) (by omega)
  rwa [hasid, hppn, hmode] at h

/-- How `satp` reads with SXLEN = 64 (10_state.md R72). -/
theorem satpWord_rv64_toNat {p : Satp} :
    (satpWord .rv64 p).toNat = satpModeNum p.mode * 2 ^ 60 + p.asid.toNat * 2 ^ 44 + p.ppn.toNat := by
  have hlt := satpModeNum_lt p.mode
  have hasid : (p.asid.setWidth 64 : Word).toNat = p.asid.toNat := BitVec.toNat_setWidth_of_le (by decide)
  have hppn : (p.ppn.setWidth 64 : Word).toNat = p.ppn.toNat := BitVec.toNat_setWidth_of_le (by decide)
  have hmode := toNat_satpModeNum p.mode
  have h := toNat_threeFields (m := BitVec.ofNat 64 (satpModeNum p.mode)) (a := p.asid.setWidth 64)
    (p := p.ppn.setWidth 64) (lo := 44) (n := 16) (by omega) (by decide) (by omega) (by omega)
  rwa [hasid, hppn, hmode] at h

/-- Settles O38: a write by the scheme its MODE names (`csrWrite_satp_scheme`) or by there being none, a read by its
three fields. -/
theorem satpReadAndWriteRules : Obligations.SatpReadAndWriteRules := by
  unfold Obligations.SatpReadAndWriteRules
  intro s v hw
  refine ⟨fun hx m hm => ?write32, fun hx => ⟨fun hres => ?reserved64, fun m hm => ?write64⟩,
    fun hx ha hp k hk => ?read32, fun hx k hk => ?read64⟩
  case write32 =>
    have h := csrWrite_satp_scheme (v := v) (m := m) hw (by rw [hx, hm]; exact satpModeOf_rv32 v)
    rwa [hx] at h
  case reserved64 =>
    exact csrWrite_satp_reserved (by rw [hx, satpModeField_rv64]; exact satpModeOf_rv64_eq_none hres)
  case write64 =>
    have h := csrWrite_satp_scheme (v := v) hw (by rw [hx, satpModeField_rv64]; exact satpModeOf_rv64_eq_some hm)
    rwa [hx] at h
  case read32 =>
    have hmode : satpModeNum s.satp.mode = k ∧ k < 2 := by
      simp only [List.mem_cons, Prod.mk.injEq, List.not_mem_nil, or_false] at hk
      obtain ⟨h, rfl⟩ | ⟨h, rfl⟩ := hk <;> rw [h] <;> decide
    obtain ⟨hk, hlt⟩ := hmode
    rw [← hk, csrRead, hx]
    exact satpWord_rv32_toNat (hk ▸ hlt) ha hp
  case read64 =>
    have hmode : satpModeNum s.satp.mode = k := by
      simp only [List.mem_cons, Prod.mk.injEq, List.not_mem_nil, or_false] at hk
      obtain ⟨h, rfl⟩ | ⟨h, rfl⟩ | ⟨h, rfl⟩ := hk <;> rw [h] <;> rfl
    rw [← hmode, csrRead, hx]
    exact satpWord_rv64_toNat

end Sys2Proof.Machine
end

section
/-! SUPPORT. The statements about translation of 21_address_translation.md, proved. -/

namespace Sys2Proof.Machine

/-! ## Translation off -/

/-- Settles O40: with translation off an access is its check (`access_bare`), which passes or raises the access fault
of the type. -/
theorem bareNeverPageFaults : Obligations.BareNeverPageFaults := by
  unfold Obligations.BareNeverPageFaults
  intro t va n s hbare
  refine ⟨fun hpass => ?granted, fun hfail => ⟨accessFaultOf t, ?refused, ?fault⟩⟩
  case granted => rw [access_bare hbare, if_pos hpass]
  case refused => rw [access_bare hbare, if_neg (Bool.eq_false_iff.mp hfail)]
  case fault => cases t <;> rfl

end Sys2Proof.Machine
end

section
/-! SUPPORT. The statements about SFENCE.VMA of 40_sfence_vma.md, proved. -/

namespace Sys2Proof.Machine

/-! ## What a fence leaves in the cache -/

theorem exec_sfenceVma_of_supervisor {s : State} (h : s.priv = .supervisor) (rs1 rs2 : Reg) :
    exec (.sfenceVma rs1 rs2) s = .next (retire (fenceTc (vaSelector rs1 s) (asidSelector rs2 s) s)) := by
  simp only [exec, execSfenceVma, h]

/-- A fence leaves an entry only if its selectors do not cover it, and adds none (40_sfence_vma.md R205). -/
theorem mem_fenceTc {va : Option Word} {asid : Option (BitVec 16)} {s : State} {e : TcEntry}
    (h : e ∈ (fenceTc va asid s).tc) : e ∈ s.tc ∧ covered s.satp.mode va asid e = false := by
  obtain ⟨hmem, hkeep⟩ := List.mem_filter.1 h
  rw [Bool.and_eq_true, Bool.not_eq_true'] at hkeep
  exact ⟨hmem, hkeep.1⟩

/-- A fence with both selectors ALL covers every entry, so it leaves none (40_sfence_vma.md R202). -/
theorem fenceTc_all (s : State) : (fenceTc none none s).tc = [] :=
  List.eq_nil_iff_forall_not_mem.2 fun _ he => Bool.noConfusion (mem_fenceTc he).2

/-! ## Translation with an empty cache -/

/-- Two ways to go on that agree after every success agree. -/
theorem Access.Meets.andThen_congr {α β : Type} {a : Access α} {f g : α → State → Access β} {P : α → State → Prop}
    {Q : Exc → Word → State → Prop} (h : a.Meets P Q) (hfg : ∀ v s, P v s → f v s = g v s) :
    a.andThen f = a.andThen g := by
  cases a with
  | ok v s => exact hfg v s h
  | raise e tval s => rfl
  | refuse r => rfl

/-- With an empty cache steps 2 and 3 read memory, whether or not they may use the cache. -/
theorem readLevel_emptyCache (useTc : Bool) (m : SatpMode) (t : AccessType) (va : Word) (i a : Nat) {s : State}
    (h : s.tc = []) : readLevel useTc m t va i a s = readLevel false m t va i a s := by
  simp only [readLevel, readPte_uncached _ _ _ _ _ h]

/-- Steps 2 and 3 put nothing into an empty cache. -/
theorem readLevel_keepsEmpty (useTc : Bool) (m : SatpMode) (t : AccessType) (va : Word) (i a : Nat) {s : State}
    (h : s.tc = []) : (readLevel useTc m t va i a s).Meets (fun _ s1 => s1.tc = []) (fun _ _ _ => True) := by
  simp only [readLevel, readPte_uncached _ _ _ _ _ h]
  split
  · split
    · exact h
    · trivial
  · trivial

/-- With an empty cache a walk is one over memory: the cache stays empty from level to level. -/
theorem walk_emptyCache (useTc : Bool) (m : SatpMode) (t : AccessType) (va : Word) (i a : Nat) {s : State}
    (h : s.tc = []) : walk useTc m t va i a s = walk false m t va i a s := by
  induction i generalizing a s with
  | zero => simp only [walk, readLevel_emptyCache useTc m t va 0 a h]
  | succ i ih =>
    simp only [walk, readLevel_emptyCache useTc m t va (i + 1) a h]
    refine (readLevel_keepsEmpty false m t va (i + 1) a h).andThen_congr fun f s1 h1 => ?_
    rw [ih _ h1]

/-- With an empty cache a pass is one over memory; steps 5 to 8 do not look at the cache. -/
theorem attempt_emptyCache (useTc : Bool) (m : SatpMode) (t : AccessType) (va : Word) {s : State} (h : s.tc = []) :
    attempt useTc m t va s = attempt false m t va s := by
  simp only [attempt, walk_emptyCache useTc m t va _ _ h]

/-- Settles O24: with both registers `x0` the selectors are ALL, which leaves the cache empty (`fenceTc_all`), and over
an empty cache a pass reads memory (`attempt_emptyCache`). -/
theorem fullFenceForcesMemoryWalks : Obligations.FullFenceForcesMemoryWalks := by
  unfold Obligations.FullFenceForcesMemoryWalks
  intro s hp
  have hempty : (retire (fenceTc (vaSelector 0 s) (asidSelector 0 s) s)).tc = [] := by
    rw [retire_tc]; exact fenceTc_all s
  exact ⟨_, exec_sfenceVma_of_supervisor hp 0 0, hempty, fun m ty va => attempt_emptyCache true m ty va hempty⟩

end Sys2Proof.Machine
end

section
/-! SUPPORT. The statements about the CSR instructions of 42_csr_access.md, proved. -/

namespace Sys2Proof.Machine

/-! ## Retiring into a register -/

/-- Retiring with one integer register written: the counter, the pc and that register, and nothing else. -/
theorem retire_setX_retiresInto (rd : Reg) (v : Word) (s : State) : RetiresInto rd v s (retire (setX rd v s)) := by
  have hx (r : Reg) : getX r (retire (setX rd v s)) = getX r (setX rd v s) := getX_congr (retire_x _) r
  refine ⟨?_, fun r hr => (hx r).trans (getX_setX_other hr v s), fun a => by simp, by simp, by simp, by simp,
    by simp [KeepsSurroundings]⟩
  rw [hx]
  by_cases h0 : rd = 0
  · rw [if_pos h0, h0, getX_zero]
  · rw [if_neg h0, getX_setX_same h0]

theorem retire_countsOne (s : State) : CountsOne s (retire s) := by
  intro n
  by_cases h : n = 2
  · subst h; simp
  · have hn : ¬2 = n.val := fun e => h (Fin.ext e.symm)
    simp [h, hn]

theorem retire_setX_countsOne (rd : Reg) (v : Word) (s : State) : CountsOne s (retire (setX rd v s)) := by
  simpa [CountsOne] using retire_countsOne s

theorem retire_setX_keepsCsrs (rd : Reg) (v : Word) (s : State) : KeepsCsrs s (retire (setX rd v s)) := by
  simp [KeepsCsrs]

/-! ## What a CSR instruction leaves -/

/-- CSRs and integer registers do not meet: the two writes of a CSR instruction can be done in either order. -/
theorem csrWrite_setX (c : Csr) (v w : Word) (rd : Reg) (s : State) :
    csrWrite c v (setX rd w s) = setX rd w (csrWrite c v s) := by
  by_cases h0 : rd = 0
  · rw [h0, setX_zero, setX_zero]
  · cases c <;> simp only [csrWrite, setX, if_neg h0]

/-- The state a CSR instruction writes `rd` in and retires from: the CSR is written, where the instruction writes. -/
def csrWritten (c : Csr) (wr : Bool) (v : Word) (s : State) : State :=
  if wr then csrWrite c v s else s

theorem csrWritten_others (c : Csr) (wr : Bool) (v : Word) (s : State) : KeepsCsrsBut c s (csrWritten c wr v s) := by
  cases wr
  · simp [csrWritten, KeepsCsrsBut]
  · exact csrWrite_others c v s

/-- On a supervisor CSR, whose read changes nothing, a CSR instruction is the write of the CSR, then that of `rd`. -/
theorem csrAccess_of_noCounter {c : Csr} (h : counterBit c = none) (rd : Reg) (wr : Bool) (op : Word → Word)
    (s : State) : csrAccess c rd wr op s =
      retire (setX rd (csrRead c s).1 (csrWritten c wr (op (csrBase c (csrRead c s).1 s)) s)) := by
  rw [csrAccess_eq, csrRead_of_noCounter h]
  cases wr
  · rfl
  · exact congrArg retire (csrWrite_setX ..)

/-- A CSR write is not seen by what retiring into a register keeps. -/
theorem RetiresInto.of_csrWritten {rd : Reg} {v w : Word} {c : Csr} {wr : Bool} {s t : State}
    (h : RetiresInto rd v (csrWritten c wr w s) t) : RetiresInto rd v s t := by
  cases wr
  · exact h
  · simpa [RetiresInto, KeepsRegistersBut, KeepsMemory, KeepsSurroundings, csrWritten, getX] using h

theorem CountsOne.of_csrWritten {w : Word} {c : Csr} {wr : Bool} {s t : State}
    (h : CountsOne (csrWritten c wr w s) t) : CountsOne s t := by
  cases wr
  · exact h
  · simpa [CountsOne, csrWritten] using h

theorem KeepsCsrsBut.congr {c : Csr} {s u t : State} (h : KeepsCsrsBut c s u) (k : KeepsCsrs u t) :
    KeepsCsrsBut c s t := by
  obtain ⟨k1, k2, k3, k4, k5, k6, k7, k8, k9, k10⟩ := k
  simpa only [KeepsCsrsBut, k1, k2, k3, k4, k5, k6, k7, k8, k9, k10] using h

/-- A CSR instruction on a supervisor CSR in S-mode (42_csr_access.md section 2): the check passes, `rd` takes the
value read, and the CSR is written with what `op` makes of the base value. -/
theorem csrInstr_of_supervisor {s : State} {num : CsrNum} {c : Csr} (hp : s.priv = .supervisor)
    (hc : csrOf s.cfg.sxlen num = some c) (hn : counterBit c = none) (i : Instr) (rd : Reg) (wr : Bool)
    (op : Word → Word) :
    ∃ t, csrInstr i num rd wr op s = .next t ∧ RetiresInto rd (csrRead c s).1 s t ∧ CountsOne s t ∧
      KeepsCsrs (csrWritten c wr (op (csrBase c (csrRead c s).1 s)) s) t ∧ KeepsCsrsBut c s t := by
  refine ⟨_, csrInstr_of_check (csrCheck_of_supervisor hp hc hn wr) i rd op, ?_⟩
  rw [csrAccess_of_noCounter hn]
  have hkeeps := retire_setX_keepsCsrs rd (csrRead c s).1 (csrWritten c wr (op (csrBase c (csrRead c s).1 s)) s)
  exact ⟨.of_csrWritten (retire_setX_retiresInto ..), .of_csrWritten (retire_setX_countsOne _ _ _), hkeeps,
    (csrWritten_others ..).congr hkeeps⟩

/-- A CSR instruction that writes unless its operand field is 0, which `isZero` says of it (42_csr_access.md R245). -/
theorem csrInstr_unlessZero {s : State} {num : CsrNum} {c : Csr} {base : Word} (hp : s.priv = .supervisor)
    (hc : csrOf s.cfg.sxlen num = some c) (hn : counterBit c = none)
    (hb : base = csrBase c (csrRead c s).1 s) (i : Instr) (rd : Reg) (isZero : Prop) [Decidable isZero]
    (op : Word → Word) :
    ∃ t, csrInstr i num rd (decide ¬isZero) op s = .next t ∧ RetiresInto rd (csrRead c s).1 s t ∧ CountsOne s t ∧
      KeepsCsrsBut c s t ∧ (if isZero then KeepsCsrs s t else KeepsCsrs (csrWrite c (op base) s) t) := by
  obtain ⟨t, hexec, hretires, hcounts, hwritten, hothers⟩ :=
    csrInstr_of_supervisor hp hc hn i rd (decide ¬isZero) op
  refine ⟨t, hexec, hretires, hcounts, hothers, ?_⟩
  rw [← hb] at hwritten
  by_cases hz : isZero <;> simpa [csrWritten, hz] using hwritten

/-! ## Operands and base values -/

/-- The immediate is below 32, so zero-extension keeps it (30_encoding.md R183). -/
theorem uimmValue_of_lt {uimm : Nat} (h : uimm < 32) : uimmValue uimm = BitVec.ofNat 64 uimm := by
  apply BitVec.eq_of_toNat_eq
  simp only [uimmValue, BitVec.toNat_setWidth, BitVec.toNat_ofNat]
  omega

/-- `sip` with another value at UEIP: bit 8 is replaced, every other bit stays. -/
theorem sipWordWith_replace (c : Config) (p : Sip) (old new : Bool) :
    sipWordWith c p new = (sipWordWith c p old &&& ~~~0x100) ||| bitAt (c.hasN && new) 8 := by
  have hmask : (0x100 : Word) = bitAt true 8 := rfl
  ext k hk
  simp only [sipWordWith, hmask, BitVec.getElem_or, BitVec.getElem_and, BitVec.getElem_not, getElem_bitAt]
  by_cases h8 : 8 = k
  · subst h8; simp
  · simp [h8]

/-- The base value as the obligations spell it (42_csr_access.md R248). -/
theorem csrBase_read (c : Csr) (s : State) :
    csrBase c (csrRead c s).1 s =
      if c = .sip then
        ((csrRead c s).1 &&& ~~~0x100) ||| (if s.cfg.hasN && s.sip.ueipSw then 0x100 else 0)
      else (csrRead c s).1 := by
  by_cases h : c = .sip
  · subst h; exact sipWordWith_replace ..
  · rw [if_neg h]
    cases c
    case sip => exact absurd rfl h
    all_goals rfl

/-! ## The swap, set and clear forms -/

/-- Settles O26: both forms write always, with a value that does not depend on the base value
(`csrInstr_of_supervisor`). -/
theorem csrSwapForms : Obligations.CsrSwapForms := by
  unfold Obligations.CsrSwapForms
  intro s num c rd rs1 uimm hp hc hn hu
  rw [← uimmValue_of_lt hu]
  exact ⟨csrInstr_of_supervisor hp hc hn _ rd true fun _ => getX rs1 s,
    csrInstr_of_supervisor hp hc hn _ rd true fun _ => uimmValue uimm⟩

/-- Settles O27: the operand field is 0 or the CSR is written with the base value or the operand
(`csrInstr_unlessZero`). -/
theorem csrSetForms : Obligations.CsrSetForms := by
  unfold Obligations.CsrSetForms
  intro s num c rd rs1 uimm base hp hc hn hu hb
  rw [← csrBase_read] at hb
  rw [← uimmValue_of_lt hu]
  exact ⟨csrInstr_unlessZero hp hc hn hb _ rd (rs1 = 0) (· ||| getX rs1 s),
    csrInstr_unlessZero hp hc hn hb _ rd (uimm = 0) (· ||| uimmValue uimm)⟩

/-- Settles O28: the operand field is 0 or the CSR is written with the base value and not the operand
(`csrInstr_unlessZero`). -/
theorem csrClearForms : Obligations.CsrClearForms := by
  unfold Obligations.CsrClearForms
  intro s num c rd rs1 uimm base hp hc hn hu hb
  rw [← csrBase_read] at hb
  rw [← uimmValue_of_lt hu]
  exact ⟨csrInstr_unlessZero hp hc hn hb _ rd (rs1 = 0) (· &&& ~~~(getX rs1 s)),
    csrInstr_unlessZero hp hc hn hb _ rd (uimm = 0) (· &&& ~~~(uimmValue uimm))⟩

end Sys2Proof.Machine
end

section
/-! SUPPORT. The statements about traps of 60_exceptions.md, proved. -/

namespace Sys2Proof.Machine

/-! ## What taking a trap leaves unchanged -/

theorem trapToS_keepsUntrappedCsrs (c : Cause) (tval epc : Word) (s : State) :
    KeepsUntrappedCsrs s (trapToS c tval epc s) := by
  simp [KeepsUntrappedCsrs]

theorem trapToS_keepsRegisters (c : Cause) (tval epc : Word) (s : State) : KeepsRegisters s (trapToS c tval epc s) :=
  getX_congr (trapToS_x c tval epc s)

theorem trapToS_keepsMemory (c : Cause) (tval epc : Word) (s : State) : KeepsMemory s (trapToS c tval epc s) := by
  simp [KeepsMemory]

theorem trapToS_keepsSurroundings (c : Cause) (tval epc : Word) (s : State) :
    KeepsSurroundings s (trapToS c tval epc s) := by
  simp [KeepsSurroundings]

/-! ## Trap entry -/

/-- Settles O13: the eight assignments are read off the fields of `trapToS`, SPP, SPIE and SIE out of its `sstatus`;
everything else is the four frames above, the counters and the cache. -/
theorem trapEntryState : Obligations.TrapEntryState := by
  unfold Obligations.TrapEntryState
  intro cause tval epc s
  have hstatus := trapToS_sstatus cause tval epc s
  have hspp : (trapToS cause tval epc s).sstatus.spp = decide (s.priv = .supervisor) := by rw [hstatus]
  have hspie : (trapToS cause tval epc s).sstatus.spie = s.sstatus.sie := by rw [hstatus]
  have hsie : (trapToS cause tval epc s).sstatus.sie = false := by rw [hstatus]
  exact ⟨trapToS_priv .., trapToS_sepc .., trapToS_scause .., trapToS_stval .., hspp, hspie, hsie, trapToS_pc ..,
    trapToS_keepsUntrappedCsrs .., trapToS_keepsRegisters cause tval epc s, trapToS_keepsMemory cause tval epc s,
    trapToS_counters .., trapToS_tc .., trapToS_keepsSurroundings ..⟩

end Sys2Proof.Machine
end

section
/-! SUPPORT. The statements about the encoding of 30_encoding.md, proved. -/

namespace Sys2Proof.Machine

/-! ## Fields of a word -/

section
variable (imm : BitVec 12) (rs1 : BitVec 5) (funct3 : BitVec 3) (rd : BitVec 5) (opcode : BitVec 7)

@[simp] theorem fieldOpcode_assemble : fieldOpcode (assemble imm rs1 funct3 rd opcode) = opcode :=
  BitVec.extractLsb'_append_eq_right

@[simp] theorem fieldRd_assemble : fieldRd (assemble imm rs1 funct3 rd opcode) = rd := by
  unfold fieldRd assemble
  rw [BitVec.extractLsb'_append_eq_of_le (by decide)]
  exact BitVec.extractLsb'_append_eq_right

@[simp] theorem fieldFunct3_assemble : fieldFunct3 (assemble imm rs1 funct3 rd opcode) = funct3 := by
  unfold fieldFunct3 assemble
  iterate 2 rw [BitVec.extractLsb'_append_eq_of_le (by decide)]
  exact BitVec.extractLsb'_append_eq_right

@[simp] theorem fieldRs1_assemble : fieldRs1 (assemble imm rs1 funct3 rd opcode) = rs1 := by
  unfold fieldRs1 assemble
  iterate 3 rw [BitVec.extractLsb'_append_eq_of_le (by decide)]
  exact BitVec.extractLsb'_append_eq_right

@[simp] theorem fieldCsr_assemble : fieldCsr (assemble imm rs1 funct3 rd opcode) = imm := by
  unfold fieldCsr assemble
  iterate 4 rw [BitVec.extractLsb'_append_eq_of_le (by decide)]
  exact BitVec.extractLsb'_eq_self
end

/-- Two fields of a word that lie side by side are one field. -/
theorem adjacentFields {n : Nat} (w : BitVec n) (lo len hi : Nat) :
    w.extractLsb' (lo + len) hi ++ w.extractLsb' lo len = w.extractLsb' lo (hi + len) :=
  BitVec.extractLsb'_append_extractLsb'_eq_extractLsb' rfl

/-- The five fields are the whole word: no bit lies outside them (30_encoding.md R181, R182). -/
theorem assemble_fields (w : BitVec 32) :
    assemble (fieldCsr w) (fieldRs1 w) (fieldFunct3 w) (fieldRd w) (fieldOpcode w) = w := by
  unfold assemble fieldCsr fieldRs1 fieldFunct3 fieldRd fieldOpcode
  rw [adjacentFields w 15 5 12, adjacentFields w 12 3, adjacentFields w 7 5, adjacentFields w 0 7]
  exact BitVec.extractLsb'_eq_self

/-! Bits 31:20 hold the CSR number, or `funct7` and `rs2`, or the three fields of FENCE. -/

theorem fieldCsr_eq_funct7_rs2 (w : BitVec 32) : fieldCsr w = fieldFunct7 w ++ fieldRs2 w :=
  (adjacentFields w 20 5 7).symm

theorem fieldCsr_eq_fenceFields (w : BitVec 32) : fieldCsr w = fieldFm w ++ fieldPred w ++ fieldSucc w := by
  unfold fieldCsr fieldFm fieldPred fieldSucc
  rw [adjacentFields w 24 4 4]
  exact (adjacentFields w 20 4 8).symm

section
variable (rs1 : BitVec 5) (funct3 : BitVec 3) (rd : BitVec 5) (opcode : BitVec 7)

theorem fieldFunct7_eq (w : BitVec 32) : fieldFunct7 w = (fieldCsr w).extractLsb' 5 7 := by
  rw [fieldCsr_eq_funct7_rs2, BitVec.extractLsb'_append_eq_left]

@[simp] theorem fieldFunct7_assemble (a : BitVec 7) (b : BitVec 5) :
    fieldFunct7 (assemble (a ++ b) rs1 funct3 rd opcode) = a := by
  rw [fieldFunct7_eq, fieldCsr_assemble]
  exact BitVec.extractLsb'_append_eq_left

@[simp] theorem fieldRs2_assemble (a : BitVec 7) (b : BitVec 5) :
    fieldRs2 (assemble (a ++ b) rs1 funct3 rd opcode) = b := by
  have h := congrArg (BitVec.extractLsb' 0 5)
    ((fieldCsr_eq_funct7_rs2 _).symm.trans (fieldCsr_assemble (a ++ b) rs1 funct3 rd opcode))
  rwa [BitVec.extractLsb'_append_eq_right, BitVec.extractLsb'_append_eq_right] at h

/-- The three fields of FENCE are told apart by their places. -/
theorem fenceFields_assemble (a b c : BitVec 4) :
    fieldFm (assemble (a ++ b ++ c) rs1 funct3 rd opcode) = a ∧
      fieldPred (assemble (a ++ b ++ c) rs1 funct3 rd opcode) = b ∧
      fieldSucc (assemble (a ++ b ++ c) rs1 funct3 rd opcode) = c := by
  have h := (fieldCsr_eq_fenceFields _).symm.trans (fieldCsr_assemble (a ++ b ++ c) rs1 funct3 rd opcode)
  have hlow := congrArg (BitVec.extractLsb' 0 4) h
  have hhigh := congrArg (BitVec.extractLsb' 4 8) h
  rw [BitVec.extractLsb'_append_eq_right, BitVec.extractLsb'_append_eq_right] at hlow
  rw [BitVec.extractLsb'_append_eq_left, BitVec.extractLsb'_append_eq_left] at hhigh
  have hmid := congrArg (BitVec.extractLsb' 0 4) hhigh
  have htop := congrArg (BitVec.extractLsb' 4 4) hhigh
  rw [BitVec.extractLsb'_append_eq_right, BitVec.extractLsb'_append_eq_right] at hmid
  rw [BitVec.extractLsb'_append_eq_left, BitVec.extractLsb'_append_eq_left] at htop
  exact ⟨htop, hmid, hlow⟩
end

theorem fenceSetOf_bits (f : FenceSet) : fenceSetOf (fenceSetBits f) = f := by
  obtain ⟨i, o, r, w⟩ := f
  revert i o r w; decide

theorem fenceSetBits_of (b : BitVec 4) : fenceSetBits (fenceSetOf b) = b := by
  revert b; decide

/-! ## The encoder then the decoder -/

/-- The words with `funct3` PRIV that the decoder names or refuses, all their bits fixed. -/
def fixedWords : List (BitVec 32) :=
  [0x00000073#32, 0x00100073#32, 0x00200073#32, 0x10200073#32, 0x10500073#32, 0x30200073#32]

/-- Every fixed word has `rs1` and `rd` 0, and none has the `funct7` of SFENCE.VMA. -/
theorem fixedWords_fields : ∀ w ∈ fixedWords, fieldRs1 w = 0 ∧ fieldRd w = 0 ∧ fieldFunct7 w ≠ 0b0001001#7 := by
  simp [fixedWords, fieldRs1, fieldRd, fieldFunct7]

/-- Past the fixed words, a PRIV word is SFENCE.VMA or it is rejected. -/
theorem decodePriv_of_notFixed {w : BitVec 32} (h : w ∉ fixedWords) :
    decodePriv w =
      if fieldFunct7 w = 0b0001001#7 ∧ fieldRd w = 0 then .ok (.sfenceVma (fieldRs1 w) (fieldRs2 w))
      else .error .undefinedSystem := by
  simp only [fixedWords, List.mem_cons, List.not_mem_nil, or_false, not_or] at h
  obtain ⟨n1, n2, n3, n4, n5, n6⟩ := h
  rw [decodePriv, if_neg n1, if_neg n2, if_neg n3, if_neg n4, if_neg (not_or.2 ⟨n5, n6⟩)]

theorem decodePriv_sfenceVma {w : BitVec 32} (h7 : fieldFunct7 w = 0b0001001#7) (hrd : fieldRd w = 0) :
    decodePriv w = .ok (.sfenceVma (fieldRs1 w) (fieldRs2 w)) := by
  rw [decodePriv_of_notFixed fun hfix => (fixedWords_fields w hfix).2.2 h7, if_pos ⟨h7, hrd⟩]

/-- Every well-formed instruction is decoded from its own word. -/
theorem decodeWord_encode {i : Instr} (h : i.wf = true) : decodeWord (encode i) = .ok i := by
  cases i with
  | ecall | ebreak | uret | sret => rfl
  | sfenceVma rs1 rs2 =>
    have hpriv := decodePriv_sfenceVma (w := encode (.sfenceVma rs1 rs2)) (by simp [encode]) (by simp [encode])
    rw [decodeWord, if_pos (by simp [encode]), decodeSystem, if_pos (by simp [encode]), hpriv]
    simp [encode]
  | csrrw | csrrs | csrrc => simp [decodeWord, decodeSystem, encode]
  | csrrwi rd csr uimm | csrrsi rd csr uimm | csrrci rd csr uimm =>
    have hlt : uimm % 32 = uimm := Nat.mod_eq_of_lt (of_decide_eq_true h)
    simp [decodeWord, decodeSystem, encode, hlt]
  | fence pred succ =>
    obtain ⟨hfm, hpred, hsucc⟩ :=
      fenceFields_assemble 0#5 0#3 0#5 opMiscMem 0b0000#4 (fenceSetBits pred) (fenceSetBits succ)
    have hop : opMiscMem ≠ opSystem := by decide
    simp [decodeWord, encode, hop, hfm, hpred, hsucc, fenceSetOf_bits]

/-! ## Bytes -/

theorem wordOfBytes_bytes (w : BitVec 32) :
    wordOfBytes (w.extractLsb' 0 8) (w.extractLsb' 8 8) (w.extractLsb' 16 8) (w.extractLsb' 24 8) = w := by
  unfold wordOfBytes
  rw [adjacentFields w 16 8 8, adjacentFields w 8 8, adjacentFields w 0 8]
  exact BitVec.extractLsb'_eq_self

/-- Reading the four bytes of a word decodes the word and leaves what follows. -/
theorem decode_bytesOfWord (w : BitVec 32) (rest : List Byte) :
    decode (bytesOfWord w ++ rest) = (decodeWord w).map fun i => (i, rest) :=
  congrArg (fun u => (decodeWord u).map fun i => (i, rest)) (wordOfBytes_bytes w)

/-- Settles O1: the four bytes are put together to the instruction's word (`decode_bytesOfWord`), whose fields are the
operands (`decodeWord_encode`). -/
theorem encodedInstructionsDecode : Obligations.EncodedInstructionsDecode := by
  unfold Obligations.EncodedInstructionsDecode
  intro i rest h
  rw [decode_bytesOfWord, decodeWord_encode h]
  rfl

/-! ## The decoder then the encoder -/

theorem encode_of_decodePriv {w : BitVec 32} {i : Instr} (hop : fieldOpcode w = opSystem)
    (h3 : fieldFunct3 w = 0#3) (h : decodePriv w = .ok i) : encode i = w ∧ i.wf = true := by
  unfold decodePriv at h
  iterate 4 (split at h; · cases h; subst w; exact ⟨by decide, rfl⟩)
  split at h
  · rename_i hsf
    cases h
    have hw := assemble_fields w
    rw [fieldCsr_eq_funct7_rs2, hsf.1, hsf.2, h3, hop] at hw
    exact ⟨hw, rfl⟩
  · split at h <;> cases h

theorem encode_of_decodeSystem {w : BitVec 32} {i : Instr} (hop : fieldOpcode w = opSystem)
    (h : decodeSystem w = .ok i) : encode i = w ∧ i.wf = true := by
  have hw := assemble_fields w
  have himm : BitVec.ofNat 5 (fieldRs1 w).toNat = fieldRs1 w := by simp
  rw [hop] at hw
  unfold decodeSystem at h
  split at h
  · exact encode_of_decodePriv hop ‹_› h
  iterate 3 (split at h; · rename_i h3; cases h; rw [h3] at hw; exact ⟨hw, rfl⟩)
  iterate 3
    (split at h
     · rename_i h3; cases h; rw [h3, ← himm] at hw; exact ⟨hw, decide_eq_true (fieldRs1 w).isLt⟩)
  cases h

/-- Settles O2: in each case of the decoder the fields it has tested and read are all the fields of the word
(`assemble_fields`). -/
theorem decodedWordsEncodeBack : Obligations.DecodedWordsEncodeBack := by
  unfold Obligations.DecodedWordsEncodeBack
  intro w i h
  unfold decodeWord at h
  split at h
  · exact encode_of_decodeSystem ‹_› h
  · split at h
    · rename_i hf
      obtain ⟨hop, h3, hrd, hrs1, hfm⟩ := hf
      cases h
      have hw := assemble_fields w
      rw [fieldCsr_eq_fenceFields, hop, h3, hrd, hrs1, hfm] at hw
      refine ⟨?_, rfl⟩
      simp only [encode, fenceSetBits_of]
      exact hw
    · cases h

/-- Settles O3: each word is decoded by computation. -/
theorem listedWordsDecode : Obligations.ListedWordsDecode := by
  unfold Obligations.ListedWordsDecode
  decide

/-! ## Words that are no instruction -/

/-- An illegal-instruction trap, the trap value in the obligations' terms (60_exceptions.md R293). -/
theorem raiseIllegal_trapped (w : BitVec 32) (s : State) :
    Trapped (.exception .illegalInstruction) (illegalValue s.cfg w) s.pc s (raiseIllegal w s) := by
  rw [← illegalTval_eq]
  exact trapEntryState ..

/-- A word the decoder rejects for another reason than a higher level's traps as illegal. -/
theorem executeWord_rejected {w : BitVec 32} {d : DecodeError} (h : decodeWord w = .error d) (hd : d ≠ .higherLevel)
    (s : State) :
    ∃ t, executeWord w s = .next t ∧
      Trapped (.exception .illegalInstruction) (illegalValue s.cfg w) s.pc s t := by
  refine ⟨raiseIllegal w s, ?_, raiseIllegal_trapped w s⟩
  unfold executeWord
  rw [h]
  cases d with
  | higherLevel => exact absurd rfl hd
  | tooShort | undefinedSystem | noRule => rfl

/-- A SYSTEM word with `funct3` PRIV that is none of the fixed ones and no SFENCE.VMA is rejected. -/
theorem decodeWord_undefinedPriv {w : BitVec 32} (hop : fieldOpcode w = opSystem) (h3 : fieldFunct3 w = 0#3)
    (hfix : w ∉ fixedWords) (hsf : ¬(fieldFunct7 w = 0b0001001#7 ∧ fieldRd w = 0)) :
    decodeWord w = .error .undefinedSystem := by
  rw [decodeWord, if_pos hop, decodeSystem, if_pos h3, decodePriv_of_notFixed hfix, if_neg hsf]

/-- Settles O4: a fixed word has `rs1` and `rd` 0 and not the `funct7` of SFENCE.VMA (`fixedWords_fields`), so the
decoder rejects the word (`decodeWord_undefinedPriv`). -/
theorem fixedFieldViolationsAreIllegal : Obligations.FixedFieldViolationsAreIllegal := by
  unfold Obligations.FixedFieldViolationsAreIllegal
  intro w s hop h3 h
  refine executeWord_rejected (decodeWord_undefinedPriv hop h3 (fun hfix => ?_) fun hsf => ?_) (by decide) s
  · obtain ⟨hrs1, hrd, h7⟩ := fixedWords_fields w hfix
    rcases h with ⟨h7', -⟩ | ⟨-, hrs1' | hrd'⟩
    exacts [h7 h7', hrs1' hrs1, hrd' hrd]
  · rcases h with ⟨-, hrd⟩ | ⟨hcsr, -⟩
    · exact hrd hsf.2
    · have h7 := hsf.1
      rw [fieldFunct7_eq] at h7
      exact absurd h7 ((by simp : ∀ c ∈ [0x000#12, 0x001#12, 0x002#12, 0x102#12],
        c.extractLsb' 5 7 ≠ 0b0001001#7) _ hcsr)

/-- Masking a word masks each of its fields. -/
theorem assemble_and (imm imm' : BitVec 12) (rs1 rs1' : BitVec 5) (f3 f3' : BitVec 3) (rd rd' : BitVec 5)
    (op op' : BitVec 7) :
    assemble imm rs1 f3 rd op &&& assemble imm' rs1' f3' rd' op' =
      assemble (imm &&& imm') (rs1 &&& rs1') (f3 &&& f3') (rd &&& rd') (op &&& op') := by
  unfold assemble
  exact BitVec.and_append.trans (by rw [BitVec.and_append, BitVec.and_append, BitVec.and_append])

/-- The bits SFENCE.VMA fixes: all but `rs1` and `rs2`. -/
theorem sfenceVma_mask {w : BitVec 32} (hop : fieldOpcode w = opSystem) (h3 : fieldFunct3 w = 0#3)
    (h7 : fieldFunct7 w = 0b0001001#7) (hrd : fieldRd w = 0) : w &&& 0xFE007FFF = 0x12000073 := by
  rw [← assemble_fields w, fieldCsr_eq_funct7_rs2, h7, hrd, h3, hop,
    show (0xFE007FFF : BitVec 32) = assemble (0x7F#7 ++ 0#5) 0#5 7#3 31#5 0x7F#7 by decide, assemble_and,
    BitVec.and_append,
    BitVec.and_zero, BitVec.and_zero]
  decide

/-- The bits FENCE fixes: all but its two sets. -/
theorem fence_mask {w : BitVec 32} (hop : fieldOpcode w = opMiscMem) (h3 : fieldFunct3 w = 0#3) (hrd : fieldRd w = 0)
    (hrs1 : fieldRs1 w = 0) (hfm : fieldFm w = 0) : w &&& 0xF00FFFFF = 0x0000000F := by
  rw [← assemble_fields w, fieldCsr_eq_fenceFields, hfm, hrd, hrs1, h3, hop,
    show (0xF00FFFFF : BitVec 32) = assemble (0xF#4 ++ 0#4 ++ 0#4) 31#5 7#3 31#5 0x7F#7 by decide, assemble_and,
    BitVec.and_append, BitVec.and_append, BitVec.and_zero, BitVec.and_zero]
  decide

/-- Settles O5: the two refused words by computation; another word is rejected unless it has the fixed bits of
SFENCE.VMA (`sfenceVma_mask`) or FENCE (`fence_mask`). -/
theorem undefinedWordsAreIllegal : Obligations.UndefinedWordsAreIllegal := by
  unfold Obligations.UndefinedWordsAreIllegal
  intro w s
  refine ⟨?refused, fun (hop : fieldOpcode w = opSystem) hfix hmask h3 => ?system,
    fun (hop : fieldOpcode w ≠ opSystem) hmask => ?other⟩
  case refused =>
    rintro (rfl | rfl)
    · rw [executeWord, show decodeWord 0x10500073 = .error .higherLevel by decide]
    · rw [executeWord, show decodeWord 0x30200073 = .error .higherLevel by decide]
  case system =>
    rcases h3 with h3 | h3
    · exact executeWord_rejected (decodeWord_undefinedPriv hop h3 hfix fun hsf =>
        hmask (sfenceVma_mask hop h3 hsf.1 hsf.2)) (by decide) s
    · refine executeWord_rejected (d := .undefinedSystem) ?_ (by decide) s
      rw [decodeWord, if_pos hop, decodeSystem, h3]
      rfl
  case other =>
    refine executeWord_rejected (d := .noRule) ?_ (by decide) s
    rw [decodeWord, if_neg hop, if_neg fun hf => hmask (fence_mask hf.1 hf.2.1 hf.2.2.1 hf.2.2.2.1 hf.2.2.2.2)]

end Sys2Proof.Machine
end

section
/-! SUPPORT. The statements about memory of 20_memory.md, proved. -/

namespace Sys2Proof.Machine

/-! ## Bytes stored and read back -/

/-- A byte stored reads back: the bytes stored after it lie above it. -/
theorem storeBytes_read_inside {pa k : Nat} {b : Byte} {bs : List Byte} {s : State} (hw : s.mem.wf = true)
    (h : bs[k]? = some b) : (storeBytes pa bs s).mem.read (pa + k) = b := by
  induction bs generalizing pa k s with
  | nil => cases h
  | cons c bs ih =>
    have hw' : (storeByte pa c s).mem.wf = true := Memory.wf_write pa c hw
    cases k with
    | zero =>
      cases h
      rw [Nat.add_zero, storeBytes, storeBytes_read_outside _ _ _ (.inl (Nat.lt_add_one pa))]
      exact Memory.read_write_same_from hw pa _
    | succ k =>
      have hk : pa + (k + 1) = pa + 1 + k := by omega
      rw [hk]
      exact ih hw' h

theorem getElem?_leBytes (v : Word) {n k : Nat} (h : k < n) :
    (leBytes v n)[k]? = some ((v >>> (8 * k)).setWidth 8) := by
  induction n generalizing v k with
  | zero => omega
  | succ n ih =>
    cases k with
    | zero => simp [leBytes]
    | succ k =>
      have hk : 8 * (k + 1) = 8 + 8 * k := by omega
      rw [leBytes, List.getElem?_cons_succ, ih _ (by omega), hk, ← BitVec.shiftRight_add]

/-- The `k`-th byte of a word, as a number. -/
theorem toNat_byte (v : Word) (k : Nat) : ((v >>> (8 * k)).setWidth 8).toNat = v.toNat / 2 ^ (8 * k) % 256 := by
  rw [BitVec.toNat_setWidth, BitVec.toNat_ushiftRight, Nat.shiftRight_eq_div_pow]

/-- One byte more is put below the bytes above it, which shifting does not lose (20_memory.md R103). -/
theorem readLe_succ_toNat {m : Memory} {pa n : Nat} (h : (m.readLe (pa + 1) n).toNat < 2 ^ 56) :
    (m.readLe pa (n + 1)).toNat = (m.readLe (pa + 1) n).toNat * 2 ^ 8 + (m.read pa).toNat := by
  have hb : ((m.read pa).setWidth 64).toNat = (m.read pa).toNat := BitVec.toNat_setWidth_of_le (by decide)
  have hlt := (m.read pa).isLt
  rw [Memory.readLe, BitVec.or_comm, toNat_shiftLeft_or (by omega) (by omega), hb]

theorem readLe_lt (m : Memory) (pa : Nat) {n : Nat} (h : n ≤ 8) : (m.readLe pa n).toNat < 2 ^ (8 * n) := by
  induction n generalizing pa with
  | zero => exact Nat.one_pos
  | succ n ih =>
    have hrest := ih (pa + 1) (by omega)
    have hpow : 2 ^ (8 * n) ≤ 2 ^ 56 := Nat.pow_le_pow_right (by decide) (by omega)
    have hlt := (m.read pa).isLt
    rw [readLe_succ_toNat (by omega), Nat.mul_succ, Nat.pow_add]
    omega

/-- Bytes that are those of a value, in ascending order, read as that value. -/
theorem readLe_of_bytes {m : Memory} {pa n : Nat} {v : Word} (h : n ≤ 8)
    (hb : ∀ k, k < n → m.read (pa + k) = (v >>> (8 * k)).setWidth 8) :
    (m.readLe pa n).toNat = v.toNat % 2 ^ (8 * n) := by
  induction n generalizing pa v with
  | zero => rw [Nat.mul_zero, Nat.pow_zero, Nat.mod_one]; rfl
  | succ n ih =>
    have hrest : (m.readLe (pa + 1) n).toNat = (v >>> 8).toNat % 2 ^ (8 * n) := ih (by omega) fun k hk => by
      have h8 : 8 + 8 * k = 8 * (k + 1) := by omega
      have hpa : pa + 1 + k = pa + (k + 1) := by omega
      rw [← BitVec.shiftRight_add, h8, hpa]
      exact hb (k + 1) (by omega)
    have hfirst : (m.read pa).toNat = v.toNat % 2 ^ 8 := by
      rw [show m.read pa = v.setWidth 8 from hb 0 (by omega), BitVec.toNat_setWidth]
    have hpow : 2 ^ (8 * n) ≤ 2 ^ 56 := Nat.pow_le_pow_right (by decide) (by omega)
    have hlt := readLe_lt m (pa + 1) (n := n) (by omega)
    rw [readLe_succ_toNat (by omega), hrest, hfirst, BitVec.toNat_ushiftRight, Nat.shiftRight_eq_div_pow,
      Nat.mul_succ, Nat.add_comm (8 * n), Nat.pow_add, Nat.mod_mul]
    ring

theorem physWrite_read_inside {pa n k : Nat} {v : Word} {s : State} (hw : s.mem.wf = true) (h : k < n) :
    (physWrite pa n v s).mem.read (pa + k) = (v >>> (8 * k)).setWidth 8 :=
  storeBytes_read_inside hw (getElem?_leBytes v h)

theorem physRead_physWrite {pa n : Nat} {v : Word} {s : State} (hw : s.mem.wf = true) (h : n ≤ 8) :
    (physRead pa n (physWrite pa n v s)).toNat = v.toNat % 2 ^ (8 * n) :=
  readLe_of_bytes h fun _ hk => physWrite_read_inside hw hk

/-- Settles O48: each byte stored reads back (`physWrite_read_inside`), and the bytes read are put together as they were
taken apart (`physRead_physWrite`). -/
theorem storedValueReadsBack : Obligations.StoredValueReadsBack := by
  unfold Obligations.StoredValueReadsBack
  intro pa n v s hw hn
  refine ⟨physRead_physWrite hw hn, fun k hk => ?_, fun a ha => physWrite_read_outside pa n v s ha⟩
  rw [physWrite_read_inside hw hk, toNat_byte]

end Sys2Proof.Machine
end

section
/-! SUPPORT. The statements about walks, leaves and accesses of 21_address_translation.md, proved. -/

namespace Sys2Proof.Machine

/-! ## Draws and notes -/

/-- What draws and notes leave of the state, as a walk looks at it. -/
theorem NotesOnly.fields {s t : State} (h : NotesOnly s t) :
    t.cfg = s.cfg ∧ t.satp = s.satp ∧ t.tc = s.tc ∧ t.mem = s.mem ∧ t.priv = s.priv ∧ t.sstatus = s.sstatus := by
  unfold NotesOnly at h
  rw [h]
  exact ⟨rfl, rfl, rfl, rfl, rfl, rfl⟩

theorem RaisesIn.of_notes {α : Type} {s s1 : State} {e : Exc} {tv : Word} {a : Access α} (hs : NotesOnly s s1)
    (h : RaisesIn s1 e tv a) : RaisesIn s e tv a := by
  obtain ⟨s2, ha, h2⟩ := h
  exact ⟨s2, ha, hs.trans h2⟩

/-! ## The bits of a PTE (R134, R150, R153 to R155) -/

/-- A leaf PTE in the obligations' terms is one that steps 3 and 4 take for a leaf. -/
theorem leafPte_iff (pte : Word) : LeafPte pte ↔ pteValid pte = true ∧ pteLeaf pte = true := by
  unfold LeafPte pteValid pteLeaf pteV pteR pteW pteX
  cases pte.getLsbD 0 <;> cases pte.getLsbD 1 <;> cases pte.getLsbD 2 <;> cases pte.getLsbD 3 <;> decide

/-- Step 5 is what the obligations call permitting. -/
theorem leafPermits_iff (pte : Word) (t : AccessType) (s : State) :
    LeafPermits pte t s ↔ permitted pte t s.priv s.sstatus.sum s.sstatus.mxr = true := by
  unfold LeafPermits permitted pteU pteX pteR pteW
  cases s.priv <;> cases t <;> simp

/-- Step 7 asks for an update where the leaf is not marked. -/
theorem leafMarked_iff (pte : Word) (t : AccessType) : LeafMarked pte t ↔ needsAdUpdate pte t = false := by
  unfold LeafMarked needsAdUpdate pteA pteD
  cases t <;> simp

theorem superpageMisaligned_eq_false (m : SatpMode) (pte : Word) (i : Nat) :
    superpageMisaligned m pte i = false ↔ ptePpn m pte % 2 ^ (i * vpnBits m) = 0 := by
  simp [superpageMisaligned]

theorem superpageMisaligned_eq_true (m : SatpMode) (pte : Word) (i : Nat) :
    superpageMisaligned m pte i = true ↔ ptePpn m pte % 2 ^ (i * vpnBits m) ≠ 0 := by
  simp [superpageMisaligned]

/-- The update sets A, bit 6, and for a store D, bit 7. -/
theorem pteUpdated_eq (pte : Word) (t : AccessType) :
    pteUpdated pte t = pte ||| 0x40 ||| (if t = .store then 0x80 else 0) := by
  cases t <;> rfl

/-! ## Faults -/

/-- Settles O41: an access raises only what `FaultOf` allows (`access_meets`), whose exceptions are those of its
type. -/
theorem faultingAccessChangesNothing : Obligations.FaultingAccessChangesNothing := by
  unfold Obligations.FaultingAccessChangesNothing
  intro t va n s s1 e tv h
  have hm := access_meets t va n s
  rw [h] at hm
  obtain ⟨he, htv, hs⟩ := hm
  refine ⟨htv, hs, ?_, ?_, ?_⟩ <;> (rintro rfl; exact he)

/-- Upper bits whose number is neither the least nor the greatest are not all equal. -/
theorem upperBits_mixed {va : Word} {lo n : Nat} (hn : lo + n = 64) (h0 : va.toNat / 2 ^ lo ≠ 0)
    (h1 : va.toNat / 2 ^ lo ≠ 2 ^ n - 1) :
    va.extractLsb' lo n ≠ 0 ∧ va.extractLsb' lo n ≠ BitVec.allOnes n := by
  have hlt : va.toNat / 2 ^ lo < 2 ^ n := Nat.div_lt_of_lt_mul (by rw [← Nat.pow_add, hn]; exact va.isLt)
  have hu : (va.extractLsb' lo n).toNat = va.toNat / 2 ^ lo := by
    rw [BitVec.extractLsb'_toNat, Nat.shiftRight_eq_div_pow, Nat.mod_eq_of_lt hlt]
  exact ⟨fun h => h0 (by rw [← hu, h]; exact BitVec.toNat_zero),
    fun h => h1 (by rw [← hu, h, BitVec.toNat_allOnes])⟩

theorem canonical_sv39_eq_false {va : Word} (h0 : va.toNat / 2 ^ 38 ≠ 0) (h1 : va.toNat / 2 ^ 38 ≠ 2 ^ 26 - 1) :
    canonical .sv39 va = false := by
  simpa only [canonical, Bool.or_eq_false_iff, decide_eq_false_iff_not] using upperBits_mixed (n := 26) rfl h0 h1

theorem canonical_sv48_eq_false {va : Word} (h0 : va.toNat / 2 ^ 47 ≠ 0) (h1 : va.toNat / 2 ^ 47 ≠ 2 ^ 17 - 1) :
    canonical .sv48 va = false := by
  simpa only [canonical, Bool.or_eq_false_iff, decide_eq_false_iff_not] using upperBits_mixed (n := 17) rfl h0 h1

/-- Under a paged scheme, translation is that of the scheme. -/
theorem translate_paged {s : State} (h : s.satp.mode ≠ .bare) (t : AccessType) (va : Word) :
    Machine.translate t va s = translatePaged s.satp.mode t va s := by
  unfold Machine.translate
  split <;> rename_i hm
  · exact absurd hm h
  all_goals rw [hm]

theorem translate_nonCanonical {s : State} (h : s.satp.mode ≠ .bare) {va : Word}
    (hc : canonical s.satp.mode va = false) (t : AccessType) :
    Machine.translate t va s = .raise (pageFaultOf t) va s := by
  rw [translate_paged h, translatePaged, if_neg (Bool.eq_false_iff.1 hc)]

/-- Settles O43: the upper bits are compared as numbers, and the check comes before the walk
(`translate_nonCanonical`). -/
theorem nonCanonicalAddressesFault : Obligations.NonCanonicalAddressesFault := by
  unfold Obligations.NonCanonicalAddressesFault
  intro t va s e he
  have hfault : e = pageFaultOf t := by rw [he]; cases t <;> rfl
  rw [hfault]
  refine ⟨fun hm h0 h1 => ?_, fun hm h0 h1 => ?_⟩
  · exact translate_nonCanonical (by simp [hm]) (by rw [hm]; exact canonical_sv39_eq_false h0 h1) t
  · exact translate_nonCanonical (by simp [hm]) (by rw [hm]; exact canonical_sv48_eq_false h0 h1) t

/-! ## Successful translations -/

/-- Settles O42: a success has found a leaf that gives it (`translate_meets`), and each of the leaf's checks is one of
the obligations' bits. -/
theorem successfulTranslationIsPermitted : Obligations.SuccessfulTranslationIsPermitted := by
  unfold Obligations.SuccessfulTranslationIsPermitted
  rintro t va s s1 tr m rfl hm h
  have hmeets := translate_meets t va s
  rw [h] at hmeets
  obtain ⟨hnotes, ⟨hbare, -⟩ | ⟨-, hcan, f, ⟨hv, a, g, hr, haddr, hc, hp⟩, hl, hlevel, hgives⟩⟩ := hmeets
  · exact absurd hbare hm
  obtain ⟨hperm, hsuper, hpa, hupdate⟩ := hgives
  rw [haddr] at hc
  refine ⟨hnotes, hcan, f.pte, f.level, a, g, hr, ?level, hc, ⟨f.source, hp⟩, (leafPte_iff _).2 ⟨hv, hl⟩,
    (leafPermits_iff ..).2 hperm, (superpageMisaligned_eq_false ..).1 hsuper, hpa, fun hmarked => ?marked,
    fun hmarked => ?unmarked⟩
  case level =>
    have hpos : 0 < levels s.satp.mode := by cases hx : s.satp.mode <;> simp_all [levels]
    omega
  all_goals rw [leafMarked_iff] at hmarked
  case marked =>
    rcases hupdate with ⟨-, hnone⟩ | ⟨hneeds, -⟩
    · exact hnone
    · rw [hmarked] at hneeds; cases hneeds
  case unmarked =>
    rcases hupdate with ⟨hneeds, -⟩ | ⟨-, had, hst, hread, hsome⟩
    · exact absurd hneeds hmarked
    · rw [haddr] at hst hread hsome
      rw [← pteUpdated_eq]
      exact ⟨had, hst, hread, hsome⟩

end Sys2Proof.Machine
end

section
/-! SUPPORT. The statement about walks with nothing cached of 21_address_translation.md, proved. -/

namespace Sys2Proof.Machine

/-! ## Steps 2 to 4 over memory alone -/

/-- Steps 2 and 3 with an empty cache: the PTE memory holds, where it may be read and is valid. -/
theorem readLevel_uncached (useTc : Bool) (m : SatpMode) (t : AccessType) (va : Word) (i a : Nat) {s : State}
    (h : s.tc = []) :
    readLevel useTc m t va i a s =
      if physCheck s.cfg (pteAddrAt m va i a) (pteBytes m) .load .supervisor then
        if pteValid (physRead (pteAddrAt m va i a) (pteBytes m) s) then
          .ok ⟨physRead (pteAddrAt m va i a) (pteBytes m) s, pteAddrAt m va i a, pteAddrAt m va i a, i⟩
            (notePte (physRead (pteAddrAt m va i a) (pteBytes m) s) s)
        else .raise (pageFaultOf t) va s
      else .raise (accessFaultOf t) va s := by
  simp only [readLevel, readPte_uncached _ _ _ _ _ h, pteAddrAt]; rfl

/-- A fault of steps 2 and 3 is the walk's. -/
theorem walk_of_raise {useTc : Bool} {m : SatpMode} {t : AccessType} {va : Word} {i a : Nat} {s s1 : State} {e : Exc}
    {tv : Word} (h : readLevel useTc m t va i a s = .raise e tv s1) : walk useTc m t va i a s = .raise e tv s1 := by
  cases i <;> (rw [walk, h]; rfl)

/-- A leaf that steps 2 and 3 let pass is the walk's answer. -/
theorem walk_of_leaf {useTc : Bool} {m : SatpMode} {t : AccessType} {va : Word} {i a : Nat} {s s1 : State}
    {f : FoundPte} (h : readLevel useTc m t va i a s = .ok f s1) (hl : pteLeaf f.pte = true) :
    walk useTc m t va i a s = .ok f s1 := by
  cases i <;> (rw [walk, h]; exact if_pos hl)

/-- A pointer at level 0 faults (R150 step 4). -/
theorem walk_of_pointer_zero {useTc : Bool} {m : SatpMode} {t : AccessType} {va : Word} {a : Nat} {s s1 : State}
    {f : FoundPte} (h : readLevel useTc m t va 0 a s = .ok f s1) (hl : pteLeaf f.pte = false) :
    walk useTc m t va 0 a s = .raise (pageFaultOf t) va s1 := by
  rw [walk, h]
  exact if_neg (Bool.eq_false_iff.1 hl)

/-! ## From a pass to the translation -/

/-- The first pass of a translation may use the cache. -/
theorem translate_firstPass {s : State} (hm : s.satp.mode ≠ .bare) {va : Word}
    (hc : canonical s.satp.mode va = true) (t : AccessType) :
    ∃ n, Machine.translate t va s = passes s.satp.mode t va (n + 1) s :=
  ⟨_, by rw [translate_paged hm, translatePaged, if_pos hc]⟩

/-- A first pass that raises is the translation's answer. -/
theorem translate_of_attempt_raises {s : State} (hm : s.satp.mode ≠ .bare) {va : Word}
    (hc : canonical s.satp.mode va = true) {t : AccessType} {e : Exc} {tv : Word}
    (h : RaisesIn s e tv (attempt true s.satp.mode t va s)) : RaisesIn s e tv (Machine.translate t va s) := by
  obtain ⟨n, hn⟩ := translate_firstPass hm hc t
  obtain ⟨s1, ha, hs⟩ := h
  exact ⟨s1, by rw [hn, passes, ha]; rfl, hs⟩

/-- A first pass that gives a translation is the translation's answer. -/
theorem translate_of_attempt_answers {s : State} (hm : s.satp.mode ≠ .bare) {va : Word}
    (hc : canonical s.satp.mode va = true) {t : AccessType} {tr : Translation}
    (h : AnswersIn s (some tr) (attempt true s.satp.mode t va s)) : AnswersIn s tr (Machine.translate t va s) := by
  obtain ⟨n, hn⟩ := translate_firstPass hm hc t
  obtain ⟨s1, ha, hs⟩ := h
  exact ⟨s1, by rw [hn, passes, ha]; rfl, hs⟩

/-! ## Steps 5 to 8 -/

/-- Step 7 faults only under a scheme that may, and updates only under one that may (R148). -/
theorem adFaultArm_scheme (s : State) :
    ((adFaultArm s).1 = true → s.cfg.adScheme ≠ .hwUpdate) ∧ ((adFaultArm s).1 = false → s.cfg.adScheme ≠ .fault) := by
  unfold adFaultArm
  cases s.cfg.adScheme <;> simp

/-- Steps 5 and 6: a leaf that does not permit the access, or a misaligned superpage, faults. -/
theorem leafSteps_faults {m : SatpMode} {t : AccessType} {va : Word} {f : FoundPte} {s : State}
    (h : permitted f.pte t s.priv s.sstatus.sum s.sstatus.mxr = false ∨ superpageMisaligned m f.pte f.level = true) :
    leafSteps m t va f s = .raise (pageFaultOf t) va s := by
  unfold leafSteps
  rcases h with h | h
  · rw [if_neg (Bool.eq_false_iff.1 h)]
  · rw [if_pos h, ite_self]

/-- What step 7 asks of a leaf that is not marked: the page fault, or the update where the platform lets it. -/
def AdStep (m : SatpMode) (t : AccessType) (va : Word) (f : FoundPte) (s : State) (a : Access (Option Translation)) :
    Prop :=
  (s.cfg.adScheme ≠ .hwUpdate ∧ RaisesIn s (pageFaultOf t) va a) ∨
    (s.cfg.adScheme ≠ .fault ∧ physCheck s.cfg f.pteAddr (pteBytes m) .store .supervisor = false ∧
      RaisesIn s (accessFaultOf t) va a) ∨
    (s.cfg.adScheme ≠ .fault ∧ physCheck s.cfg f.pteAddr (pteBytes m) .store .supervisor = true ∧
      AnswersIn s
        (some ⟨leafPa m f.pte f.level va, some ⟨f.pteAddr, pteBytes m, pteUpdated f.pte t⟩⟩) a)

/-- Steps 5 to 8 at a leaf that permits the access, is aligned, and that memory still holds. -/
theorem leafSteps_permitted {m : SatpMode} {t : AccessType} {va : Word} {f : FoundPte} {s : State}
    (hp : permitted f.pte t s.priv s.sstatus.sum s.sstatus.mxr = true)
    (hm : superpageMisaligned m f.pte f.level = false) (hr : physRead f.pteAddr (pteBytes m) s = f.pte) :
    (needsAdUpdate f.pte t = false →
      leafSteps m t va f s = .ok (some ⟨leafPa m f.pte f.level va, none⟩) s) ∧
    (needsAdUpdate f.pte t = true → AdStep m t va f s (leafSteps m t va f s)) := by
  unfold leafSteps
  rw [if_pos hp, if_neg (Bool.eq_false_iff.1 hm)]
  refine ⟨fun hn => by rw [if_neg (Bool.eq_false_iff.1 hn)], fun hn => ?_⟩
  rw [if_pos hn]
  obtain ⟨hfault, hupdate⟩ := adFaultArm_scheme s
  have hs := adFaultArm_state s
  split
  · rename_i s1 heq
    rw [heq] at hfault hs
    exact .inl ⟨hfault rfl, s1, rfl, hs⟩
  · rename_i s1 heq
    rw [heq] at hupdate hs
    have hs1 : NotesOnly s s1 := hs
    have hcfg := hs1.fields.1
    rw [hcfg, hs1.physRead, if_pos hr]
    split
    · exact .inr (.inr ⟨hupdate rfl, ‹_›, s1, rfl, hs⟩)
    · exact .inr (.inl ⟨hupdate rfl, Bool.eq_false_iff.2 ‹_›, s1, rfl, hs⟩)

/-! ## A pass over memory alone -/

/-- With an empty cache a pass comes down to every table the walk reaches, having only noted the pointers. -/
theorem attempt_uncached {m : SatpMode} {va : Word} {s : State} {i a : Nat} {g : Bool} (h : s.tc = [])
    (hr : Reaches m va s i a g) (t : AccessType) :
    ∃ s1, NotesOnly s s1 ∧ attempt true m t va s = (walk true m t va i a s1).andThen (leafSteps m t va) := by
  obtain ⟨s1, hs, hw⟩ := walk_uncached true t h hr
  exact ⟨s1, hs, by rw [attempt, hw]⟩

/-- Settles O44: a pass comes down to the table (`attempt_uncached`) and reads the PTE there (`readLevel_uncached`);
what steps 3 to 8 make of it is the pass's answer, and the translation's. -/
theorem uncachedWalkFollowsPageTables : Obligations.UncachedWalkFollowsPageTables := by
  unfold Obligations.UncachedWalkFollowsPageTables
  rintro t va s m i a addr g pte rfl hm htc hcan hr rfl rfl
  obtain ⟨s1, hs, hpass⟩ := attempt_uncached htc hr t
  obtain ⟨hcfg, -, htc1, -⟩ := hs.fields
  have hlevel := readLevel_uncached true s.satp.mode t va i a (htc1.trans htc)
  rw [hcfg, hs.physRead] at hlevel
  generalize hpte : physRead (pteAddrAt s.satp.mode va i a) (pteBytes s.satp.mode) s = pte at hlevel ⊢
  have raises : ∀ {e s2}, NotesOnly s s2 → attempt true s.satp.mode t va s = .raise e va s2 →
      RaisesIn s e va (Machine.translate t va s) := fun h2 ha => translate_of_attempt_raises hm hcan ⟨_, ha, h2⟩
  refine ⟨fun hdenied => ?denied, fun hgranted => ?_⟩
  case denied =>
    rw [if_neg (Bool.eq_false_iff.1 hdenied)] at hlevel
    exact raises hs (by rw [hpass, walk_of_raise hlevel]; rfl)
  rw [if_pos hgranted] at hlevel
  have hs2 : NotesOnly s (notePte pte s1) := hs.trans (.notePte pte s1)
  obtain ⟨hcfg2, -, -, -, hpriv2, hsst2⟩ := hs2.fields
  have found (hl : LeafPte pte) : attempt true s.satp.mode t va s =
      leafSteps s.satp.mode t va ⟨pte, pteAddrAt s.satp.mode va i a, pteAddrAt s.satp.mode va i a, i⟩
        (notePte pte s1) := by
    rw [leafPte_iff] at hl
    rw [if_pos hl.1] at hlevel
    rw [hpass, walk_of_leaf hlevel hl.2]
    rfl
  refine ⟨fun hinvalid => ?invalid, fun hpointer h0 => ?pointer, fun hl hp => ?notPermitted,
    fun hl hp hsuper => ?misaligned, fun hl hp hsuper => ?permitted⟩
  case invalid =>
    have hv : pteValid pte = false := by
      unfold pteValid pteV pteR pteW
      rcases hinvalid with h0 | ⟨h1, h2⟩
      · rw [h0]; rfl
      · rw [h1, h2]; exact Bool.and_false _
    rw [if_neg (Bool.eq_false_iff.1 hv)] at hlevel
    exact raises hs (by rw [hpass, walk_of_raise hlevel]; rfl)
  case pointer =>
    subst h0
    obtain ⟨hv, hl⟩ := pointer_pte hpointer
    rw [if_pos hv] at hlevel
    exact raises hs2 (by rw [hpass, walk_of_pointer_zero hlevel hl]; rfl)
  all_goals rw [leafPermits_iff, ← hpriv2, ← hsst2] at hp
  case notPermitted =>
    exact raises hs2 ((found hl).trans (leafSteps_faults (.inl (Bool.eq_false_iff.2 hp))))
  case misaligned =>
    exact raises hs2 ((found hl).trans (leafSteps_faults (.inr ((superpageMisaligned_eq_true ..).2 hsuper))))
  case permitted =>
    obtain ⟨hmarked, hunmarked⟩ := leafSteps_permitted (va := va)
      (f := ⟨pte, pteAddrAt s.satp.mode va i a, pteAddrAt s.satp.mode va i a, i⟩) hp
      ((superpageMisaligned_eq_false ..).2 hsuper) ((hs2.physRead _ _).trans hpte)
    rw [← found hl] at hmarked hunmarked
    refine ⟨fun h => ?_, fun h => ?_⟩
    · exact translate_of_attempt_answers hm hcan ⟨_, hmarked ((leafMarked_iff ..).1 h), hs2⟩
    · rw [leafMarked_iff, Bool.not_eq_false] at h
      rw [← pteUpdated_eq]
      have hstep := hunmarked h
      unfold AdStep at hstep
      rw [hcfg2] at hstep
      refine hstep.imp (fun h => ⟨h.1, ?_⟩) (Or.imp (fun h => ⟨h.1, h.2.1, ?_⟩) fun h => ⟨h.1, h.2.1, ?_⟩)
      · exact translate_of_attempt_raises hm hcan (.of_notes hs2 h.2)
      · exact translate_of_attempt_raises hm hcan (.of_notes hs2 h.2.2)
      · obtain ⟨s3, ha, h3⟩ := h.2.2
        exact translate_of_attempt_answers hm hcan ⟨s3, ha, hs2.trans h3⟩

end Sys2Proof.Machine
end

section
/-! SUPPORT. The statements about A and D updates, address fields and cache fills of 21_address_translation.md,
proved. -/

namespace Sys2Proof.Machine

/-! ## A and D updates -/

/-- An access whose translation succeeds is that translation's check and update. -/
theorem access_of_translate {t : AccessType} {va : Word} {s s0 : State} {tr : Translation}
    (h : Machine.translate t va s = .ok tr s0) (n : Nat) :
    access t va n s =
      if physCheck s0.cfg tr.pa n t s0.priv then .ok tr.pa (commitUpdate tr.update s0)
      else .raise (accessFaultOf t) va s0 := by
  rw [access, h]
  rfl

/-- An update only touches a PTE that memory holds, setting A, and D for a store. -/
theorem update_of_translate {t : AccessType} {va : Word} {s s0 : State} {tr : Translation} {u : PteUpdate}
    (h : Machine.translate t va s = .ok tr s0) (hu : tr.update = some u) :
    s.cfg.adScheme ≠ .fault ∧ u.size ≤ 8 ∧ 4 ≤ u.size ∧ u.new = pteUpdated (physRead u.addr u.size s) t := by
  have hmeets := translate_meets t va s
  rw [h] at hmeets
  obtain ⟨-, ⟨-, -, hnone⟩ | ⟨hm, -, f, -, -, -, -, -, -, hupdate⟩⟩ := hmeets
  · rw [hnone] at hu; cases hu
  · rcases hupdate with ⟨-, hnone⟩ | ⟨-, had, -, hread, hsome⟩
    · rw [hnone] at hu; cases hu
    · rw [hsome] at hu
      cases hu
      have hsize : pteBytes s.satp.mode ≤ 8 ∧ 4 ≤ pteBytes s.satp.mode := by
        cases hx : s.satp.mode
        · exact absurd hx hm
        all_goals decide
      exact ⟨had, hsize.1, hsize.2, by rw [hread]⟩

/-- A and D lie in the lowest byte, so the updated PTE is no longer than the one read. -/
theorem pteUpdated_lt {pte : Word} {n : Nat} (h : pte.toNat < 2 ^ (8 * n)) (hn : 4 ≤ n) (t : AccessType) :
    (pteUpdated pte t).toNat < 2 ^ (8 * n) := by
  have hbits : ∀ b : Word, b.toNat < 2 ^ 32 → b.toNat < 2 ^ (8 * n) := fun b hb =>
    Nat.lt_of_lt_of_le hb (Nat.pow_le_pow_right (by decide) (by omega))
  rw [pteUpdated, BitVec.toNat_or, BitVec.toNat_or]
  exact Nat.or_lt_two_pow (Nat.or_lt_two_pow h (hbits _ (by decide))) (hbits _ (by cases t <;> decide))

/-- Settles O45: the access writes the update alone (`access_of_translate`), which reads back in full, no bit of it
lying above the PTE (`pteUpdated_lt`). -/
theorem accessSetsOnlyAccessedAndDirty : Obligations.AccessSetsOnlyAccessedAndDirty := by
  unfold Obligations.AccessSetsOnlyAccessedAndDirty
  intro t va n s s0 s1 tr pa hw htr hacc
  have hmeets := translate_meets t va s
  rw [htr] at hmeets
  have hs : NotesOnly s s0 := hmeets.1
  rw [access_of_translate htr] at hacc
  split at hacc <;> cases hacc
  obtain ⟨-, -, htc, hmem, hpriv, -⟩ := hs.fields
  have hs' : NotesOnly s s0 := hs
  unfold NotesOnly at hs'
  refine ⟨rfl, fun hnone a => ?none, fun u hu => ?some, ?registers, ?csrs, ?_, ?_, ?_⟩
  case none => rw [hnone]; exact congrArg (·.read a) hmem
  case some =>
    obtain ⟨had, hle, hge, hnew⟩ := update_of_translate htr hu
    have hread : (physRead u.addr u.size s).toNat < _ := readLe_lt s.mem u.addr hle
    rw [hu]
    refine ⟨had, fun a ha => ?_, ?_⟩
    · exact (physWrite_read_outside _ _ _ _ ha).trans (congrArg (·.read a) hmem)
    · have hback := physRead_physWrite (pa := u.addr) (v := u.new) (s := s0) (by rw [hmem]; exact hw) hle
      rw [hnew, Nat.mod_eq_of_lt (pteUpdated_lt hread hge t)] at hback
      rw [← pteUpdated_eq]
      show physRead u.addr u.size (physWrite u.addr u.size u.new s0) = _
      rw [hnew]
      exact BitVec.eq_of_toNat_eq hback
  case registers => exact getX_congr (by rw [commitUpdate_x, hs'])
  case csrs => unfold KeepsCsrs; simp only [commitUpdate_sstatus, commitUpdate_sie, commitUpdate_stvec,
    commitUpdate_scounteren, commitUpdate_sscratch, commitUpdate_sepc, commitUpdate_scause, commitUpdate_stval,
    commitUpdate_sip, commitUpdate_satp]; rw [hs']; simp
  · rw [commitUpdate_tc, htc]
  · rw [commitUpdate_priv, hpriv]
  · rw [commitUpdate_pc, hs']

/-! ## Fields of addresses and PTEs -/

/-- A field of a word as a number. -/
theorem toNat_field (w : Word) (lo n : Nat) : (w.extractLsb' lo n).toNat = w.toNat / 2 ^ lo % 2 ^ n := by
  rw [BitVec.extractLsb'_toNat, Nat.shiftRight_eq_div_pow]

/-- Settles O46: every field is a quotient and a remainder by powers of two, on both sides. -/
theorem addressFormulas : Obligations.AddressFormulas := by
  unfold Obligations.AddressFormulas
  intro pte va a
  simp only [toNat_field]
  refine ⟨by decide, by decide, by decide, ⟨rfl, rfl⟩, ?vpn, rfl, ⟨rfl, rfl⟩, ?pteAddr, rfl, ?_, ?_, ?_,
    ⟨rfl, rfl, rfl⟩, ?_, ?_, ?leafPa, ?_⟩
  case vpn | pteAddr => rintro m (rfl | rfl) <;> exact ⟨rfl, rfl, rfl⟩
  case leafPa =>
    rintro m (rfl | rfl) <;> simp only [ptePpn, leafPa, vpnBits, ppnBits] <;> and_intros <;> omega
  all_goals
    simp only [vpnPrefix, ptePpn, leafPa, vaBits, vpnBits, ppnBits, levels]; and_intros <;> omega

end Sys2Proof.Machine
end

section
/-! SUPPORT. The statement about cache fills of 21_address_translation.md, proved. -/

namespace Sys2Proof.Machine

/-! ## Steps 2 and 3, from a given table -/

/-- A PTE that steps 2 and 3 let pass at level `i` of the table at `a`: valid, readable, and visible to the walk
there. -/
def FoundAt (m : SatpMode) (va : Word) (s : State) (i a : Nat) (f : FoundPte) : Prop :=
  f.level = i ∧ pteValid f.pte = true ∧ physCheck s.cfg (pteAddrAt m va i a) (pteBytes m) .load .supervisor = true ∧
    PteFrom m va s i a f.pte f.source

theorem readLevel_foundAt (useTc : Bool) (m : SatpMode) (t : AccessType) (va : Word) (i a : Nat) (s : State) :
    (readLevel useTc m t va i a s).Meets (fun f s1 => NotesOnly s s1 ∧ FoundAt m va s i a f) (FaultOf t va s) := by
  have hread := readPte_spec useTc m va i a s
  unfold readLevel
  unfold pteAddrAt at hread
  split
  · rename_i hc
    split
    rename_i pte source s1 heq
    rw [heq] at hread
    split
    · exact ⟨hread.1.trans (.notePte pte s1), rfl, ‹_›, hc, hread.2⟩
    · exact .page t va hread.1
  · exact .access t va rfl

/-! ## What a fill adds -/

/-- An entry a fill may make: of a valid PTE that the walk meets in a table it reaches, global where the PTE or a
pointer on the path is (R145, R161, R163). -/
def Fillable (m : SatpMode) (va : Word) (s : State) (e : TcEntry) : Prop :=
  e.asid = s.satp.asid ∧ e.vpnPrefix = vpnPrefix m va e.level ∧ pteValid e.pte = true ∧
    ∃ a g, Reaches m va s e.level a g ∧ e.global = (g || e.pte.getLsbD 5) ∧
      physCheck s.cfg (pteAddrAt m va e.level a) (pteBytes m) .load .supervisor = true ∧
      PteFrom m va s e.level a e.pte e.pteAddr

/-- How far a fill has come from `s` when the levels from `k` up are done: it has only added entries of those levels. -/
structure FilledTo (m : SatpMode) (va : Word) (s : State) (k : Nat) (t : State) : Prop where
  frame : t = { s with tc := t.tc, draws := t.draws, reservedPte := t.reservedPte }
  keeps : ∀ e ∈ s.tc, e ∈ t.tc
  adds : ∀ e ∈ t.tc, e ∈ s.tc ∨ (k ≤ e.level ∧ e.level < levels m ∧ Fillable m va s e)

theorem FilledTo.refl (m : SatpMode) (va : Word) (s : State) (k : Nat) : FilledTo m va s k s :=
  ⟨rfl, fun _ h => h, fun _ h => .inl h⟩

theorem FilledTo.mono {m : SatpMode} {va : Word} {s t : State} {k j : Nat} (h : FilledTo m va s k t) (hj : j ≤ k) :
    FilledTo m va s j t :=
  ⟨h.frame, h.keeps, fun e he => (h.adds e he).imp_right fun hk => ⟨hj.trans hk.1, hk.2⟩⟩

theorem FilledTo.notes {m : SatpMode} {va : Word} {s t u : State} {k : Nat} (h : FilledTo m va s k t)
    (hn : NotesOnly t u) : FilledTo m va s k u := by
  have htc := hn.fields.2.2.1
  unfold NotesOnly at hn
  refine ⟨?_, by rw [htc]; exact h.keeps, by rw [htc]; exact h.adds⟩
  rw [hn, h.frame]

theorem FilledTo.insert {m : SatpMode} {va : Word} {s t : State} {k : Nat} (h : FilledTo m va s k t) {e : TcEntry}
    (hk : k ≤ e.level) (hl : e.level < levels m) (he : Fillable m va s e) : FilledTo m va s k (tcInsert e t) := by
  unfold tcInsert
  split
  · exact h
  · refine ⟨?_, fun d hd => List.mem_cons_of_mem e (h.keeps d hd), fun d hd => ?_⟩
    · rw [h.frame]
    · rcases List.mem_cons.1 hd with rfl | hd
      · exact .inr ⟨hk, hl, he⟩
      · exact h.adds d hd

/-- The entries a fill has added are of higher levels, so below them it sees the PTEs that `s` has. -/
theorem FilledTo.foundAt {m : SatpMode} {va : Word} {s t : State} {i a : Nat} {f : FoundPte}
    (h : FilledTo m va s (i + 1) t) (hf : FoundAt m va t i a f) : FoundAt m va s i a f := by
  obtain ⟨hl, hv, hc, hp⟩ := hf
  have hcfg : t.cfg = s.cfg := by rw [h.frame]
  refine ⟨hl, hv, hcfg ▸ hc, ?_⟩
  rcases hp with ⟨hmem, hsrc⟩ | ⟨e, he, hpte, hsrc, hlevel, hprefix, hasid⟩
  · rw [h.frame] at hmem
    exact .inl ⟨hmem, hsrc⟩
  · rcases h.adds e he with hs | ⟨hk, -⟩
    · rw [h.frame] at hasid
      exact .inr ⟨e, hs, hpte, hsrc, hlevel, hprefix, hasid⟩
    · omega

/-- The entry of a PTE found in a table the walk reaches. -/
theorem FoundAt.fillable {m : SatpMode} {va : Word} {s : State} {i a : Nat} {g : Bool} {f : FoundPte}
    (hf : FoundAt m va s i a f) (hr : Reaches m va s i a g) :
    Fillable m va s (tcEntryOf m va f (g || pteG f.pte) s.satp.asid) := by
  obtain ⟨rfl, hv, hc, hp⟩ := hf
  exact ⟨rfl, rfl, hv, a, g, hr, rfl, hc, hp⟩

/-- A pointer found in a table the walk reaches leads it to the next one. -/
theorem FoundAt.reaches {m : SatpMode} {va : Word} {s : State} {i a : Nat} {g : Bool} {f : FoundPte}
    (hf : FoundAt m va s (i + 1) a f) (hr : Reaches m va s (i + 1) a g) (hl : pteLeaf f.pte = false) :
    Reaches m va s i (ptePpn m f.pte * 4096) (g || pteG f.pte) := by
  obtain ⟨-, hv, hc, hp⟩ := hf
  exact .pointer hr hc ⟨_, hp⟩ (pointer_bits hv hl)

/-- One level of a fill: the PTE it has read is cached. -/
theorem FilledTo.level {m : SatpMode} {va : Word} {s t t1 : State} {i a : Nat} {g : Bool} {f : FoundPte}
    (hi : i < levels m) (h : FilledTo m va s (i + 1) t) (hr : Reaches m va s i a g)
    (hread : readLevel true m .load va i a t = .ok f t1) :
    FoundAt m va s i a f ∧
      FilledTo m va s i (tcInsert (tcEntryOf m va f (g || pteG f.pte) t1.satp.asid) t1) := by
  have hm := readLevel_foundAt true m .load va i a t
  rw [hread] at hm
  obtain ⟨hnotes, hfound⟩ := hm
  have hf := h.foundAt hfound
  have hsatp : t1.satp = s.satp := by rw [hnotes.fields.2.1, h.frame]
  rw [hsatp]
  exact ⟨hf, ((h.mono (Nat.le_succ i)).notes hnotes).insert hf.1.ge (lt_of_eq_of_lt hf.1 hi) (hf.fillable hr)⟩

theorem fillFrom_filledTo {m : SatpMode} {va : Word} {s t : State} {i a : Nat} {g : Bool} (hi : i < levels m)
    (h : FilledTo m va s (i + 1) t) (hr : Reaches m va s i a g) : FilledTo m va s 0 (fillFrom m va i a g t) := by
  have hm := readLevel_foundAt true m .load va i a t
  induction i generalizing a g t with
  | zero =>
    unfold fillFrom
    split <;> rename_i hread
    · rw [hread] at hm; exact (h.notes hm.2.2).mono (Nat.zero_le _)
    · exact h.mono (Nat.zero_le _)
    · have hlevel := (h.level hi hr hread).2
      simp only [ite_self]
      exact hlevel
  | succ i ih =>
    unfold fillFrom
    split <;> rename_i hread
    · rw [hread] at hm; exact (h.notes hm.2.2).mono (Nat.zero_le _)
    · exact h.mono (Nat.zero_le _)
    · obtain ⟨hf, hlevel⟩ := h.level hi hr hread
      simp only
      split
      · exact hlevel.mono (Nat.zero_le _)
      · rename_i hl
        exact ih (Nat.lt_of_succ_lt hi) hlevel (hf.reaches hr (Bool.eq_false_iff.2 hl)) (readLevel_foundAt ..)

/-- A fill makes entries with translation on only, for addresses the scheme translates. -/
theorem fill_filledTo (va : Word) (s : State) :
    FilledTo s.satp.mode va s 0 (fill va s) ∧
      (fill va s = s ∨ (s.satp.mode ≠ .bare ∧ canonical s.satp.mode va = true)) := by
  unfold fill
  split
  · exact ⟨.refl .., .inl rfl⟩
  · rename_i hm
    split
    · rename_i hc
      have hpos : levels s.satp.mode - 1 < levels s.satp.mode := by cases hx : s.satp.mode <;> simp_all [levels]
      exact ⟨fillFrom_filledTo hpos (.refl ..) .root, .inr ⟨hm, hc⟩⟩
    · exact ⟨.refl .., .inl rfl⟩

/-- A valid PTE in the obligations' terms. -/
theorem pteValid_iff (pte : Word) :
    pteValid pte = true ↔ pte.getLsbD 0 = true ∧ (pte.getLsbD 1 = true ∨ pte.getLsbD 2 = false) := by
  simp only [pteValid, pteV, pteR, pteW, Bool.and_eq_true, Bool.or_eq_true, Bool.not_eq_true']

/-- Settles O47: from the root down, a fill adds the entry of each PTE it meets (`fillFrom_filledTo`). -/
theorem fillAddsValidEntriesOnly : Obligations.FillAddsValidEntriesOnly := by
  unfold Obligations.FillAddsValidEntriesOnly
  rintro va s m rfl
  obtain ⟨⟨hframe, hkeeps, hadds⟩, hmode⟩ := fill_filledTo va s
  refine ⟨hframe, hkeeps, fun e he => ?_⟩
  rcases hmode with hsame | ⟨hm, hc⟩
  · rw [hsame] at he; exact .inl he
  · refine (hadds e he).imp_right fun ⟨_, hl, hasid, hprefix, hv, hpath⟩ => ?_
    obtain ⟨h0, h1⟩ := (pteValid_iff _).1 hv
    exact ⟨hm, hc, hasid, hl, hprefix, h0, h1, hpath⟩

end Sys2Proof.Machine
end

section
/-! SUPPORT. The statements about base-ISA accesses of 43_environment_and_fence.md and 20_memory.md, proved. -/

namespace Sys2Proof.Machine

/-! ## Aligned accesses and atomics -/

/-- With translation off a store that passes its check writes its bytes. -/
theorem memWrite_bare {s : State} {ea : Word} {n : Nat} (hb : s.satp.mode = .bare)
    (hc : physCheck s.cfg ea.toNat n .store s.priv = true) (v : Word) :
    memWrite ea n v s = .ok () (physWrite ea.toNat n v s) := by
  rw [memWrite, access_bare hb, if_pos hc]
  rfl

/-- With translation off a load that passes its check reads memory. -/
theorem memRead_bare {s : State} {ea : Word} {n : Nat} (hb : s.satp.mode = .bare)
    (hc : physCheck s.cfg ea.toNat n .load s.priv = true) :
    memRead .load ea n s = .ok (physRead ea.toNat n s) s := by
  rw [memRead, access_bare hb, if_pos hc]
  rfl

/-- Settles O49: store and load are the physical write and read at the address itself, which read back. -/
theorem dataLoadReturnsStoredValue : Obligations.DataLoadReturnsStoredValue := by
  unfold Obligations.DataLoadReturnsStoredValue
  intro ea n v s hw hb hn hal hst hld
  have hle : n ≤ 8 := by
    simp only [List.mem_cons, List.not_mem_nil, or_false] at hn
    omega
  refine ⟨physWrite ea.toNat n v s, physRead ea.toNat n (physWrite ea.toNat n v s), ?_,
    fun a ha => physWrite_read_outside _ _ _ _ ha, getX_congr (physWrite_x ..), by simp [KeepsCsrs], ?_,
    physRead_physWrite hw hle⟩
  · rw [dataStore, if_pos hal, memWrite_bare hb hst]
  · rw [dataLoad, if_pos hal, memRead_bare (by rwa [physWrite_satp])
      (by rwa [physWrite_cfg, physWrite_priv])]

/-- Settles O50: alignment is checked before anything else. -/
theorem misalignedAtomicsRaise : Obligations.MisalignedAtomicsRaise := by
  unfold Obligations.MisalignedAtomicsRaise
  intro ea n v f s h
  exact ⟨if_neg h, if_neg h, if_neg h⟩

/-! ## One access after another -/

theorem Access.andThen_eq_ok {α β : Type} {a : Access α} {f : α → State → Access β} {v : β} {s : State}
    (h : a.andThen f = .ok v s) : ∃ u s1, a = .ok u s1 ∧ f u s1 = .ok v s := by
  cases a with
  | ok u s1 => exact ⟨u, s1, rfl, h⟩
  | raise | refuse => cases h

theorem Access.andThen_eq_raise {α β : Type} {a : Access α} {f : α → State → Access β} {e : Exc} {tv : Word}
    {s : State} (h : a.andThen f = .raise e tv s) :
    a = .raise e tv s ∨ ∃ u s1, a = .ok u s1 ∧ f u s1 = .raise e tv s := by
  cases a with
  | ok u s1 => exact .inr ⟨u, s1, rfl, h⟩
  | raise => cases h; exact .inl rfl
  | refuse => cases h

/-- What a load can answer: a value of its bytes, the parameters kept. -/
theorem memRead_meets (t : AccessType) (va : Word) {n : Nat} (hn : n ≤ 8) (s : State) :
    (memRead t va n s).Meets (fun v s1 => s1.cfg = s.cfg ∧ v.toNat < 2 ^ (8 * n)) (FaultOf t va s) := by
  refine (access_meets t va n s).andThen fun pa s1 h => ⟨?_, readLe_lt s1.mem pa hn⟩
  obtain ⟨tr, s0, hs, -, -, -, rfl⟩ := h
  rw [commitUpdate_cfg, hs.fields.1]

theorem memWrite_meets (va : Word) (n : Nat) (v : Word) (s : State) :
    (memWrite va n v s).Meets (fun _ s1 => s1.cfg = s.cfg) (FaultOf .store va s) := by
  refine (access_meets .store va n s).andThen fun pa s1 h => ?_
  obtain ⟨tr, s0, hs, -, -, -, rfl⟩ := h
  show (physWrite pa n v (commitUpdate tr.update s0)).cfg = s.cfg
  rw [physWrite_cfg, commitUpdate_cfg, hs.fields.1]

/-! ## Ascending addresses -/

theorem truncX_add_truncX (xl : Xlen) (a b : Word) : truncX xl (truncX xl a + b) = truncX xl (a + b) := by
  have hd : 2 ^ xl.bits ∣ 2 ^ 64 := Nat.pow_dvd_pow 2 (by cases xl <;> decide)
  apply BitVec.eq_of_toNat_eq
  simp only [truncX_toNat, BitVec.toNat_add, Nat.mod_mod_of_dvd _ hd, Nat.mod_add_mod]

/-- The address `k` bytes on. -/
theorem ascending_succ (xl : Xlen) (va : Word) (k : Nat) :
    truncX xl (truncX xl (va + 1) + BitVec.ofNat 64 k) = truncX xl (va + BitVec.ofNat 64 (k + 1)) := by
  rw [truncX_add_truncX, BitVec.add_assoc, Nat.add_comm k 1, BitVec.ofNat_add]
  rfl

theorem ascending_zero {xl : Xlen} {va : Word} (h : fitsX xl va) : va = truncX xl (va + BitVec.ofNat 64 0) := by
  rw [BitVec.add_zero, h]

/-- How many bytes above `ea` an address is. -/
theorem ascending_offset (xl : Xlen) (ea : Word) {k : Nat} (hk : k < 2 ^ 32) :
    (truncX xl (truncX xl (ea + BitVec.ofNat 64 k) - ea)).toNat = k := by
  rw [BitVec.sub_eq_add_neg, truncX_add_truncX, BitVec.add_comm ea, BitVec.add_assoc, BitVec.add_neg_eq_sub,
    BitVec.sub_self, BitVec.add_zero, truncX_toNat, BitVec.toNat_ofNat, Nat.mod_eq_of_lt (a := k) (by omega)]
  exact Nat.mod_eq_of_lt (Nat.lt_of_lt_of_le hk (by cases xl <;> decide))

/-! ## Misaligned loads -/

/-- A load by bytes that answers puts its bytes together, the lowest address first. -/
theorem loadSplit_ok {va w : Word} {n : Nat} {s s1 : State} (hn : n ≤ 8) (h : loadSplit va n s = .ok w s1) :
    ∃ bs, bs.length = n ∧ LoadsBytes s va bs s1 ∧ w.toNat < 2 ^ (8 * n) ∧
      ∀ k b, bs[k]? = some b → w.toNat / 2 ^ (8 * k) % 256 = b.toNat := by
  induction n generalizing va w s with
  | zero => cases h; exact ⟨[], rfl, .nil _ _, Nat.one_pos, fun k b hb => by cases hb⟩
  | succ n ih =>
    obtain ⟨b, s2, hb, hrest⟩ := Access.andThen_eq_ok h
    obtain ⟨rest, s3, hsplit, hw⟩ := Access.andThen_eq_ok hrest
    cases hw
    obtain ⟨bs, hlen, hloads, hlt, hdigits⟩ := ih (by omega) hsplit
    have hm := memRead_meets .load va (n := 1) (by decide) s
    rw [hb] at hm
    have hpow : 2 ^ (8 * n) ≤ 2 ^ 56 := Nat.pow_le_pow_right (by decide) (by omega)
    have hblt : b.toNat < 2 ^ 8 := hm.2
    have hword : (b ||| (rest <<< 8)).toNat = rest.toNat * 2 ^ 8 + b.toNat := by
      rw [BitVec.or_comm, toNat_shiftLeft_or (by omega) hblt]
    refine ⟨b :: bs, by rw [List.length_cons, hlen], .cons hb hloads, ?_, fun k c hc => ?_⟩
    · rw [hword, Nat.mul_succ, Nat.pow_add]; omega
    · rw [hword]
      cases k with
      | zero => cases hc; omega
      | succ k =>
        rw [← hdigits k c hc, Nat.mul_succ, Nat.add_comm (8 * k), Nat.pow_add, ← Nat.div_div_eq_div_mul]
        congr 2
        omega

/-- A load by bytes that faults has loaded the bytes below the one whose access faults. -/
theorem loadSplit_raise {va tv : Word} {n : Nat} {s s1 : State} {e : Exc} (hva : fitsX s.cfg.sxlen va)
    (h : loadSplit va n s = .raise e tv s1) :
    ∃ bs sk, bs.length < n ∧ LoadsBytes s va bs sk ∧
      tv = truncX s.cfg.sxlen (va + BitVec.ofNat 64 bs.length) ∧ memRead .load tv 1 sk = .raise e tv s1 := by
  induction n generalizing va s with
  | zero => cases h
  | succ n ih =>
    have hm := memRead_meets .load va (n := 1) (by decide) s
    rcases Access.andThen_eq_raise h with hr | ⟨b, s2, hb, hrest⟩
    · rw [hr] at hm
      obtain ⟨-, rfl, -⟩ := hm
      exact ⟨[], s, Nat.succ_pos n, .nil _ _, ascending_zero hva, hr⟩
    · rw [hb] at hm
      rcases Access.andThen_eq_raise hrest with hr | ⟨_, _, _, hok⟩
      · obtain ⟨bs, sk, hlen, hloads, htv, hfault⟩ := ih (fitsX_truncX _ _) hr
        rw [hm.1, ascending_succ] at htv
        exact ⟨b :: bs, sk, Nat.succ_lt_succ hlen, .cons hb hloads, htv, hfault⟩
      · cases hok

/-! ## Misaligned stores -/

theorem storeSplit_ok {va : Word} {bs : List Byte} {s s1 : State} (h : storeSplit va bs s = .ok () s1) :
    StoresBytes s va bs s1 := by
  induction bs generalizing va s with
  | nil => cases h; exact .nil _ _
  | cons b bs ih =>
    obtain ⟨_, s2, hb, hrest⟩ := Access.andThen_eq_ok h
    exact .cons hb (ih hrest)

/-- A store by bytes that faults has stored the bytes below the one whose access faults. -/
theorem storeSplit_raise {va tv : Word} {bs : List Byte} {s s1 : State} {e : Exc} (hva : fitsX s.cfg.sxlen va)
    (h : storeSplit va bs s = .raise e tv s1) :
    ∃ k b sk, bs[k]? = some b ∧ StoresBytes s va (bs.take k) sk ∧
      tv = truncX s.cfg.sxlen (va + BitVec.ofNat 64 k) ∧ memWrite tv 1 (b.setWidth 64) sk = .raise e tv s1 := by
  induction bs generalizing va s with
  | nil => cases h
  | cons b bs ih =>
    have hm := memWrite_meets va 1 (b.setWidth 64) s
    rcases Access.andThen_eq_raise h with hr | ⟨_, s2, hb, hrest⟩
    · rw [hr] at hm
      obtain ⟨-, rfl, -⟩ := hm
      exact ⟨0, b, s, rfl, .nil _ _, ascending_zero hva, hr⟩
    · rw [hb] at hm
      obtain ⟨k, c, sk, hc, hstores, htv, hfault⟩ := ih (fitsX_truncX _ _) hrest
      have hcfg : s2.cfg = s.cfg := hm
      rw [hcfg, ascending_succ] at htv
      exact ⟨k + 1, c, sk, hc, .cons hb hstores, htv, hfault⟩

/-- Setting A and D without the bytes goes as far as the accesses succeed. -/
theorem markSplit_marks (va : Word) (n : Nat) (s : State) : ∃ j ≤ n, MarksBytes s va j (markSplit va n s) := by
  induction n generalizing va s with
  | zero => exact ⟨0, Nat.le_refl 0, .nil _ _⟩
  | succ n ih =>
    unfold markSplit
    split
    · rename_i pa s1 h
      obtain ⟨j, hj, hmarks⟩ := ih (truncX s1.cfg.sxlen (va + 1)) s1
      exact ⟨j + 1, Nat.succ_le_succ hj, .cons h hmarks⟩
    · exact ⟨0, Nat.zero_le _, .nil _ _⟩
    · exact ⟨0, Nat.zero_le _, .nil _ _⟩

/-! ## What stays of a split access that faults -/

theorem mayUndo_eq_ok {α : Type} {s s1 : State} {a : Access α} {v : α} (h : mayUndo s a = .ok v s1) :
    a = .ok v s1 := by
  unfold mayUndo at h
  split at h
  · exact h
  · split at h <;> cases h
  · cases h

/-- All of it, or nothing. -/
theorem mayUndo_eq_raise {α : Type} {s s1 : State} {a : Access α} {e : Exc} {tv : Word}
    (h : mayUndo s a = .raise e tv s1) : ∃ s0, a = .raise e tv s0 ∧ (NotesOnly s0 s1 ∨ NotesOnly s s1) := by
  unfold mayUndo at h
  split at h
  · cases h
  · split at h <;> cases h
    exacts [⟨_, rfl, .inl rfl⟩, ⟨_, rfl, .inr rfl⟩]
  · cases h

theorem mayUnwrite_eq_ok {ea : Word} {s s1 : State} {a : Access Unit} (h : mayUnwrite ea s a = .ok () s1) :
    a = .ok () s1 := by
  unfold mayUnwrite at h
  split at h
  · exact h
  · split at h <;> cases h
  · cases h

/-- All of it, or the A and D bits of the bytes below the one that faults. -/
theorem mayUnwrite_eq_raise {ea : Word} {s s1 : State} {a : Access Unit} {e : Exc} {tv : Word}
    (h : mayUnwrite ea s a = .raise e tv s1) :
    ∃ s0, a = .raise e tv s0 ∧
      (NotesOnly s0 s1 ∨ NotesOnly (markSplit ea (truncX s.cfg.sxlen (tv - ea)).toNat s) s1) := by
  unfold mayUnwrite at h
  split at h
  · cases h
  · split at h <;> cases h
    exacts [⟨_, rfl, .inl rfl⟩, ⟨_, rfl, .inr rfl⟩]
  · cases h

/-- A misaligned load is refused or made byte by byte (20_memory.md R104(g)). -/
theorem dataLoad_misaligned {ea : Word} {n : Nat} {s : State} (h : ea.toNat % n ≠ 0) :
    (s.cfg.misaligned = .refuse → dataLoad ea n s = .refuse .misalignedAccess) ∧
      (s.cfg.misaligned = .perform → dataLoad ea n s = mayUndo s (loadSplit ea n s)) := by
  unfold dataLoad
  rw [if_neg h]
  exact ⟨fun hm => by rw [hm], fun hm => by rw [hm]⟩

/-- A misaligned store is refused or made byte by byte (20_memory.md R104(g)). -/
theorem dataStore_misaligned {ea : Word} {n : Nat} (v : Word) {s : State} (h : ea.toNat % n ≠ 0) :
    (s.cfg.misaligned = .refuse → dataStore ea n v s = .refuse .misalignedAccess) ∧
      (s.cfg.misaligned = .perform →
        dataStore ea n v s = mayUndo s (mayUnwrite ea s (storeSplit ea (leBytes v n) s))) := by
  unfold dataStore
  rw [if_neg h]
  exact ⟨fun hm => by rw [hm], fun hm => by rw [hm]⟩

/-- Settles O51: the two loops of `loadSplit` and `storeSplit` are the obligations' sequences of accesses; `mayUndo` and
`mayUnwrite` say what stays of one that faults. -/
theorem misalignedAccessesGoByteByByte : Obligations.MisalignedAccessesGoByteByByte := by
  unfold Obligations.MisalignedAccessesGoByteByByte
  intro ea v n s hea hn hal
  refine ⟨fun hmis => ⟨(dataLoad_misaligned hal).1 hmis, (dataStore_misaligned v hal).1 hmis⟩, fun hmis => ?_⟩
  rw [(dataLoad_misaligned hal).2 hmis, (dataStore_misaligned v hal).2 hmis]
  refine ⟨fun w s1 h => loadSplit_ok hn (mayUndo_eq_ok h), fun e tv s1 h => ?loadRaises,
    fun s1 h => storeSplit_ok (mayUnwrite_eq_ok (mayUndo_eq_ok h)), fun e tv s1 h => ?storeRaises⟩
  case loadRaises =>
    obtain ⟨s0, hsplit, hleft⟩ := mayUndo_eq_raise h
    obtain ⟨bs, sk, hlen, hloads, htv, hfault⟩ := loadSplit_raise hea hsplit
    have hm := memRead_meets .load tv (n := 1) (by decide) sk
    rw [hfault] at hm
    exact ⟨hm.1, bs, sk, s0, hlen, hloads, htv, hfault, hleft.symm.imp_right hm.2.2.trans⟩
  case storeRaises =>
    obtain ⟨s0, hunwrite, hleft⟩ := mayUndo_eq_raise h
    obtain ⟨s2, hsplit, hkept⟩ := mayUnwrite_eq_raise hunwrite
    obtain ⟨k, b, sk, hb, hstores, htv, hfault⟩ := storeSplit_raise hea hsplit
    have hm := memWrite_meets tv 1 (b.setWidth 64) sk
    rw [hfault] at hm
    have hk : k < n := by
      have := (List.getElem?_eq_some_iff.1 hb).1
      rwa [length_leBytes] at this
    rw [htv, ascending_offset _ _ (by omega)] at hkept
    refine ⟨hm.1, k, b, sk, s2, hb, hstores, htv, hfault, ?_⟩
    rcases hleft with hleft | hleft
    · rcases hkept with hkept | hkept
      · exact .inr (.inl (hm.2.2.trans (hkept.trans hleft)))
      · obtain ⟨j, hj, hmarks⟩ := markSplit_marks ea k s
        exact .inr (.inr ⟨j, _, hj, hmarks, hkept.trans hleft⟩)
    · exact .inl hleft

end Sys2Proof.Machine
end

section
/-! SUPPORT. The statements about trap causes, trapping instructions, SRET, FENCE and jumps, proved. -/

namespace Sys2Proof.Machine

/-! ## Cause words (60_exceptions.md R280 to R282) -/

/-- The exception of a code. -/
def excOfCode (k : Nat) : Option Exc :=
  [Exc.instrMisaligned, .instrAccessFault, .illegalInstruction, .breakpoint, .loadAccessFault, .amoMisaligned,
    .storeAccessFault, .environmentCall, .instrPageFault, .loadPageFault, .storePageFault].find? fun e =>
      exceptionCode e = k

/-- The interrupt of a code. -/
def interruptOfCode (k : Nat) : Option Interrupt :=
  Interrupt.all.find? fun i => interruptCode i = k

theorem exceptionCode_inj {a b : Exc} (h : exceptionCode a = exceptionCode b) : a = b := by
  have hinv (e : Exc) : excOfCode (exceptionCode e) = some e := by cases e <;> rfl
  exact Option.some.inj ((hinv a).symm.trans ((congrArg excOfCode h).trans (hinv b)))

theorem interruptCode_inj {a b : Interrupt} (h : interruptCode a = interruptCode b) : a = b := by
  have hinv (i : Interrupt) : interruptOfCode (interruptCode i) = some i := by cases i <;> rfl
  exact Option.some.inj ((hinv a).symm.trans ((congrArg interruptOfCode h).trans (hinv b)))

/-- The code of a cause. -/
def causeCode : Cause → Nat
  | .interrupt i => interruptCode i
  | .exception e => exceptionCode e

/-- The low bits of a cause word are the code. -/
theorem causeWord_code (xl : Xlen) (c : Cause) : ((causeWord xl c).extractLsb' 0 4).toNat = causeCode c := by
  rcases c with i | e
  · cases xl <;> cases i <;> decide
  · cases e <;> rfl

/-- The top bit of a cause word tells interrupts. -/
theorem causeWord_top (xl : Xlen) (c : Cause) :
    (causeWord xl c).getLsbD (xl.bits - 1) = true ↔ ∃ i, c = .interrupt i := by
  rcases c with i | e
  · refine iff_of_true ?_ ⟨i, rfl⟩
    cases xl <;> cases i <;> decide
  · refine iff_of_false ?_ (by rintro ⟨i, h⟩; cases h)
    cases xl <;> cases e <;> decide

theorem causeWord_inj {xl : Xlen} {a b : Cause} (h : causeWord xl a = causeWord xl b) : a = b := by
  have hcode : causeCode a = causeCode b := by rw [← causeWord_code xl a, h, causeWord_code]
  have hkind : (∃ i, a = .interrupt i) ↔ ∃ i, b = .interrupt i := by rw [← causeWord_top xl a, h, causeWord_top]
  rcases a with i | e <;> rcases b with j | f
  · exact congrArg _ (interruptCode_inj hcode)
  · obtain ⟨j, hj⟩ := hkind.1 ⟨i, rfl⟩; cases hj
  · obtain ⟨i, hi⟩ := hkind.2 ⟨j, rfl⟩; cases hi
  · exact congrArg _ (exceptionCode_inj hcode)

/-- Settles O15: the words by computation; the top bit tells the kind and the low bits the code (`causeWord_inj`). -/
theorem causeWordsTellCauses : Obligations.CauseWordsTellCauses := by
  unfold Obligations.CauseWordsTellCauses
  exact ⟨fun xl => by cases xl <;> decide, fun xl a b => ⟨causeWord_inj, causeWord_top xl a⟩⟩

/-! ## Instructions that trap -/

/-- Settles O16: in U-mode ECALL is a trap entry (`trapEntryState`) from a state whose mode is not S. -/
theorem ecallFromUserTraps : Obligations.EcallFromUserTraps := by
  unfold Obligations.EcallFromUserTraps
  intro s hp
  refine ⟨trapToS (.exception .environmentCall) 0 s.pc s, ?_, trapEntryState .., rfl, ?_, ?_⟩
  · simp only [exec, execEcall, hp]
  · rw [trapToS_stval, truncX_zero]
  · rw [trapToS_sstatus, hp]; rfl

/-- Settles O18: EBREAK is a trap entry with the trap value the implementation has. -/
theorem ebreakTraps : Obligations.EbreakTraps := by
  unfold Obligations.EbreakTraps
  intro s
  refine ⟨_, ebreakTvalOf s, rfl, trapEntryState .., rfl, fun h => ?_, fun h => ?_⟩ <;>
    rw [trapToS_stval, ebreakTvalOf, h]
  exact truncX_zero _

/-- Settles O21: the implementation has N or not. -/
theorem uretTrapsOrIsRefused : Obligations.UretTrapsOrIsRefused := by
  unfold Obligations.UretTrapsOrIsRefused
  intro s
  refine ⟨fun h => ⟨raiseIllegal (encode .uret) s, ?_, raiseIllegal_trapped _ s, rfl⟩, fun h => if_pos h⟩
  exact if_neg (Bool.eq_false_iff.1 h)

/-- Settles O22: each instruction tests the mode first. -/
theorem privilegedInstructionsTrapInUser : Obligations.PrivilegedInstructionsTrapInUser := by
  unfold Obligations.PrivilegedInstructionsTrapInUser
  intro s rs1 rs2 hp
  refine ⟨⟨raiseIllegal (encode .sret) s, ?_, raiseIllegal_trapped _ s⟩,
    ⟨raiseIllegal (encode (.sfenceVma rs1 rs2)) s, ?_, raiseIllegal_trapped _ s⟩⟩
  · simp only [exec, execSret, hp]
  · simp only [exec, execSfenceVma, hp]

/-! ## Instructions that retire -/

theorem CountsOne.of_counters {s t : State} (h : t.counters = s.counters.set 2 (s.counters[2] + 1)) :
    CountsOne s t := by
  have hr := retire_countsOne s
  unfold CountsOne at hr ⊢
  rw [h]
  exact hr

theorem exec_sret_of_supervisor {s : State} (h : s.priv = .supervisor) : exec .sret s = .next (returnFromS s) := by
  simp only [exec, execSret, h]

/-- The saved pc as it reads is an SXLEN-bit address already. -/
theorem returnFromS_pc_eq (s : State) : (returnFromS s).pc = legalSepc s.cfg s.sepc :=
  (returnFromS_pc s).trans (legalSepc_fits ..)

/-- Settles O19: the fields of `returnFromS`. -/
theorem sretReturns : Obligations.SretReturns := by
  unfold Obligations.SretReturns
  intro s hp
  exact ⟨returnFromS s, exec_sret_of_supervisor hp, returnFromS_priv s, returnFromS_sstatus s, returnFromS_pc_eq s,
    by simp [KeepsCsrsBut], getX_congr (returnFromS_x s), fun a => by rw [returnFromS_mem], returnFromS_tc s,
    .of_counters (returnFromS_counters s), by simp [KeepsSurroundings]⟩

/-- Settles O20: SPP, SPIE and `sepc` hold what `trapToS` has put there. -/
theorem sretUndoesTrapEntry : Obligations.SretUndoesTrapEntry := by
  unfold Obligations.SretUndoesTrapEntry
  intro cause tval epc s hepc
  refine ⟨_, exec_sret_of_supervisor (trapToS_priv ..), ?_, ?_, ?_, ?_, ?_, getX_congr ?_, fun a => ?_, ?_⟩
  · rw [returnFromS_priv, trapToS_sstatus]
    cases hp : s.priv <;> simp
  · rw [returnFromS_pc_eq, trapToS_sepc, trapToS_cfg, hepc, hepc]
  · rw [returnFromS_sstatus, trapToS_sstatus]
  · rw [returnFromS_sstatus]
  · simp [KeepsUntrappedCsrs]
  · rw [returnFromS_x, trapToS_x]
  · rw [returnFromS_mem, trapToS_mem]
  · rw [returnFromS_tc, trapToS_tc]

/-- Settles O25: FENCE is `retire`. -/
theorem fenceOnlyRetires : Obligations.FenceOnlyRetires := by
  unfold Obligations.FenceOnlyRetires
  intro s pred succ
  exact ⟨retire s, rfl, retire_pc s, retire_priv s, getX_congr (retire_x s), by simp [KeepsCsrs],
    fun a => by rw [retire_mem], retire_tc s, retire_countsOne s, by simp [KeepsSurroundings]⟩

/-- Settles O52: an aligned target is retired to, another raises before the pc moves. -/
theorem misalignedTargetsTrap : Obligations.MisalignedTargetsTrap := by
  unfold Obligations.MisalignedTargetsTrap
  intro target s hfits
  refine ⟨fun hal => ?_, fun hal => ?_⟩
  · have hjump : jumpTo target s = retireTo target s := if_pos (by rw [hfits]; exact hal)
    rw [hjump]
    exact ⟨(retireTo_pc ..).trans hfits, retireTo_priv .., getX_congr (retireTo_x ..), by simp [KeepsCsrs],
      .of_counters (retireTo_counters ..)⟩
  · have hjump : jumpTo target s = trapToS (.exception .instrMisaligned) target s.pc s :=
      if_neg (by rw [hfits]; exact Bool.eq_false_iff.1 hal)
    rw [hjump]
    exact ⟨trapEntryState .., rfl⟩

end Sys2Proof.Machine
end

section
/-! SUPPORT. The statements about counters and the checks of CSR instructions of 42_csr_access.md, proved. -/

namespace Sys2Proof.Machine

/-! ## The forms of a CSR instruction -/

/-- The six instructions on a CSR number. -/
def csrForms (num : CsrNum) (rd rs1 : Reg) (uimm : Nat) : List Instr :=
  [.csrrw rd num rs1, .csrrs rd num rs1, .csrrc rd num rs1, .csrrwi rd num uimm, .csrrsi rd num uimm,
    .csrrci rd num uimm]

/-- The four that only read. -/
def csrReadForms (num : CsrNum) (rd : Reg) : List Instr :=
  [.csrrs rd num 0, .csrrc rd num 0, .csrrsi rd num 0, .csrrci rd num 0]

theorem exec_of_csrForm {num : CsrNum} {rd rs1 : Reg} {uimm : Nat} {i : Instr} (h : i ∈ csrForms num rd rs1 uimm)
    (s : State) : ∃ wr op, exec i s = csrInstr i num rd wr op s := by
  simp only [csrForms, List.mem_cons, List.not_mem_nil, or_false] at h
  rcases h with rfl | rfl | rfl | rfl | rfl | rfl <;> exact ⟨_, _, rfl⟩

theorem exec_of_csrReadForm {num : CsrNum} {rd : Reg} {i : Instr} (h : i ∈ csrReadForms num rd) (s : State) :
    ∃ op, exec i s = csrInstr i num rd false op s := by
  simp only [csrReadForms, List.mem_cons, List.not_mem_nil, or_false] at h
  rcases h with rfl | rfl | rfl | rfl <;> exact ⟨_, rfl⟩

/-- A CSR instruction whose check fails is illegal (42_csr_access.md R242). -/
theorem csrInstr_illegal {num : CsrNum} {wr : Bool} {s : State} (h : csrCheck num wr s = none) (i : Instr) (rd : Reg)
    (op : Word → Word) :
    ∃ t, csrInstr i num rd wr op s = .next t ∧
      Trapped (.exception .illegalInstruction) (illegalValue s.cfg (encode i)) s.pc s t :=
  ⟨_, by rw [csrInstr, h], raiseIllegal_trapped _ s⟩

/-- Every form on a number whose check always fails is illegal. -/
theorem csrForm_illegal {num : CsrNum} {rd rs1 : Reg} {uimm : Nat} {i : Instr} {s : State}
    (hi : i ∈ csrForms num rd rs1 uimm) (h : ∀ wr, csrCheck num wr s = none) :
    ∃ t, exec i s = .next t ∧
      Trapped (.exception .illegalInstruction) (illegalValue s.cfg (encode i)) s.pc s t := by
  obtain ⟨wr, op, he⟩ := exec_of_csrForm hi s
  rw [he]
  exact csrInstr_illegal (h wr) i rd op

/-- The check fails where each CSR the number could name is denied. -/
theorem csrCheck_eq_none {num : CsrNum} {wr : Bool} {s : State}
    (h : ∀ c, csrOf s.cfg.sxlen num = some c → (num.extractLsb' 8 2).toNat ≤ privLevel s.priv →
      ¬(wr = true ∧ num.extractLsb' 10 2 = 3) → counterDenied c s = true) : csrCheck num wr s = none := by
  cases hc : csrCheck num wr s with
  | none => rfl
  | some c =>
    obtain ⟨hof, hpriv, hwr, hdenied⟩ := csrCheck_eq_some.1 hc
    rw [h c hof hpriv hwr] at hdenied
    cases hdenied

/-- Settles O31: the number of a supervisor CSR is above U-mode's privilege (`csrOf_number`). -/
theorem supervisorCsrsTrapInUser : Obligations.SupervisorCsrsTrapInUser := by
  unfold Obligations.SupervisorCsrsTrapInUser
  intro s num c rd rs1 uimm i hp hc hn hi
  refine csrForm_illegal hi fun wr => csrCheck_eq_none fun d _ hpriv _ => ?_
  rw [((csrOf_number hc).1 hn).1, hp] at hpriv
  exact absurd hpriv (by decide)

/-- Settles O32: the number of a counter is read-only (`csrOf_number`), and each of these forms writes. -/
theorem counterWritesTrap : Obligations.CounterWritesTrap := by
  unfold Obligations.CounterWritesTrap
  intro s num c rd rs1 uimm i hc hn hi
  have hcheck : csrCheck num true s = none := csrCheck_eq_none fun d _ _ hwr =>
    absurd ⟨rfl, ((csrOf_number hc).2 hn).2⟩ hwr
  have hwrites : ∃ op, exec i s = csrInstr i num rd true op s := by
    rcases hi with rfl | rfl | ⟨h0, rfl | rfl⟩ | ⟨h0, rfl | rfl⟩
    · exact ⟨_, rfl⟩
    · exact ⟨_, rfl⟩
    · exact ⟨_, by rw [exec, execCsrrs, decide_eq_true h0]⟩
    · exact ⟨_, by rw [exec, execCsrrc, decide_eq_true h0]⟩
    · exact ⟨_, by rw [exec, execCsrrsi, decide_eq_true h0]⟩
    · exact ⟨_, by rw [exec, execCsrrci, decide_eq_true h0]⟩
  obtain ⟨op, he⟩ := hwrites
  rw [he]
  exact csrInstr_illegal hcheck i rd op

/-! ## CSR numbers (10_state.md R23) -/

/-- The numbers of the ten supervisor CSRs. -/
def supervisorNums : List CsrNum :=
  [0x100, 0x104, 0x105, 0x106, 0x140, 0x141, 0x142, 0x143, 0x144, 0x180]

/-- Past the supervisor CSRs, bits 11:5 of a number tell the counters and their high halves. -/
theorem csrOf_of_notSupervisor {num : CsrNum} (h : num ∉ supervisorNums) (xl : Xlen) :
    csrOf xl num =
      if num.extractLsb' 5 7 = 0b1100000#7 then some (.counter (num.extractLsb' 0 5))
      else if num.extractLsb' 5 7 = 0b1100100#7 ∧ xl = .rv32 then some (.counterHigh (num.extractLsb' 0 5))
      else none := by
  simp only [supervisorNums, List.mem_cons, List.not_mem_nil, or_false, not_or] at h
  obtain ⟨n1, n2, n3, n4, n5, n6, n7, n8, n9, n10⟩ := h
  rw [csrOf, if_neg n1, if_neg n2, if_neg n3, if_neg n4, if_neg n5, if_neg n6, if_neg n7, if_neg n8, if_neg n9,
    if_neg n10]

/-- No supervisor CSR has the bits 11:5 of a counter or of a high half. -/
theorem supervisorNums_high : ∀ num ∈ supervisorNums,
    num.extractLsb' 5 7 ≠ 0b1100000#7 ∧ num.extractLsb' 5 7 ≠ 0b1100100#7 := by
  simp [supervisorNums]

theorem csrOf_counter (xl : Xlen) (n : BitVec 5) : csrOf xl (0b1100000#7 ++ n) = some (.counter n) := by
  have hhigh : (0b1100000#7 ++ n).extractLsb' 5 7 = 0b1100000#7 := BitVec.extractLsb'_append_eq_left
  rw [csrOf_of_notSupervisor fun h => (supervisorNums_high _ h).1 hhigh, if_pos hhigh]
  exact congrArg (fun k => some (Csr.counter k)) BitVec.extractLsb'_append_eq_right

theorem csrOf_counterHigh (xl : Xlen) (n : BitVec 5) :
    csrOf xl (0b1100100#7 ++ n) = if xl = .rv32 then some (.counterHigh n) else none := by
  have hhigh : (0b1100100#7 ++ n).extractLsb' 5 7 = 0b1100100#7 := BitVec.extractLsb'_append_eq_left
  have hlow : (0b1100100#7 ++ n).extractLsb' 0 5 = n := BitVec.extractLsb'_append_eq_right
  rw [csrOf_of_notSupervisor fun h => (supervisorNums_high _ h).2 hhigh, hhigh, if_neg (by decide), hlow]
  simp only [true_and]

/-- A base whose low five bits are clear, and an offset below 32. -/
theorem add_eq_append (k : BitVec 7) (n : BitVec 5) : (k ++ 0#5 : BitVec 12) + n.setWidth 12 = k ++ n := by
  apply BitVec.eq_of_toNat_eq
  have hk := k.isLt
  have hn := n.isLt
  rw [BitVec.toNat_add, BitVec.toNat_setWidth, BitVec.toNat_append, BitVec.toNat_append,
    ← Nat.shiftLeft_add_eq_or_of_lt hn]
  simp [Nat.shiftLeft_eq]
  omega

theorem csrOf_eq_none {xl : Xlen} {num : CsrNum} (h : num ∉ supervisorNums)
    (hlow : ¬(0xC00 ≤ num.toNat ∧ num.toNat ≤ 0xC1F))
    (hhigh : ¬(xl = .rv32 ∧ 0xC80 ≤ num.toNat ∧ num.toNat ≤ 0xC9F)) : csrOf xl num = none := by
  have htop := BitVec.extractLsb'_toNat 5 7 num
  rw [Nat.shiftRight_eq_div_pow] at htop
  have hlt := num.isLt
  have hrange {k : BitVec 7} {v : Nat} (hv : k.toNat = v) (hk : num.extractLsb' 5 7 = k) :
      32 * v ≤ num.toNat ∧ num.toNat ≤ 32 * v + 31 := by
    rw [hk, hv] at htop
    omega
  rw [csrOf_of_notSupervisor h, if_neg fun hk => hlow (hrange (v := 0x60) rfl hk),
    if_neg fun hk => hhigh ⟨hk.2, hrange (v := 0x64) rfl hk.1⟩]

/-- Settles O33: a counter's number is its base and its own number side by side (`csrOf_counter`), and a number in none
of the ranges names no CSR (`csrOf_eq_none`). -/
theorem csrNumbersNameTheirCsrs : Obligations.CsrNumbersNameTheirCsrs := by
  unfold Obligations.CsrNumbersNameTheirCsrs
  refine ⟨fun xl n => ⟨rfl, rfl, rfl, rfl, rfl, rfl, rfl, rfl, rfl, rfl, ?_, ?_⟩,
    fun s num rd rs1 uimm i h hlow hhigh hi => ?_⟩
  · exact (congrArg (csrOf xl) (add_eq_append 0b1100000#7 n)).trans (csrOf_counter xl n)
  · exact (congrArg (csrOf xl) (add_eq_append 0b1100100#7 n)).trans (csrOf_counterHigh xl n)
  · have hnone := csrOf_eq_none h hlow hhigh
    refine csrForm_illegal hi fun wr => csrCheck_eq_none fun c hc => ?_
    rw [hnone] at hc
    cases hc

end Sys2Proof.Machine
end

section
/-! SUPPORT. The statements about reading counters of 42_csr_access.md, proved. -/

namespace Sys2Proof.Machine

/-! ## Observing a counter -/

/-- A counter does not go back, and its new value fits its 64 bits (60_exceptions.md R330). -/
theorem advanceCounter_toNat (k : Nat) (old : Word) :
    (advanceCounter k old).toNat = old.toNat + k % (2 ^ 64 - old.toNat) := by
  have hold := old.isLt
  have hadv := Nat.mod_lt k (show 0 < 2 ^ 64 - old.toNat by omega)
  rw [advanceCounter, BitVec.toNat_ofNat, Nat.mod_eq_of_lt (by omega)]

/-- Observing a counter answers a value not below the one last observed, `instret`'s exactly, and keeps it. -/
theorem observeCounter_spec (n : BitVec 5) (s : State) :
    (s.counters[n.toNat]'n.isLt).toNat ≤ (observeCounter n s).1.toNat ∧
      (n = 2 → (observeCounter n s).1 = s.counters[n.toNat]'n.isLt) ∧
      (observeCounter n s).2.counters = s.counters.set n.toNat (observeCounter n s).1 n.isLt := by
  unfold observeCounter
  split
  · rename_i h
    subst h
    exact ⟨Nat.le_refl _, fun _ => rfl, (Vector.set_getElem_self _).symm⟩
  · rename_i h
    refine ⟨?_, fun h2 => absurd h2 h, rfl⟩
    rw [advanceCounter_toNat]
    exact Nat.le_add_right _ _

/-! ## What reading a counter leaves -/

/-- The CSR a counter's number names: the counter or its high half. -/
def counterHalf (high : Bool) (n : BitVec 5) : Csr :=
  if high then .counterHigh n else .counter n

/-- A read of a counter answers its low or high half. -/
theorem csrRead_counterHalf (high : Bool) (n : BitVec 5) (s : State) :
    csrRead (counterHalf high n) s =
      (if high then (observeCounter n s).1 >>> 32 else truncX s.cfg.sxlen (observeCounter n s).1,
        (observeCounter n s).2) := by
  cases high <;> rfl

/-- A counter observed is not seen by what retiring into a register keeps. -/
theorem RetiresInto.of_observed {rd : Reg} {v : Word} {n : BitVec 5} {s t : State}
    (h : RetiresInto rd v (observeCounter n s).2 t) : RetiresInto rd v s t := by
  rw [observeCounter_state] at h
  exact h

theorem KeepsCsrs.of_observed {n : BitVec 5} {s t : State} (h : KeepsCsrs (observeCounter n s).2 t) :
    KeepsCsrs s t := by
  rw [observeCounter_state] at h
  exact h

/-- Retiring into a register takes the value modulo `2^SXLEN`. -/
theorem RetiresInto.of_truncX {rd : Reg} {v : Word} {s t : State}
    (h : RetiresInto rd (truncX s.cfg.sxlen v) s t) : RetiresInto rd v s t := by
  unfold RetiresInto at h
  rwa [truncX_truncX] at h

/-- What a CSR instruction that only reads a counter leaves. -/
theorem csrAccess_counter (high : Bool) (n : BitVec 5) (rd : Reg) (op : Word → Word) (s : State) :
    RetiresInto rd (if high then (observeCounter n s).1 >>> 32 else (observeCounter n s).1) s
        (csrAccess (counterHalf high n) rd false op s) ∧
      KeepsCsrs s (csrAccess (counterHalf high n) rd false op s) ∧
      (csrAccess (counterHalf high n) rd false op s).counters =
        (s.counters.set n.toNat (observeCounter n s).1 n.isLt).set 2
          ((s.counters.set n.toNat (observeCounter n s).1 n.isLt)[2] + 1) := by
  have hcounters := (observeCounter_spec n s).2.2
  have hcfg : (observeCounter n s).2.cfg = s.cfg := by rw [observeCounter_state]
  have heq : csrAccess (counterHalf high n) rd false op s =
      retire (setX rd (if high then (observeCounter n s).1 >>> 32 else truncX s.cfg.sxlen (observeCounter n s).1)
        (observeCounter n s).2) := by
    rw [csrAccess_eq, csrRead_counterHalf]
    rfl
  rw [heq]
  refine ⟨.of_observed (n := n) ?_, .of_observed (retire_setX_keepsCsrs ..), ?_⟩
  · cases high with
    | true => exact retire_setX_retiresInto ..
    | false =>
      refine .of_truncX ?_
      rw [hcfg]
      exact retire_setX_retiresInto ..
  · simp only [retire_counters, setX_counters, hcounters]

/-! ## When the check lets a counter be read -/

theorem csrOf_counterHalf {xl : Xlen} {num : CsrNum} {n : BitVec 5}
    (h : csrOf xl num = some (.counter n) ∨ csrOf xl num = some (.counterHigh n)) :
    ∃ high, csrOf xl num = some (counterHalf high n) :=
  h.elim (fun h => ⟨false, h⟩) fun h => ⟨true, h⟩

theorem counterBit_counterHalf (high : Bool) (n : BitVec 5) : counterBit (counterHalf high n) = some n := by
  cases high <;> rfl

/-- `scounteren` keeps a counter from U-mode alone (10_state.md R58). -/
theorem counterDenied_counterHalf (high : Bool) (n : BitVec 5) (s : State) :
    counterDenied (counterHalf high n) s = (decide (s.priv = .user) && !s.scounteren.getLsbD n.toNat) := by
  unfold counterDenied
  rw [counterBit_counterHalf]

/-- A counter may be read in S-mode, and in U-mode where its bit is set. -/
theorem csrCheck_counterHalf {s : State} {num : CsrNum} {high : Bool} {n : BitVec 5}
    (hc : csrOf s.cfg.sxlen num = some (counterHalf high n))
    (h : s.priv = .supervisor ∨ s.scounteren.getLsbD n.toNat = true) :
    csrCheck num false s = some (counterHalf high n) := by
  have hnum := (csrOf_number hc).2 (by rw [counterBit_counterHalf]; exact Option.some_ne_none n)
  refine csrCheck_eq_some.2 ⟨hc, by rw [hnum.1]; exact Nat.zero_le _, fun hw => Bool.noConfusion hw.1, ?_⟩
  rw [counterDenied_counterHalf]
  rcases h with h | h <;> simp [h]

/-- Settles O29: the check passes (`csrCheck_counterHalf`) and the read is one observation (`csrAccess_counter`). -/
theorem counterReads : Obligations.CounterReads := by
  unfold Obligations.CounterReads
  intro s num n high rd i hc hmay hi
  obtain ⟨op, he⟩ := exec_of_csrReadForm hi s
  obtain ⟨hle, hexact, -⟩ := observeCounter_spec n s
  obtain ⟨hretires, hcsrs, hcounters⟩ := csrAccess_counter high n rd op s
  refine ⟨_, (observeCounter n s).1, he.trans (csrInstr_of_check (csrCheck_counterHalf hc hmay) i rd op), hretires,
    hcsrs, hle, fun h2 => ?_, fun h2 => ?_, fun k hk hk2 => ?_⟩ <;> simp only [hcounters]
  · subst h2
    exact ⟨hexact rfl, by simp⟩
  · have hne : n.toNat ≠ 2 := fun e => h2 (BitVec.eq_of_toNat_eq e)
    simp [hne, hne.symm]
  · have hn : ¬n.toNat = k.val := fun e => hk e.symm
    have h2 : ¬2 = k.val := fun e => hk2 (Fin.ext e.symm)
    simp [Vector.getElem_set, hn, h2]

/-- Settles O30: the check asks for the bit in U-mode (`counterDenied_counterHalf`). -/
theorem counterAvailability : Obligations.CounterAvailability := by
  unfold Obligations.CounterAvailability
  intro s num n rd i hp hc hi
  obtain ⟨high, hc⟩ := csrOf_counterHalf hc
  obtain ⟨op, he⟩ := exec_of_csrReadForm hi s
  rw [he]
  refine ⟨fun hclear => csrInstr_illegal (csrCheck_eq_none fun c hc' _ _ => ?_) i rd op, fun hset => ?_⟩
  · cases hc.symm.trans hc'
    rw [counterDenied_counterHalf, hp, hclear]
    rfl
  · obtain ⟨-, -, -, -, hpriv, hpc, -⟩ := (csrAccess_counter high n rd op s).1
    exact ⟨_, csrInstr_of_check (csrCheck_counterHalf hc (.inr hset)) i rd op, hpriv.trans hp, hpc⟩

end Sys2Proof.Machine
end

section
/-! SUPPORT. The statements about what CSR writes leave of 10_state.md, proved. -/

namespace Sys2Proof.Machine

/-! ## sstatus -/

/-- The writable bits of `sstatus` (10_state.md R25, R32). -/
def sstatusMask (c : Config) : Word :=
  bitAt true 19 ||| bitAt true 18 ||| bitAt true 8 ||| bitAt true 5 ||| bitAt c.hasN 4 ||| bitAt true 1 |||
    bitAt c.hasN 0

theorem sstatusMask_eq (c : Config) : sstatusMask c = if c.hasN then 0xC0133 else 0xC0122 := by
  unfold sstatusMask
  cases c.hasN <;> decide

theorem sstatusWord_ofWord (c : Config) (v : Word) :
    sstatusWord c (sstatusOfWord c v) = (v &&& sstatusMask c) ||| uxlWord c.sxlen := by
  unfold sstatusWord sstatusOfWord sstatusMask
  ext k hk
  simp only [BitVec.getElem_or, BitVec.getElem_and, getElem_bitAt]
  grind

theorem sstatusWord_masked (c : Config) (st : Sstatus) :
    sstatusWord c st = (sstatusWord c st &&& sstatusMask c) ||| uxlWord c.sxlen := by
  unfold sstatusWord sstatusMask
  ext k hk
  simp only [BitVec.getElem_or, BitVec.getElem_and, getElem_bitAt]
  grind

theorem uxlWord_eq (xl : Xlen) : uxlWord xl = if xl = .rv64 then 0x200000000 else 0 := by
  cases xl <;> decide

theorem uxlWord_and_not_mask (c : Config) : uxlWord c.sxlen &&& ~~~sstatusMask c = uxlWord c.sxlen := by
  rw [sstatusMask_eq, uxlWord_eq]
  cases c.hasN <;> cases c.sxlen <;> decide

/-- What a mask leaves out of a word that is a masked one beside others. -/
theorem and_not_of_eq_and_or {w m u : Word} (h : w = (w &&& m) ||| u) (hu : u &&& ~~~m = u) : w &&& ~~~m = u := by
  rw [h, ← hu]
  ext k hk
  simp only [BitVec.getElem_or, BitVec.getElem_and, BitVec.getElem_not]
  grind

/-- Settles O34: `sstatus` reads as its writable bits beside UXL, and a written word leaves just those of its bits. -/
theorem sstatusWriteRule : Obligations.SstatusWriteRule := by
  unfold Obligations.SstatusWriteRule
  intro s v mask uxl
  have hrest : sstatusWord s.cfg s.sstatus &&& ~~~sstatusMask s.cfg = uxlWord s.cfg.sxlen :=
    and_not_of_eq_and_or (sstatusWord_masked ..) (uxlWord_and_not_mask _)
  have hmask : sstatusMask s.cfg = mask := sstatusMask_eq _
  have huxl : uxlWord s.cfg.sxlen = uxl := uxlWord_eq _
  rw [hmask, huxl] at hrest
  refine ⟨?_, hrest, rfl, rfl, rfl, rfl, rfl, rfl, rfl⟩
  calc sstatusWord s.cfg (sstatusOfWord s.cfg v)
      = (v &&& mask) ||| uxl := by rw [sstatusWord_ofWord, hmask, huxl]
    _ = (sstatusWord s.cfg s.sstatus &&& ~~~mask) ||| (v &&& mask) := by rw [hrest, BitVec.or_comm]

/-! ## sie and sip -/

/-- The positions of the enable and of the pending bits (10_state.md R44, R45). -/
def interruptMask (c : Config) : Word :=
  bitAt true 9 ||| bitAt c.hasN 8 ||| bitAt true 5 ||| bitAt c.hasN 4 ||| bitAt true 1 ||| bitAt c.hasN 0

theorem interruptMask_eq (c : Config) : interruptMask c = if c.hasN then 0x333 else 0x222 := by
  unfold interruptMask
  cases c.hasN <;> decide

theorem sieWord_ofWord (c : Config) (v : Word) : sieWord c (sieOfWord c v) = v &&& interruptMask c := by
  unfold sieWord sieOfWord interruptMask
  ext k hk
  simp only [BitVec.getElem_or, BitVec.getElem_and, getElem_bitAt]
  grind

theorem sipWord_masked (c : Config) (p : Sip) : sipWord c p = sipWord c p &&& interruptMask c := by
  unfold sipWord sipWordWith interruptMask
  ext k hk
  simp only [BitVec.getElem_or, BitVec.getElem_and, getElem_bitAt]
  grind

/-- Settles O35: `sie` reads as the enable bits of the word written, `sip` as the pending bits, and of these a write
reaches the ones R48 names. -/
theorem interruptRegisterWriteRules : Obligations.InterruptRegisterWriteRules := by
  unfold Obligations.InterruptRegisterWriteRules
  intro s v
  have hsip : sipWord s.cfg s.sip &&& ~~~interruptMask s.cfg = 0 :=
    and_not_of_eq_and_or (by simpa using sipWord_masked s.cfg s.sip) (by simp)
  have hread (i : Interrupt) := getLsbD_sipWordWith s.cfg s.sip (s.sip.ueipSw || s.sip.ueipSig) i
  rw [← interruptMask_eq]
  refine ⟨sieWord_ofWord .., rfl, rfl, rfl, rfl, rfl, rfl, rfl, fun hN => ?_, fun hN => ?_, rfl, rfl, rfl, rfl, hsip,
    hread .supervisorSoftware, hread .supervisorTimer, hread .supervisorExternal, fun hN => ?_⟩
  · simp [csrWrite, sipOfWord, hN]
  · simp [csrWrite, sipOfWord, hN]
  · exact ⟨(hread .userSoftware).trans (by simp [hN]), (hread .userTimer).trans (by simp [hN]),
      (hread .userExternal).trans (by simp [hN])⟩

/-! ## stvec -/

theorem truncX_and_not_three {xl : Xlen} {v : Word} (h : v.extractLsb' 0 2 = 0#2) :
    truncX xl v &&& ~~~3 = truncX xl v := by
  refine and_not_of_and_eq_zero (BitVec.eq_of_toNat_eq ?_)
  have hmod : v.toNat % 4 = 0 := by rw [toNat_mod_four, h]; rfl
  have hmask : (truncX xl v &&& 3).toNat = (truncX xl v).toNat % 4 :=
    toNat_and_lowMask (truncX xl v) (k := 2) (by omega)
  rw [hmask, truncX_mod_four, hmod]
  rfl

/-- The alignment of a vector table clears the two MODE bits too. -/
theorem and_not_vecAlign {c : Config} (h : c.vecAlignWf = true) (v : Word) :
    v &&& ~~~(BitVec.ofNat 64 (c.stvecVecAlign - 1)) &&& ~~~3 = v &&& ~~~(BitVec.ofNat 64 (c.stvecVecAlign - 1)) := by
  simp only [Config.vecAlignWf, List.any_eq_true, List.mem_range, decide_eq_true_eq] at h
  obtain ⟨k, hk, halign, -⟩ := h
  rw [BitVec.and_assoc, halign]
  congr 1
  interval_cases k <;> decide

theorem csrWrite_stvec (v : Word) (s : State) : (csrWrite .stvec v s).stvec = stvecOfWord s.cfg s.stvec v := rfl

/-- Settles O37, by the MODE field of the word written. -/
theorem stvecWriteRule : Obligations.StvecWriteRule := by
  unfold Obligations.StvecWriteRule
  intro s v hw
  simp only [csrWrite_stvec]
  refine ⟨?_, fun h hn => ?_, fun h hn => ?_, fun h hd => ?_, fun h hv => ?_, rfl⟩
  · rintro (h | h) <;> simp [stvecOfWord, h]
  · rw [stvecOfWord, if_neg (by rw [hn]; simp), if_neg (by simp [h])]
  · rw [stvecOfWord, if_neg (by simp [h]), if_neg (by rw [hn]; simp)]
  · rw [stvecOfWord, if_pos ⟨h, hd⟩, truncX_and_not_three h]
  · rw [stvecOfWord, if_neg (by simp [h]), if_pos ⟨h, hv⟩, and_not_vecAlign hw]

/-! ## The CSRs that only store -/

/-- The bits a value of SXLEN bits keeps of a word. -/
theorem getLsbD_truncX_width (xl : Xlen) (v : Word) (k : Nat) :
    (truncX xl v).getLsbD k = (decide (k < xl.bits) && v.getLsbD k) := by
  rw [BitVec.getLsbD, truncX_toNat, Nat.testBit_mod_two_pow]
  rfl

/-- The bits `sepc` keeps of a word (10_state.md R62). -/
theorem getLsbD_legalSepc (c : Config) (v : Word) {k : Nat} (hk : k < 64) :
    (legalSepc c v).getLsbD k =
      (decide (k < c.sxlen.bits) && decide (k ≠ 0) && (c.ialign16 || decide (k ≠ 1)) && v.getLsbD k) := by
  have hone : (1 : Word) = bitAt true 0 := by decide
  have hthree : (3 : Word) = bitAt true 0 ||| bitAt true 1 := by decide
  unfold legalSepc
  rw [BitVec.getLsbD_and, getLsbD_truncX_width, hone, hthree]
  cases c.ialign16 <;> simp [hk, BitVec.getLsbD_eq_getElem, eq_comm (b := k)] <;> ac_rfl

/-- Settles O39, bit by bit. -/
theorem storageCsrWriteRules : Obligations.StorageCsrWriteRules := by
  unfold Obligations.StorageCsrWriteRules
  intro s v k hk
  refine ⟨?_, ?_, getLsbD_truncX_width .., getLsbD_truncX_width .., getLsbD_truncX_width ..⟩
  · by_cases h : k < 32
    · simp [csrRead, csrWrite, h, hk, Bool.and_comm]
    · simp [csrRead, csrWrite, h, hk]
  · rw [← getLsbD_legalSepc _ _ hk]
    exact congrArg (BitVec.getLsbD · k) (legalSepc_idem s.cfg v)

end Sys2Proof.Machine
end

section
/-! SUPPORT. The statements about the SBI call and SFENCE.VMA, proved. -/

namespace Sys2Proof.Machine

/-! ## The SBI call -/

/-- What an SBI call leaves, the instruction's own part apart: what the SEE does in it. -/
def sbiServed (s : State) : State :=
  sbiServe s.draws (s.cfg.sbi.args.map fun r => getX r s) s

theorem sbiCall_eq (s : State) : sbiCall s = drawn (retire (noteCall s.x (sbiServed s))) := rfl

theorem exec_ecall_of_supervisor {s : State} (h : s.priv = .supervisor) : exec .ecall s = .next (sbiCall s) := by
  simp only [exec, execEcall, h]

theorem sbiServed_getX (s : State) {r : Reg} (h : r ∉ s.cfg.sbi.results) : getX r (sbiServed s) = getX r s :=
  (getX_congr (sbiServe_x ..) r).trans ((sbiRegisters_spec ..).2 r h)

theorem sbiServed_read (s : State) {a : Nat} (h : ∀ m ∈ s.cfg.sbi.memory, a < m.1 ∨ m.1 + m.2 ≤ a) :
    (sbiServed s).mem.read a = s.mem.read a := by
  rw [sbiServed, sbiServe_mem, (sbiMemory_spec ..).2.1 a h, sbiRegisters_mem]

theorem sbiServed_csrs (s : State) : KeepsCsrsOutside (.sip :: s.cfg.sbi.csrs) s (sbiServed s) :=
  sbiServe_csrs ..

theorem sbiServed_stipOnTime (s : State) : StipOnTime s (sbiServed s) :=
  sbiServe_stipOnTime _ _ s

/-- The pending bits a call leaves where its contract does not name `sip`: each as before without the liberty, and SSIP
never cleared (60_exceptions.md R335). -/
theorem sbiServed_sip (s : State) (h : .sip ∉ s.cfg.sbi.csrs) :
    (s.sip.ssip = true → (sbiServed s).sip.ssip = true) ∧ (sbiServed s).sip.usip = s.sip.usip ∧
      (sbiServed s).sip.ueipSw = s.sip.ueipSw ∧ (sbiServed s).sip.ueipSig = s.sip.ueipSig ∧
      (s.cfg.hasN = false ∨ .utip ∉ s.cfg.sbi.liberties → (sbiServed s).sip.utip = s.sip.utip) ∧
      (.stip ∉ s.cfg.sbi.liberties → (sbiServed s).sip.stip = s.sip.stip) ∧
      (.seip ∉ s.cfg.sbi.liberties → (sbiServed s).sip.seip = s.sip.seip) ∧
      (.ssip ∉ s.cfg.sbi.liberties → (sbiServed s).sip.ssip = s.sip.ssip) := by
  rw [sbiServed, sbiServe_sip h]
  refine ⟨fun hs => ?_, ?_, ?_, ?_, fun hu => ?_, fun hl => ?_, fun hl => ?_, fun hl => ?_⟩
  · simp [sbiPendingBits, hs]
  · simp [sbiPendingBits]
  · simp [sbiPendingBits]
  · simp [sbiPendingBits]
  · rcases hu with hN | hl
    · simp [sbiPendingBits, hN]
    · simp [sbiPendingBits, hl]
  · simp [sbiPendingBits, hl]
  · simp [sbiPendingBits, hl]
  · simp [sbiPendingBits, hl]

/-- STIP on time depends on STIP, the time and the timer alone. -/
theorem StipOnTime.congr {s u t : State} (h : StipOnTime s u) (hsip : t.sip = u.sip) (htimer : t.timer = u.timer)
    (htime : t.counters[1] = u.counters[1]) : StipOnTime s t := by
  unfold StipOnTime at h ⊢
  rw [hsip, htimer, htime]
  exact h

theorem KeepsCsrsOutside.congr {cs : List Csr} {s u t : State} (h : KeepsCsrsOutside cs s u) (k : KeepsCsrs u t) :
    KeepsCsrsOutside cs s t := by
  obtain ⟨k1, k2, k3, k4, k5, k6, k7, k8, k9, k10⟩ := k
  unfold KeepsCsrsOutside at h ⊢
  rw [k1, k2, k3, k4, k5, k6, k7, k8, k9, k10]
  exact h

/-- Settles O17: what the SEE does in the call, then the instruction retires and the draw and the note are made. -/
theorem ecallFromSupervisorCallsSbi : Obligations.EcallFromSupervisorCallsSbi := by
  unfold Obligations.EcallFromSupervisorCallsSbi
  intro s hp
  have hsip : (sbiCall s).sip = (sbiServed s).sip := by simp [sbiCall_eq]
  have htimer : (sbiCall s).timer = (sbiServed s).timer := by simp [sbiCall_eq]
  refine ⟨sbiCall s, exec_ecall_of_supervisor hp, ?_, ?_, fun r hr => ?_, fun a ha => ?_, ?_, fun h => ?_, ?_,
    fun h => ?_, fun h => ?_, ?_, ?_, ?_, ?_, ?_⟩
  · simp [sbiCall, hp]
  · simp [sbiCall]
  · exact (getX_congr (by simp [sbiCall_eq]) r).trans (sbiServed_getX s hr)
  · exact (by simp [sbiCall_eq] : (sbiCall s).mem.read a = (sbiServed s).mem.read a).trans (sbiServed_read s ha)
  · exact (sbiServed_csrs s).congr (by simp [KeepsCsrs, sbiCall_eq])
  · rw [hsip]
    exact sbiServed_sip s h
  · exact StipOnTime.congr (sbiServed_stipOnTime s) hsip htimer (by simp [sbiCall_eq])
  · rw [htimer, sbiServed, sbiServe_timer]
    simp [sbiTimer, h]
  · refine .of_counters ?_
    have hc : (sbiServed s).counters = s.counters := by
      rw [sbiServed, sbiServe_counters]
      simp [sbiCounters, h]
    simp [sbiCall_eq, hc]
  · simp [sbiCall]
  · simp [sbiCall]
  · simp [sbiCall]
  · simp [sbiCall]
  · simp [sbiCall_eq, noteCall]

/-! ## SFENCE.VMA -/

/-- The ASID a fence names is the low `ASIDLEN` bits of the register (40_sfence_vma.md R200, R206). -/
theorem toNat_asidSelector {rs2 : Reg} (h : rs2 ≠ 0) {s : State} (hlen : s.cfg.asidLen ≤ 16) :
    ∃ a, asidSelector rs2 s = some a ∧ a.toNat = (getX rs2 s).toNat % 2 ^ s.cfg.asidLen := by
  refine ⟨_, if_neg h, ?_⟩
  rw [toNat_and_lowMask _ hlen, BitVec.toNat_setWidth, Nat.mod_mod_of_dvd _ (Nat.pow_dvd_pow 2 hlen)]

theorem vaSelector_of_ne {rs1 : Reg} (h : rs1 ≠ 0) (s : State) : vaSelector rs1 s = some (getX rs1 s) := if_neg h

/-- An entry that an ASID does not reach is global or of another ASID (40_sfence_vma.md R205). -/
theorem asidCovers_eq_false {a : BitVec 16} {e : TcEntry} (h : asidCovers (some a) e = false) :
    e.global = true ∨ e.asid.toNat ≠ a.toNat := by
  rcases hg : e.global with _ | _
  · refine .inr fun he => ?_
    simp [asidCovers, hg, BitVec.eq_of_toNat_eq he] at h
  · exact .inl rfl

/-- A leaf that an address does not reach is one of other VPN fields, under a paged scheme (40_sfence_vma.md R205). -/
theorem vaCovers_eq_false {m : SatpMode} {va : Word} {e : TcEntry} (h : vaCovers m (some va) e = false)
    (hl : pteLeaf e.pte = true) : m ≠ .bare ∧ e.vpnPrefix ≠ vpnPrefix m va e.level := by
  simpa [vaCovers, hl] using h

theorem fence_keeps (va : Option Word) (asid : Option (BitVec 16)) (s : State) :
    KeepsRegisters s (retire (fenceTc va asid s)) ∧ KeepsCsrs s (retire (fenceTc va asid s)) ∧
      KeepsMemory s (retire (fenceTc va asid s)) ∧ (retire (fenceTc va asid s)).priv = s.priv ∧
      (retire (fenceTc va asid s)).pc = truncX s.cfg.sxlen (s.pc + 4) ∧ CountsOne s (retire (fenceTc va asid s)) ∧
      KeepsSurroundings s (retire (fenceTc va asid s)) :=
  ⟨getX_congr (by simp), by simp [KeepsCsrs], fun a => by simp, by simp, by simp, .of_counters (by simp),
    by simp [KeepsSurroundings]⟩

/-- Settles O23: an entry that is left is covered by neither selector of its form. -/
theorem sfenceRemovesCoveredEntries : Obligations.SfenceRemovesCoveredEntries := by
  unfold Obligations.SfenceRemovesCoveredEntries
  intro s rs1 rs2 hp hlen
  refine ⟨_, exec_sfenceVma_of_supervisor hp rs1 rs2, ?_⟩
  rw [retire_tc]
  have huncovered : ∀ e ∈ (fenceTc (vaSelector rs1 s) (asidSelector rs2 s) s).tc,
      asidCovers (asidSelector rs2 s) e = false ∨ vaCovers s.satp.mode (vaSelector rs1 s) e = false := fun e he =>
    (Bool.and_eq_false_iff ..).1 (mem_fenceTc he).2
  have hasid : rs2 ≠ 0 → ∀ e, asidCovers (asidSelector rs2 s) e = false →
      e.global = true ∨ e.asid.toNat ≠ (getX rs2 s).toNat % 2 ^ s.cfg.asidLen := by
    intro h2 e he
    obtain ⟨a, hsel, ha⟩ := toNat_asidSelector h2 hlen
    rw [hsel] at he
    exact ha ▸ asidCovers_eq_false he
  have hva : rs1 ≠ 0 → ∀ e, vaCovers s.satp.mode (vaSelector rs1 s) e = false → pteLeaf e.pte = true →
      s.satp.mode ≠ .bare ∧ e.vpnPrefix ≠ vpnPrefix s.satp.mode (getX rs1 s) e.level := by
    intro h1 e he
    rw [vaSelector_of_ne h1] at he
    exact vaCovers_eq_false he
  refine ⟨fun e he => (mem_fenceTc he).1, fun h1 h2 => ?_, fun h1 h2 e he => ?_, fun h1 h2 e he hl => ?_,
    fun h1 h2 e he hl => ?_, fence_keeps ..⟩
  · subst h1 h2
    exact fenceTc_all s
  · subst h1
    exact (huncovered e he).elim (hasid h2 e) nofun
  · subst h2
    exact (huncovered e he).elim nofun fun hv => hva h1 e hv hl
  · rcases huncovered e he with h | h
    · exact (hasid h2 e h).imp_right .inl
    · exact .inr (.inr (hva h1 e h hl))

end Sys2Proof.Machine
end

section
/-! SUPPORT. The statements about turns and interrupts, proved. -/

namespace Sys2Proof.Machine

/-! ## Turns -/

theorem step_of_noTurns {s : State} (h : s.turns = []) : step s = hartTurn s := by
  simp only [step, takeTurn, h]

theorem step_of_hartExecutes {s : State} {rest : List Turn} (h : s.turns = .hartExecutes :: rest) :
    step s = executeNext { s with turns := rest } := by
  simp only [step, takeTurn, h]

theorem step_of_hartInterrupted {s : State} {rest : List Turn} (h : s.turns = .hartInterrupted :: rest) :
    step s = hartTurnInterrupted { s with turns := rest } := by
  simp only [step, takeTurn, h]

theorem step_of_agent {s : State} {a : AgentStep} {rest : List Turn} (h : s.turns = .agent a :: rest) :
    step s = .next (agentStep a { s with turns := rest }) := by
  simp only [step, takeTurn, h]

theorem hartTurn_of_none {s : State} (h : firstTakeable s = none) : hartTurn s = executeNext s := by
  simp only [hartTurn, h]

theorem hartTurn_of_some {s : State} {i : Interrupt} (h : firstTakeable s = some i) :
    hartTurn s = .next (takeInterrupt i (drawn s)) ∨ hartTurn s = executeNext (drawn s) := by
  simp only [hartTurn, h]
  split
  · exact .inl rfl
  · exact .inr rfl

theorem hartTurnInterrupted_of_none {s : State} (h : firstTakeable s = none) :
    hartTurnInterrupted s = executeNext s := by
  simp only [hartTurnInterrupted, h]

theorem hartTurnInterrupted_of_some {s : State} {i : Interrupt} (h : firstTakeable s = some i) :
    hartTurnInterrupted s = .next (takeInterrupt i s) := by
  simp only [hartTurnInterrupted, h]

/-! ## Which interrupt comes first -/

theorem mem_intPriority {c : Config} (h : c.intPriorityWf = true) (i : Interrupt) : i ∈ c.intPriority := by
  unfold Config.intPriorityWf at h
  rw [Bool.and_eq_true, List.all_eq_true] at h
  have hi : i ∈ Interrupt.all := by cases i <;> decide
  simpa using h.1 i hi

/-- Settles O11: `firstTakeable` is the first of `IntPriority` that is takeable. -/
theorem firstInterruptHasPriority : Obligations.FirstInterruptHasPriority := by
  unfold Obligations.FirstInterruptHasPriority
  refine fun s => ⟨fun i h => ?_, fun hw hnone i => ?_⟩
  · obtain ⟨htakeable, before, after, hsplit, hbefore⟩ := List.find?_eq_some_iff_append.1 h
    exact ⟨htakeable, before, after, hsplit, fun j hj => by simpa using hbefore j hj⟩
  · simpa using List.find?_eq_none.1 hnone i (mem_intPriority hw i)

/-- In S-mode SIE masks every interrupt: the supervisor-level ones, and the user-level ones are masked there anyway
(10_state.md R28, R30). -/
theorem firstTakeable_of_sieClear {s : State} (hp : s.priv = .supervisor) (hsie : s.sstatus.sie = false) :
    firstTakeable s = none := by
  refine List.find?_eq_none.2 fun i _ => ?_
  have hmode : modeEnabled i s = false := by
    unfold modeEnabled
    rw [hp]
    cases supervisorLevel i
    · rfl
    · exact hsie
  simp [takeable, hmode]

/-- Settles O12: no interrupt is takeable, so either turn executes. -/
theorem clearSieMasksInterrupts : Obligations.ClearSieMasksInterrupts := by
  unfold Obligations.ClearSieMasksInterrupts
  intro s rest hp hsie
  have hnone := firstTakeable_of_sieClear hp hsie
  exact ⟨fun h => (step_of_noTurns h).trans (hartTurn_of_none hnone),
    fun h => (step_of_hartInterrupted h).trans (hartTurnInterrupted_of_none hnone)⟩

/-! ## Taking it -/

/-- Settles O9: the hart traps as `trapToS` does, or the free value has it wait. -/
theorem takeableInterruptTrapsOrWaits : Obligations.TakeableInterruptTrapsOrWaits := by
  unfold Obligations.TakeableInterruptTrapsOrWaits
  refine fun s i hi => ⟨fun h => ?_, fun rest h => ?_⟩
  · rw [step_of_noTurns h]
    exact (hartTurn_of_some hi).imp_left fun htaken =>
      ⟨_, htaken, trapEntryState (.interrupt i) 0 s.pc (drawn s)⟩
  · exact ⟨_, (step_of_hartInterrupted h).trans (hartTurnInterrupted_of_some hi),
      trapEntryState (.interrupt i) 0 s.pc { s with turns := rest }⟩

end Sys2Proof.Machine
end

section
/-! SUPPORT. The statements about fetching, proved. -/

namespace Sys2Proof.Machine

/-! ## The bytes a portion is made of -/

theorem extractLsb'_lowByte (b : Byte) (r : Word) : (b.setWidth 64 ||| (r <<< 8)).extractLsb' 0 8 = b := by
  ext i hi
  simp [hi, show i < 64 by omega]

theorem extractLsb'_upperByte (b : Byte) (r : Word) {k : Nat} (hk : k < 7) :
    (b.setWidth 64 ||| (r <<< 8)).extractLsb' (8 * (k + 1)) 8 = r.extractLsb' (8 * k) 8 := by
  ext i hi
  simp only [BitVec.getElem_extractLsb', BitVec.getLsbD_or, BitVec.getLsbD_setWidth, BitVec.getLsbD_shiftLeft]
  have hlow : 8 * (k + 1) + i - 8 = 8 * k + i := by omega
  have hb : b.getLsbD (8 * (k + 1) + i) = false := BitVec.getLsbD_of_ge _ _ (by omega)
  simp [hlow, hb, show 8 * (k + 1) + i < 64 by omega, show ¬8 * (k + 1) + i < 8 by omega]

theorem Fetchable.of_notes {s t : State} (h : NotesOnly s t) {pa : Nat} {b : Byte} (hb : Fetchable t pa b) :
    Fetchable s pa b := by
  unfold NotesOnly at h
  rw [h] at hb
  exact hb

theorem fetchByte_fetchable (pa : Nat) (s : State) : Fetchable s pa (fetchByte pa s).1 := by
  unfold fetchByte
  split
  · exact .inl rfl
  · rename_i old more hfilter
    refine (choose_mem _ _ _).imp id fun hmem => ?_
    obtain ⟨c, hc, hb⟩ := List.mem_map.1 hmem
    rw [← hfilter, List.mem_filter, beq_iff_eq] at hc
    obtain ⟨hold, hpa⟩ := hc
    rw [← hb, ← hpa]
    exact hold

theorem fetchBytes_fetchable {pa n k : Nat} {s : State} (hn : n ≤ 8) (hk : k < n) :
    Fetchable s (pa + k) ((fetchBytes pa n s).1.extractLsb' (8 * k) 8) := by
  induction n generalizing pa k s with
  | zero => omega
  | succ n ih =>
    unfold fetchBytes
    cases k with
    | zero =>
      rw [Nat.mul_zero, extractLsb'_lowByte]
      exact fetchByte_fetchable pa s
    | succ k =>
      rw [extractLsb'_upperByte _ _ (by omega), Nat.add_comm k 1, ← Nat.add_assoc]
      exact .of_notes (NotesOnly.of_or (fetchByte_state pa s)) (ih (by omega) (by omega))

/-- A portion reads, byte by byte, the physical address its access answers. -/
theorem fetchPortion_eq_ok {va v : Word} {n : Nat} {s s1 : State} (hn : n ≤ 8)
    (h : fetchPortion va n s = .ok v s1) :
    ∃ pa s0, access .fetch va n s = .ok pa s0 ∧ NotesOnly s0 s1 ∧
      ∀ k < n, Fetchable s0 (pa + k) (v.extractLsb' (8 * k) 8) := by
  obtain ⟨pa, s0, ha, hv⟩ := Access.andThen_eq_ok h
  cases hv
  exact ⟨pa, s0, ha, fetchBytes_state pa n s0, fun k hk => fetchBytes_fetchable hn hk⟩

/-- Only its access raises. -/
theorem fetchPortion_eq_raise {va tv : Word} {n : Nat} {e : Exc} {s s1 : State}
    (h : fetchPortion va n s = .raise e tv s1) : access .fetch va n s = .raise e tv s1 := by
  rcases Access.andThen_eq_raise h with ha | ⟨_, _, _, hv⟩
  · exact ha
  · cases hv

/-! ## The word of one portion or of two -/

/-- The bytes of a word that is the low half of a portion's value. -/
theorem extractLsb'_setWidth_byte (v : Word) {k : Nat} (hk : k < 4) :
    (v.setWidth 32).extractLsb' (8 * k) 8 = v.extractLsb' (8 * k) 8 := by
  ext i hi
  simp [show 8 * k + i < 32 by omega]

theorem extractLsb'_append_lowByte (hi lo : Word) {k : Nat} (hk : k < 2) :
    (hi.setWidth 16 ++ lo.setWidth 16 : BitVec 32).extractLsb' (8 * k) 8 = lo.extractLsb' (8 * k) 8 := by
  ext i h
  rw [BitVec.getElem_extractLsb', BitVec.getElem_extractLsb']
  exact BitVec.getLsbD_append.trans (by simp [show 8 * k + i < 16 by omega])

theorem extractLsb'_append_upperByte (hi lo : Word) {k : Nat} (hk : k < 2) :
    (hi.setWidth 16 ++ lo.setWidth 16 : BitVec 32).extractLsb' (8 * (2 + k)) 8 = hi.extractLsb' (8 * k) 8 := by
  ext i h
  rw [BitVec.getElem_extractLsb', BitVec.getElem_extractLsb']
  exact BitVec.getLsbD_append.trans (by
    simp [show ¬8 * (2 + k) + i < 16 by omega, show 8 * (2 + k) + i - 16 = 8 * k + i by omega,
      show 8 * k + i < 16 by omega])

theorem fetch_aligned {s : State} (h : s.pc.toNat % 4 = 0) :
    fetch s = (fetchPortion s.pc 4 s).andThen fun w s1 => .ok (w.setWidth 32) s1 :=
  if_pos h

/-- The two portions of a fetch in the middle of a word. -/
def fetchHalves (s : State) : Access (BitVec 32) :=
  (fetchPortion s.pc 2 s).andThen fun lo s1 =>
    (fetchPortion (truncX s1.cfg.sxlen (s1.pc + 2)) 2 s1).andThen fun hi s2 =>
      .ok (hi.setWidth 16 ++ lo.setWidth 16) s2

theorem fetch_halves {s : State} (h : s.pc.toNat % 4 ≠ 0) : fetch s = mayUndo s (fetchHalves s) :=
  if_neg h

/-- A portion keeps the pc and the parameters. -/
theorem fetchPortion_keeps {va v : Word} {n : Nat} {s s1 : State} (h : fetchPortion va n s = .ok v s1) :
    s1.pc = s.pc ∧ s1.cfg = s.cfg := by
  have hm := fetchPortion_meets va n s
  rw [h] at hm
  exact ⟨by rw [hm.1], by rw [hm.1]⟩

/-- What a fetch answers is made of the bytes of its portions (60_exceptions.md R306). -/
theorem fetch_fetchedWord {s s1 : State} {w : BitVec 32} (h : fetch s = .ok w s1) : FetchedWord s w s1 := by
  refine ⟨fun hpc => ?_, fun hpc => ?_⟩
  · rw [fetch_aligned hpc] at h
    obtain ⟨v, s2, hv, hw⟩ := Access.andThen_eq_ok h
    cases hw
    obtain ⟨pa, s0, ha, hnotes, hbytes⟩ := fetchPortion_eq_ok (by decide) hv
    refine ⟨pa, s0, ha, fun k hk => ?_, hnotes⟩
    rw [Nat.zero_add, extractLsb'_setWidth_byte v hk]
    exact hbytes k hk
  · rw [fetch_halves hpc] at h
    obtain ⟨lo, s2, hlo, hrest⟩ := Access.andThen_eq_ok (mayUndo_eq_ok h)
    obtain ⟨hi, s4, hhi, hw⟩ := Access.andThen_eq_ok hrest
    cases hw
    obtain ⟨hpc2, hcfg2⟩ := fetchPortion_keeps hlo
    rw [hpc2, hcfg2] at hhi
    obtain ⟨pa, sa, ha, hnotes, hbytes⟩ := fetchPortion_eq_ok (by decide) hlo
    obtain ⟨pa', sb, hb, hnotes', hbytes'⟩ := fetchPortion_eq_ok (by decide) hhi
    refine ⟨pa, sa, s2, pa', sb, ha, fun k hk => ?_, hnotes, hb, fun k hk => ?_, hnotes'⟩
    · rw [Nat.zero_add, extractLsb'_append_lowByte hi lo hk]
      exact hbytes k hk
    · rw [extractLsb'_append_upperByte hi lo hk]
      exact hbytes' k hk

theorem executeNext_of_fetch {s s1 : State} {w : BitVec 32} {i : Instr} (hal : alignedPc s.cfg s.pc = true)
    (hf : fetch s = .ok w s1) (hd : decodeWord w = .ok i) : executeNext s = exec i s1 := by
  simp only [executeNext, hal, if_true, hf, executeWord, hd]

/-- Settles O7: `fetch_fetchedWord`, and the turn executes the word. -/
theorem stepRunsFetchedInstruction : Obligations.StepRunsFetchedInstruction := by
  unfold Obligations.StepRunsFetchedInstruction
  intro s s1 w hal
  refine ⟨fetch_fetchedWord, fun i rest hd => ⟨fun hturns hnone hf => ?_, fun hturns hf => ?_⟩⟩
  · rw [step_of_noTurns hturns, hartTurn_of_none hnone]
    exact executeNext_of_fetch hal hf hd
  · rw [step_of_hartExecutes hturns]
    exact executeNext_of_fetch (s := { s with turns := rest }) hal hf hd

/-! ## Faulting fetches -/

/-- A fetch faults at the portion whose access raises (60_exceptions.md R292, R306). -/
theorem fetch_faultsAt {s s1 : State} {e : Exc} {tv : Word} (h : fetch s = .raise e tv s1) : FetchFaultsAt s e tv := by
  have htval {va : Word} {n : Nat} {s0 s2 : State} (ha : access .fetch va n s0 = .raise e tv s2) : tv = va := by
    have hm := access_meets .fetch va n s0
    rw [ha] at hm
    exact hm.2.1
  by_cases hpc : s.pc.toNat % 4 = 0
  · rw [fetch_aligned hpc] at h
    rcases Access.andThen_eq_raise h with hp | ⟨_, _, _, hv⟩
    · have ha := fetchPortion_eq_raise hp
      exact .inl ⟨htval ha, s1, by rwa [firstPortion, if_pos hpc]⟩
    · cases hv
  · rw [fetch_halves hpc] at h
    obtain ⟨s0, hh, -⟩ := mayUndo_eq_raise h
    rcases Access.andThen_eq_raise hh with hp | ⟨lo, s2, hlo, hrest⟩
    · have ha := fetchPortion_eq_raise hp
      exact .inl ⟨htval ha, s0, by rwa [firstPortion, if_neg hpc]⟩
    · rcases Access.andThen_eq_raise hrest with hp | ⟨_, _, _, hv⟩
      · obtain ⟨hpc2, hcfg2⟩ := fetchPortion_keeps hlo
        have ha := fetchPortion_eq_raise hp
        have htv := htval ha
        obtain ⟨pa, sa, haccess, hnotes, -⟩ := fetchPortion_eq_ok (by decide) hlo
        exact .inr ⟨hpc, by rw [htv, hpc2, hcfg2], pa, sa, s2, s0, haccess, hnotes, htv ▸ ha⟩
      · cases hv

theorem executeNext_of_fault {s s1 : State} {e : Exc} {tv : Word} (hal : alignedPc s.cfg s.pc = true)
    (hf : fetch s = .raise e tv s1) : executeNext s = .next (trapToS (.exception e) tv s1.pc s1) := by
  simp only [executeNext, hal, if_true, hf]

/-- With translation off a fetch the platform does not grant raises the access fault of fetches. -/
theorem fetch_bare_denied {s : State} (hb : s.satp.mode = .bare) (hpc : s.pc.toNat % 4 = 0)
    (hc : physCheck s.cfg s.pc.toNat 4 .fetch s.priv = false) :
    fetch s = .raise .instrAccessFault s.pc s := by
  rw [fetch_aligned hpc, fetchPortion, access_bare hb, if_neg (by simp [hc])]
  rfl

/-- Settles O8: the turn executes, and the fetch raises at one of its portions. -/
theorem faultingFetchesTrap : Obligations.FaultingFetchesTrap := by
  unfold Obligations.FaultingFetchesTrap
  refine ⟨fun s s0 s1 e tv hal hturn hf => ?_, fun s hturns hnone hb hpc hc => ?_⟩
  · have hstep : step s = executeNext s0 ∧ s0.pc = s.pc ∧ s0.cfg = s.cfg := by
      rcases hturn with ⟨hturns, hnone, rfl⟩ | ⟨rest, hturns, rfl⟩
      · exact ⟨(step_of_noTurns hturns).trans (hartTurn_of_none hnone), rfl, rfl⟩
      · exact ⟨step_of_hartExecutes hturns, rfl, rfl⟩
    obtain ⟨hnext, hpc, hcfg⟩ := hstep
    have hmeets := fetch_meets s0
    have hmemory := fetch_memory s0
    rw [hf] at hmeets hmemory
    obtain ⟨he, hchange⟩ := hmeets
    have hpc1 : s1.pc = s.pc := by rw [hchange.1, ← hpc]
    refine ⟨he, fetch_faultsAt hf, hchange.1, hmemory, trapToS (.exception e) tv s1.pc s1, ?_, ?_⟩
    · rw [hnext]
      exact executeNext_of_fault (by rwa [hpc, hcfg]) hf
    · rw [hpc1]
      exact trapEntryState ..
  · refine ⟨_, ?_, trapEntryState (.exception .instrAccessFault) s.pc s.pc s⟩
    rw [step_of_noTurns hturns, hartTurn_of_none hnone]
    exact executeNext_of_fault (alignedPc_of_mod_four hpc) (fetch_bare_denied hb hpc hc)

/-! ## Translation off, fresh bytes -/

theorem Fetchable.of_fresh {s : State} {pa : Nat} {b : Byte} (h : Fetchable s pa b)
    (hfresh : ∀ c ∈ s.oldBytes, c.1 ≠ pa) : b = s.mem.read pa :=
  h.resolve_right fun hold => hfresh _ hold rfl

theorem fetchBytes_of_fresh {pa n : Nat} {s : State} (h : ∀ c ∈ s.oldBytes, c.1 < pa ∨ pa + n ≤ c.1) :
    (fetchBytes pa n s).2 = s := by
  induction n generalizing pa with
  | zero => rfl
  | succ n ih =>
    have hbyte : fetchByte pa s = (s.mem.read pa, s) :=
      fetchByte_of_fresh fun c hc => by have := h c hc; omega
    unfold fetchBytes
    rw [hbyte]
    exact ih fun c hc => by have := h c hc; omega

/-- A portion of fresh bytes, translation off, is those of memory, and changes nothing. -/
theorem fetchPortion_of_fresh {va : Word} {n : Nat} {s : State} (hn : n ≤ 8) (hb : s.satp.mode = .bare)
    (hc : physCheck s.cfg va.toNat n .fetch s.priv = true)
    (hfresh : ∀ c ∈ s.oldBytes, c.1 < va.toNat ∨ va.toNat + n ≤ c.1) :
    ∃ v, fetchPortion va n s = .ok v s ∧ ∀ k < n, v.extractLsb' (8 * k) 8 = s.mem.read (va.toNat + k) := by
  refine ⟨(fetchBytes va.toNat n s).1, ?_, fun k hk => (fetchBytes_fetchable hn hk).of_fresh fun c hc => ?_⟩
  · rw [fetchPortion, access_bare hb, if_pos hc, Access.andThen, fetchBytes_of_fresh hfresh]
  · have := hfresh c hc
    omega

/-- The word whose bytes are known is the word of these bytes. -/
theorem eq_wordOfBytes {w : BitVec 32} {b0 b1 b2 b3 : Byte} (h0 : w.extractLsb' 0 8 = b0) (h1 : w.extractLsb' 8 8 = b1)
    (h2 : w.extractLsb' 16 8 = b2) (h3 : w.extractLsb' 24 8 = b3) : w = wordOfBytes b0 b1 b2 b3 := by
  rw [← h0, ← h1, ← h2, ← h3, wordOfBytes_bytes]

theorem decodeWord_of_decode {b0 b1 b2 b3 : Byte} {i : Instr} (h : decode [b0, b1, b2, b3] = .ok (i, [])) :
    decodeWord (wordOfBytes b0 b1 b2 b3) = .ok i := by
  change (decodeWord (wordOfBytes b0 b1 b2 b3)).map (fun j => (j, ([] : List Byte))) = .ok (i, []) at h
  cases hd : decodeWord (wordOfBytes b0 b1 b2 b3) with
  | ok j => rw [hd] at h; cases h; rfl
  | error d => rw [hd] at h; cases h

/-- Settles O6: the portions are the bytes of memory, and the turn executes their word. -/
theorem stepRunsDecodedInstruction : Obligations.StepRunsDecodedInstruction := by
  unfold Obligations.StepRunsDecodedInstruction
  rintro s i lo hi hturns hnone hb rfl rfl
  rw [step_of_noTurns hturns, hartTurn_of_none hnone]
  refine ⟨fun hpc hc hfresh hd => ?_, fun h16 hpc hc hc' hfresh hd => ?_⟩
  · obtain ⟨v, hv, hbytes⟩ := fetchPortion_of_fresh (by decide) hb hc hfresh
    refine executeNext_of_fetch (alignedPc_of_mod_four hpc) (w := v.setWidth 32) ?_ ?_
    · rw [fetch_aligned hpc, hv]
      rfl
    · have hbyte (k : Nat) (hk : k < 4) := (extractLsb'_setWidth_byte v hk).trans (hbytes k hk)
      rw [eq_wordOfBytes (hbyte 0 (by decide)) (hbyte 1 (by decide)) (hbyte 2 (by decide)) (hbyte 3 (by decide))]
      exact decodeWord_of_decode hd
  · have hpc4 : s.pc.toNat % 4 ≠ 0 := by omega
    have hal : alignedPc s.cfg s.pc = true := by
      rw [alignedPc, if_pos h16]
      exact decide_eq_true (by omega)
    obtain ⟨lo, hlo, hlobytes⟩ := fetchPortion_of_fresh (by decide) hb hc fun c h => (hfresh c h).1
    obtain ⟨hi, hhi, hhibytes⟩ := fetchPortion_of_fresh (by decide) hb hc' fun c h => (hfresh c h).2
    refine executeNext_of_fetch hal (w := hi.setWidth 16 ++ lo.setWidth 16) ?_ ?_
    · rw [fetch_halves hpc4, fetchHalves, hlo, Access.andThen, hhi]
      rfl
    · have hlow (k : Nat) (hk : k < 2) := (extractLsb'_append_lowByte hi lo hk).trans (hlobytes k hk)
      have hupper (k : Nat) (hk : k < 2) := (extractLsb'_append_upperByte hi lo hk).trans (hhibytes k hk)
      rw [eq_wordOfBytes (hlow 0 (by decide)) (hlow 1 (by decide)) (hupper 0 (by decide)) (hupper 1 (by decide))]
      exact decodeWord_of_decode hd

end Sys2Proof.Machine
end

section
/-! SUPPORT. The statement about the steps of other agents, proved. -/

namespace Sys2Proof.Machine

/-! ## What another agent leaves alone -/

/-- A store of another hart, where there is one and its bytes exist, and nothing else. -/
theorem agentStep_otherStore (pa : Nat) (bytes : List Byte) (s : State) :
    (1 < s.cfg.nharts ∧ pa + bytes.length ≤ 2 ^ s.cfg.paLen ∧
        agentStep (.otherStore pa bytes) s = storeBytes pa bytes s) ∨
      (¬(1 < s.cfg.nharts ∧ pa + bytes.length ≤ 2 ^ s.cfg.paLen) ∧ agentStep (.otherStore pa bytes) s = s) := by
  by_cases h : 1 < s.cfg.nharts ∧ pa + bytes.length ≤ 2 ^ s.cfg.paLen
  · exact .inl ⟨h.1, h.2, if_pos h⟩
  · exact .inr ⟨h, if_neg h⟩

theorem agentStep_otherStore_frame (pa : Nat) (bytes : List Byte) (s : State) :
    agentStep (.otherStore pa bytes) s =
      { s with
        mem := (agentStep (.otherStore pa bytes) s).mem
        oldBytes := (agentStep (.otherStore pa bytes) s).oldBytes } := by
  rcases agentStep_otherStore pa bytes s with ⟨-, -, h⟩ | ⟨-, h⟩ <;> rw [h]
  rw [storeBytes_state]

theorem agentStep_fill_frame (va : Word) (s : State) :
    agentStep (.fill va) s =
      { s with
        tc := (agentStep (.fill va) s).tc, draws := (agentStep (.fill va) s).draws
        reservedPte := (agentStep (.fill va) s).reservedPte } :=
  (fill_filledTo va s).1.frame

theorem agentStep_frame (a : AgentStep) (s : State) :
    agentStep a s =
      { s with
        sip := (agentStep a s).sip, counters := (agentStep a s).counters, mem := (agentStep a s).mem
        oldBytes := (agentStep a s).oldBytes, tc := (agentStep a s).tc, draws := (agentStep a s).draws
        reservedPte := (agentStep a s).reservedPte } := by
  cases a with
  | otherStore pa bytes => rw [agentStep_otherStore_frame]
  | fill va => rw [agentStep_fill_frame]
  | _ => rfl

/-- The pending bits after a step of another agent (60_exceptions.md R335). -/
def sipAfterAgent (a : AgentStep) (s : State) : Sip :=
  match a with
  | .setStip b => { s.sip with stip := stipAfter b s }
  | .setSeip b => { s.sip with seip := b }
  | .setUtip b => { s.sip with utip := s.cfg.hasN && b }
  | .raiseSsip => { s.sip with ssip := true }
  | .setUeipSig b => { s.sip with ueipSig := b }
  | .timeReaches _ | .otherStore _ _ | .fill _ | .evict _ => s.sip

theorem agentStep_sip (a : AgentStep) (s : State) : (agentStep a s).sip = sipAfterAgent a s := by
  cases a with
  | otherStore pa bytes => exact (congrArg State.sip (agentStep_otherStore_frame pa bytes s)).trans rfl
  | fill va => exact (congrArg State.sip (agentStep_fill_frame va s)).trans rfl
  | _ => rfl

theorem agentStep_counters {a : AgentStep} (h : ∀ v, a ≠ .timeReaches v) (s : State) :
    (agentStep a s).counters = s.counters := by
  cases a with
  | timeReaches v => exact absurd rfl (h v)
  | otherStore pa bytes => rw [agentStep_otherStore_frame]
  | fill va => rw [agentStep_fill_frame]
  | _ => rfl

theorem agentStep_mem {a : AgentStep} (h : ∀ pa bytes, a ≠ .otherStore pa bytes) (s : State) :
    (agentStep a s).mem = s.mem := by
  cases a with
  | otherStore pa bytes => exact absurd rfl (h pa bytes)
  | fill va => rw [agentStep_fill_frame]
  | _ => rfl

theorem agentStep_tc {a : AgentStep} (hf : ∀ va, a ≠ .fill va) (he : ∀ k, a ≠ .evict k) (s : State) :
    (agentStep a s).tc = s.tc := by
  cases a with
  | fill va => exact absurd rfl (hf va)
  | evict k => exact absurd rfl (he k)
  | otherStore pa bytes => rw [agentStep_otherStore_frame]
  | _ => rfl

/-! ## What its own step does -/

theorem timerDue_iff (s : State) :
    timerDue s = true ↔ ∀ T, s.timer = some T → T.toNat ≤ s.counters[1].toNat := by
  unfold timerDue
  cases s.timer <;> simp

/-- STIP is set by the SEE's step alone, and not before the time scheduled (60_exceptions.md R331). -/
theorem agentStep_stipOnTime (a : AgentStep) (s : State) : StipOnTime s (agentStep a s) := by
  intro h0 h1
  rw [agentStep_sip] at h1
  have hset : ∃ b, a = .setStip b := by
    cases a with
    | setStip b => exact ⟨b, rfl⟩
    | _ => exact absurd (h0.symm.trans h1) (by decide)
  obtain ⟨b, rfl⟩ := hset
  simp only [sipAfterAgent, stipAfter, h0, Bool.false_or, Bool.and_eq_true] at h1
  exact (timerDue_iff s).1 h1.2

/-- `time` goes to the value reached, but never back (60_exceptions.md R335). -/
theorem agentStep_time (v : Word) (s : State) :
    (agentStep (.timeReaches v) s).counters[1] = if s.counters[1].toNat ≤ v.toNat then v else s.counters[1] :=
  Vector.getElem_set_self ..

theorem agentStep_otherCounters (a : AgentStep) (s : State) {n : Fin 32} (hn : n ≠ 1) :
    (agentStep a s).counters[n] = s.counters[n] := by
  by_cases h : ∃ v, a = .timeReaches v
  · obtain ⟨v, rfl⟩ := h
    exact Vector.getElem_set_ne (by decide) n.isLt fun e => hn (Fin.ext e.symm)
  · rw [agentStep_counters fun v hv => h ⟨v, hv⟩]

theorem agentStep_time_le (a : AgentStep) (s : State) :
    s.counters[1].toNat ≤ (agentStep a s).counters[1].toNat := by
  by_cases h : ∃ v, a = .timeReaches v
  · obtain ⟨v, rfl⟩ := h
    rw [agentStep_time]
    split
    · assumption
    · exact le_rfl
  · rw [agentStep_counters fun v hv => h ⟨v, hv⟩]

/-- Another hart's store reaches the bytes it stores, on a system of several harts (60_exceptions.md R333). -/
theorem agentStep_otherStore_mem (pa : Nat) (bytes : List Byte) (s : State) :
    KeepsMemoryOutside pa bytes.length s (agentStep (.otherStore pa bytes) s) ∧
      (s.cfg.nharts ≤ 1 → KeepsMemory s (agentStep (.otherStore pa bytes) s)) ∧
      (s.mem.wf = true → 1 < s.cfg.nharts → pa + bytes.length ≤ 2 ^ s.cfg.paLen →
        ∀ k b, bytes[k]? = some b → (agentStep (.otherStore pa bytes) s).mem.read (pa + k) = b) := by
  rcases agentStep_otherStore pa bytes s with ⟨hn, hpa, h⟩ | ⟨hno, h⟩ <;> rw [h]
  · exact ⟨fun a ha => storeBytes_read_outside pa bytes s ha, fun h1 => absurd hn (Nat.not_lt.2 h1),
      fun hw _ _ k b hb => storeBytes_read_inside hw hb⟩
  · exact ⟨fun _ _ => rfl, fun _ _ => rfl, fun _ hn hpa => absurd ⟨hn, hpa⟩ hno⟩

/-- Settles O60: `agentStep_frame` for what no agent touches, and a lemma for each thing one of them does. -/
theorem agentsTouchOnlyTheirState : Obligations.AgentsTouchOnlyTheirState := by
  unfold Obligations.AgentsTouchOnlyTheirState
  intro s a rest hturns
  have hframe := agentStep_frame a { s with turns := rest }
  have hsip := agentStep_sip a { s with turns := rest }
  refine ⟨agentStep a { s with turns := rest }, step_of_agent hturns, by rw [hframe], by rw [hframe], by rw [hframe],
    by rw [hframe], getX_congr (by rw [hframe]), ?_, ?_, ?_, ?_, ?_, ?_, ?_,
    agentStep_stipOnTime a { s with turns := rest }, by rw [hframe], by rw [hframe], ?_, ?_, ?_, ?_, ?_, ?_, ?_,
    fun n hn => agentStep_otherCounters a { s with turns := rest } hn,
    agentStep_time_le a { s with turns := rest }, ?_, ?_, ?_, fun h x => by rw [agentStep_mem h], ?_, ?_, fun hf he => agentStep_tc hf he _⟩
  · rw [hframe]
    simp [KeepsCsrsBut]
  · rw [hsip]; cases a <;> rfl
  · rw [hsip]; cases a <;> rfl
  · rw [hsip]; cases a <;> simp [sipAfterAgent]
  · rintro rfl
    rw [hsip]; rfl
  · rintro rfl hdue
    rw [hsip]
    simp [sipAfterAgent, stipAfter, (timerDue_iff { s with turns := rest }).2 hdue]
  · rintro rfl hset
    rw [hsip]
    simp [sipAfterAgent, stipAfter, hset]
  · intro h
    rw [hsip]
    cases a with
    | setStip b => exact absurd rfl (h b)
    | _ => rfl
  · rintro b rfl
    rw [hsip]; rfl
  · intro h
    rw [hsip]
    cases a with
    | setSeip b => exact absurd rfl (h b)
    | _ => rfl
  · rintro b rfl
    rw [hsip]; rfl
  · intro h
    rw [hsip]
    cases a with
    | setUtip b => exact absurd rfl (h b)
    | _ => rfl
  · rintro b rfl
    rw [hsip]; rfl
  · intro h
    rw [hsip]
    cases a with
    | setUeipSig b => exact absurd rfl (h b)
    | _ => rfl
  · rintro v rfl hle
    exact (agentStep_time v { s with turns := rest }).trans (if_pos hle)
  · intro h
    rw [agentStep_counters h]
  · rintro pa bytes rfl
    exact agentStep_otherStore_mem pa bytes { s with turns := rest }
  · rintro va rfl
    rfl
  · rintro k rfl
    rfl

end Sys2Proof.Machine
end

section
/-! SUPPORT. The statements that every step keeps a state legal and that no run from one faults, proved. -/

namespace Sys2Proof.Machine

/-! ## Keeping a state legal -/

/-- The parameters are as before, and each part of a legal state (Safety.lean) is legal if it was. -/
structure KeepsLegal (s t : State) : Prop where
  cfg : t.cfg = s.cfg
  registers : RegistersLegal s → RegistersLegal t
  pc : PcLegal s → PcLegal t
  csrs : CsrsLegal s → CsrsLegal t
  memory : s.mem.wf = true → t.mem.wf = true
  cache : CacheLegal s → CacheLegal t

theorem KeepsLegal.inv {s t : State} (h : KeepsLegal s t) (hs : s.Inv) : t.Inv where
  cfg := h.cfg ▸ hs.cfg
  registers := h.registers hs.registers
  pc := h.pc hs.pc
  csrs := h.csrs hs.csrs
  memory := h.memory hs.memory
  cache := h.cache hs.cache

theorem KeepsLegal.refl (s : State) : KeepsLegal s s := ⟨rfl, id, id, id, id, id⟩

theorem KeepsLegal.trans {s t u : State} (h : KeepsLegal s t) (h' : KeepsLegal t u) : KeepsLegal s u where
  cfg := h'.cfg.trans h.cfg
  registers hr := h'.registers (h.registers hr)
  pc hp := h'.pc (h.pc hp)
  csrs hc := h'.csrs (h.csrs hc)
  memory hm := h'.memory (h.memory hm)
  cache hc := h'.cache (h.cache hc)

/-- What is no part of a legal state may change. -/
theorem KeepsLegal.of_frame {s t : State}
    (h : t =
      { s with
        priv := t.priv, counters := t.counters, timer := t.timer, oldBytes := t.oldBytes, reservedPte := t.reservedPte
        lastCall := t.lastCall, turns := t.turns, draws := t.draws }) : KeepsLegal s t := by
  rw [h]
  exact ⟨rfl, id, id, id, id, id⟩

theorem CsrsLegal.congr {s t : State} (h : CsrsLegal s) (k : KeepsCsrs s t) (hc : t.cfg = s.cfg) : CsrsLegal t := by
  obtain ⟨k1, k2, k3, k4, k5, k6, k7, k8, k9, k10⟩ := k
  unfold CsrsLegal UserBitsLegal TvecLegal SatpLegal at h ⊢
  rw [k1, k2, k3, k4, k5, k6, k7, k8, k9, k10, hc]
  exact h

/-! ## Registers, CSRs, retiring, traps and returns -/

theorem setX_keepsLegal (r : Reg) (v : Word) (s : State) : KeepsLegal s (setX r v s) where
  cfg := setX_cfg r v s
  registers h := setX_legal r v h
  pc h := by unfold PcLegal; rw [setX_pc, setX_cfg]; exact h
  csrs h := h.congr (by simp [KeepsCsrs]) (setX_cfg r v s)
  memory h := by rw [setX_mem]; exact h
  cache h := by unfold CacheLegal; rw [setX_tc]; exact h

theorem csrWrite_keepsLegal (c : Csr) (v : Word) (s : State) : KeepsLegal s (csrWrite c v s) where
  cfg := csrWrite_cfg c v s
  registers h := h.congr (csrWrite_x c v s) (csrWrite_cfg c v s)
  pc h := by unfold PcLegal; rw [csrWrite_pc, csrWrite_cfg]; exact h
  csrs h := csrWrite_legal c v h
  memory h := by rw [csrWrite_mem]; exact h
  cache h := by unfold CacheLegal; rw [csrWrite_tc]; exact h

theorem csrRead_keepsLegal (c : Csr) (s : State) : KeepsLegal s (csrRead c s).2 := by
  rw [csrRead_state]
  exact .of_frame rfl

theorem retire_keepsLegal (s : State) : KeepsLegal s (retire s) where
  cfg := rfl
  registers := id
  pc h := ⟨fitsX_truncX _ _, nextPc_aligned h.2⟩
  csrs := id
  memory := id
  cache := id

theorem csrAccess_keepsLegal (c : Csr) (rd : Reg) (wr : Bool) (op : Word → Word) (s : State) :
    KeepsLegal s (csrAccess c rd wr op s) := by
  rw [csrAccess_eq]
  have hread := (csrRead_keepsLegal c s).trans (setX_keepsLegal rd (csrRead c s).1 _)
  refine .trans ?_ (retire_keepsLegal _)
  split
  · exact hread.trans (csrWrite_keepsLegal ..)
  · exact hread

/-- A trap leaves a legal state: the vector is aligned, and the CSRs it writes take legal values
(60_exceptions.md R300). -/
theorem trapToS_keepsLegal (cause : Cause) (tval epc : Word) (s : State) : KeepsLegal s (trapToS cause tval epc s) where
  cfg := rfl
  registers := id
  pc _ := ⟨trapPc_fits .., trapPc_aligned ..⟩
  csrs := fun ⟨hu, ht, hp, hc, hscratch, _, _, _⟩ =>
    ⟨hu, ht, hp, hc, hscratch, legalSepc_idem .., causeWord_fits .., fitsX_truncX ..⟩
  memory := id
  cache := id

theorem returnFromS_keepsLegal (s : State) : KeepsLegal s (returnFromS s) where
  cfg := rfl
  registers := id
  pc _ := by
    unfold PcLegal
    rw [returnFromS_pc_eq]
    exact ⟨legalSepc_fits .., legalSepc_aligned ..⟩
  csrs := id
  memory := id
  cache := id

theorem fenceTc_keepsLegal (va : Option Word) (asid : Option (BitVec 16)) (s : State) :
    KeepsLegal s (fenceTc va asid s) :=
  ⟨rfl, id, id, id, id, fenceTc_legal va asid⟩

/-! ## The SBI call -/

theorem sbiRegisters_keepsLegal (d : Nat) (args : List Word) (rs : List Reg) (s : State) :
    KeepsLegal s (sbiRegisters d args rs s) := by
  induction rs generalizing s with
  | nil => exact .refl s
  | cons r rs ih => exact (setX_keepsLegal r _ s).trans (ih _)

theorem sbiCsrs_keepsLegal (d : Nat) (args : List Word) (cs : List Csr) (s : State) :
    KeepsLegal s (sbiCsrs d args cs s) := by
  induction cs generalizing s with
  | nil => exact .refl s
  | cons c cs ih => exact (csrWrite_keepsLegal c _ s).trans (ih _)

theorem sbiMemory_keepsLegal (d : Nat) (args : List Word) (l : List (Nat × Nat)) (s : State) :
    KeepsLegal s (sbiMemory d args l s) := by
  obtain ⟨hstate, -, hwf⟩ := sbiMemory_spec d args l s
  rw [hstate]
  exact ⟨rfl, id, id, id, hwf, id⟩

/-- Without the N extension a call leaves the user-level pending bits. -/
theorem sbiPendingBits_keepsLegal (d : Nat) (args : List Word) (s : State) :
    KeepsLegal s (sbiPendingBits d args s) where
  cfg := rfl
  registers := id
  pc := id
  csrs := fun ⟨hu, hrest⟩ => by
    refine ⟨fun hN => ?_, hrest⟩
    have hN' : s.cfg.hasN = false := hN
    have hutip : (sbiPendingBits d args s).sip.utip = s.sip.utip := by simp [sbiPendingBits, hN']
    rw [hutip]
    exact hu hN'
  memory := id
  cache := id

theorem sbiServe_keepsLegal (d : Nat) (args : List Word) (s : State) : KeepsLegal s (sbiServe d args s) := by
  have hregisters := sbiRegisters_keepsLegal d args s.cfg.sbi.results s
  have hmemory := hregisters.trans (sbiMemory_keepsLegal d args s.cfg.sbi.memory _)
  have hcounters := hmemory.trans (.of_frame (t := sbiCounters d args _) rfl)
  have htimer := hcounters.trans (.of_frame (t := sbiTimer d args _) rfl)
  exact (htimer.trans (sbiPendingBits_keepsLegal d args _)).trans (sbiCsrs_keepsLegal d args _ _)

theorem sbiCall_keepsLegal (s : State) : KeepsLegal s (sbiCall s) := by
  have hserved := sbiServe_keepsLegal s.draws (s.cfg.sbi.args.map fun r => getX r s) s
  have hnoted := hserved.trans (.of_frame (t := noteCall s.x _) rfl)
  exact (hnoted.trans (retire_keepsLegal _)).trans (.of_frame rfl)

/-! ## Instructions, agents and steps -/

theorem InstrEffect.keepsLegal {i : Instr} {s t : State} (h : InstrEffect i s t) : KeepsLegal s t := by
  cases h with
  | traps e tval => exact trapToS_keepsLegal ..
  | csr num c rd wr op _ => exact csrAccess_keepsLegal ..
  | returns _ _ => exact returnFromS_keepsLegal s
  | fences va asid _ => exact (fenceTc_keepsLegal va asid s).trans (retire_keepsLegal _)
  | calls _ _ => exact sbiCall_keepsLegal s
  | retires => exact retire_keepsLegal s

theorem FetchChange.keepsLegal {s t : State} (h : FetchChange s t) : KeepsLegal s t := by
  obtain ⟨hstate, hwf⟩ := h
  rw [hstate]
  exact ⟨rfl, id, id, id, hwf, id⟩

theorem ExecuteEffect.keepsLegal {s t : State} (h : ExecuteEffect s t) : KeepsLegal s t := by
  cases h with
  | fetchTraps e tval s1 hf _ => exact hf.keepsLegal.trans (trapToS_keepsLegal ..)
  | illegal w s1 hf _ => exact hf.keepsLegal.trans (trapToS_keepsLegal ..)
  | executes i s1 _ hf _ he => exact hf.keepsLegal.trans he.keepsLegal

/-- A fill caches valid PTEs only (21_address_translation.md R163). -/
theorem fill_keepsLegal (va : Word) (s : State) : KeepsLegal s (fill va s) := by
  have hfill := (fill_filledTo va s).1
  have hcache : CacheLegal s → CacheLegal (fill va s) := fun h e he =>
    (hfill.adds e he).elim (h e) fun hadded => hadded.2.2.2.2.1
  rw [hfill.frame] at hcache ⊢
  exact ⟨rfl, id, id, id, id, hcache⟩

/-- Another agent sets a user-level bit with the N extension only. -/
theorem agentStep_keepsLegal (a : AgentStep) (s : State) : KeepsLegal s (agentStep a s) := by
  cases a with
  | setUtip b =>
    refine ⟨rfl, id, id, fun ⟨hu, hrest⟩ => ⟨fun hN => ?_, hrest⟩, id, id⟩
    have hN' : s.cfg.hasN = false := hN
    have hutip : (agentStep (.setUtip b) s).sip.utip = s.sip.utip := by
      simp [agentStep, hN', (hu hN').2.2.2.2.2.2.1]
    rw [hutip]
    exact hu hN'
  | otherStore pa bytes =>
    rcases agentStep_otherStore pa bytes s with ⟨-, -, h⟩ | ⟨-, h⟩ <;> rw [h]
    · rw [storeBytes_state]
      exact ⟨rfl, id, id, id, storeBytes_wf pa bytes s, id⟩
    · exact .refl s
  | fill va => exact fill_keepsLegal va s
  | evict k => exact ⟨rfl, id, id, id, id, evict_legal k⟩
  | timeReaches v => exact .of_frame rfl
  | setStip b | setSeip b | raiseSsip | setUeipSig b => exact ⟨rfl, id, id, id, id, id⟩

theorem step_keepsLegal {s t : State} (h : step s = .next t) : KeepsLegal s t := by
  have hturn (rest : List Turn) (d : Nat) : KeepsLegal s { s with turns := rest, draws := d } := .of_frame rfl
  cases step_effect h with
  | interrupted i rest d _ => exact (hturn rest d).trans (trapToS_keepsLegal ..)
  | executed rest d _ he => exact (hturn rest d).trans he.keepsLegal
  | agent a rest => exact (hturn rest s.draws).trans (agentStep_keepsLegal a _)

/-- Settles O54: every step keeps memory canonical, with every other part of a legal state (`step_keepsLegal`). -/
theorem stepKeepsMemoryCanonical : Obligations.StepKeepsMemoryCanonical := by
  unfold Obligations.StepKeepsMemoryCanonical
  exact fun s t hw h => (step_keepsLegal h).memory hw

/-- Settles O55: what a step does (`step_effect`) keeps each part of a legal state. -/
theorem stepKeepsStateLegal : Obligations.StepKeepsStateLegal := by
  unfold Obligations.StepKeepsStateLegal
  exact fun s t hs h => ⟨(step_keepsLegal h).inv hs, (step_keepsLegal h).cfg⟩

/-! ## Reset -/

/-- Settles O53: the state after reset is one fixed state. -/
theorem resetIsEntryState : Obligations.ResetIsEntryState := by
  unfold Obligations.ResetIsEntryState
  refine ⟨⟨by decide, ⟨by decide, by decide⟩, ⟨by decide, by decide⟩, ?csrs, rfl,
    fun e he => absurd he List.not_mem_nil⟩, rfl, rfl, rfl, rfl⟩
  case csrs =>
    exact ⟨fun _ => by decide, by unfold TvecLegal; decide, by unfold SatpLegal; decide, by decide, by decide,
      by decide, by decide, by decide⟩

/-! ## Faults -/

theorem executeWord_ne_fault (w : BitVec 32) (s : State) (f : Fault) : executeWord w s ≠ .fault f := by
  unfold executeWord
  split
  · exact exec_ne_fault _ _ _
  all_goals exact nofun

/-- The only fault is that of a misaligned pc. -/
theorem executeNext_ne_fault {s : State} (h : alignedPc s.cfg s.pc = true) (f : Fault) : executeNext s ≠ .fault f := by
  unfold executeNext
  rw [if_pos h]
  split
  · exact executeWord_ne_fault _ _ _
  all_goals exact nofun

theorem step_ne_fault {s : State} (h : alignedPc s.cfg s.pc = true) (f : Fault) : step s ≠ .fault f := by
  cases hturns : s.turns with
  | nil =>
    rw [step_of_noTurns hturns]
    cases hi : firstTakeable s with
    | none =>
      rw [hartTurn_of_none hi]
      exact executeNext_ne_fault h f
    | some i =>
      rcases hartTurn_of_some hi with ht | ht <;> rw [ht]
      · exact nofun
      · exact executeNext_ne_fault (s := drawn s) h f
  | cons turn rest =>
    cases turn with
    | hartExecutes =>
      rw [step_of_hartExecutes hturns]
      exact executeNext_ne_fault (s := { s with turns := rest }) h f
    | hartInterrupted =>
      rw [step_of_hartInterrupted hturns]
      cases hi : firstTakeable { s with turns := rest } with
      | none =>
        rw [hartTurnInterrupted_of_none hi]
        exact executeNext_ne_fault (s := { s with turns := rest }) h f
      | some i =>
        rw [hartTurnInterrupted_of_some hi]
        exact nofun
    | agent a =>
      rw [step_of_agent hturns]
      exact nofun

theorem run_zero (s : State) : Host.Core.run Sys2Proof.core 0 s = .next s := rfl

theorem run_of_next {k : Nat} {s t : State} (h : step s = .next t) :
    Host.Core.run Sys2Proof.core (k + 1) s = Host.Core.run Sys2Proof.core k t := by
  have hcore : Sys2Proof.core.step s = .next t := h
  simp only [Host.Core.run, hcore]

theorem run_of_refused {k : Nat} {s : State} {r : Refusal} (h : step s = .refused r) :
    Host.Core.run Sys2Proof.core (k + 1) s = .refused r := by
  have hcore : Sys2Proof.core.step s = .refused r := h
  simp only [Host.Core.run, hcore]

/-- Settles O56, by induction on the number of steps: a legal state has an aligned pc, where no step faults, and a step
leads to a legal state again. -/
theorem legalRunsNeverFault : Obligations.LegalRunsNeverFault := by
  unfold Obligations.LegalRunsNeverFault
  intro k
  induction k with
  | zero =>
    intro s f _ h
    rw [run_zero] at h
    cases h
  | succ k ih =>
    intro s f hs
    cases hstep : step s with
    | next t =>
      rw [run_of_next hstep]
      exact ih t f ((step_keepsLegal hstep).inv hs)
    | fault g => exact absurd hstep (step_ne_fault hs.pc.2 g)
    | refused r =>
      rw [run_of_refused hstep]
      exact nofun

end Sys2Proof.Machine
end

section
/-! SUPPORT. The statements about the two modes and how each is left, proved. -/

namespace Sys2Proof.Machine

/-! ## Instructions in U-mode -/

theorem eq_counterHalf {c : Csr} (h : counterBit c ≠ none) : ∃ high n, c = counterHalf high n := by
  cases c with
  | counter n => exact ⟨false, n, rfl⟩
  | counterHigh n => exact ⟨true, n, rfl⟩
  | _ => exact absurd rfl h

/-- In U-mode the check passes reads of counters only (42_csr_access.md R241, R242). -/
theorem csrCheck_user {num : CsrNum} {wr : Bool} {s : State} {c : Csr} (hp : s.priv = .user)
    (h : csrCheck num wr s = some c) : wr = false ∧ ∃ high n, c = counterHalf high n := by
  obtain ⟨hof, hpriv, hwr, -⟩ := csrCheck_eq_some.1 h
  have hcounter : counterBit c ≠ none := fun hn => by
    rw [((csrOf_number hof).1 hn).1, hp] at hpriv
    exact absurd hpriv (by decide)
  exact ⟨Bool.eq_false_iff.2 fun hw => hwr ⟨hw, ((csrOf_number hof).2 hcounter).2⟩, eq_counterHalf hcounter⟩

/-- Settles O57: what stays in U-mode is FENCE or a CSR instruction that reads a counter. -/
theorem userInstructionsKeepSupervisorState : Obligations.UserInstructionsKeepSupervisorState := by
  unfold Obligations.UserInstructionsKeepSupervisorState
  intro i s t hp hexec ht
  cases exec_effect hexec with
  | traps e tval => cases ht
  | csr num c rd wr op hc =>
    obtain ⟨rfl, high, n, rfl⟩ := csrCheck_user hp hc
    obtain ⟨⟨-, -, hmem, htc, -, -, hsurroundings⟩, hcsrs, -⟩ := csrAccess_counter high n rd op s
    exact ⟨hcsrs, hmem, htc, hsurroundings⟩
  | returns _ hs => rw [hp] at hs; cases hs
  | fences _ _ hs => rw [hp] at hs; cases hs
  | calls _ hs => rw [hp] at hs; cases hs
  | retires => exact ⟨by simp [KeepsCsrs], fun a => by simp, by simp, by simp [KeepsSurroundings]⟩

/-! ## Instructions and the mode -/

theorem csrAccess_priv (c : Csr) (rd : Reg) (wr : Bool) (op : Word → Word) (s : State) :
    (csrAccess c rd wr op s).priv = s.priv := by
  rw [csrAccess_eq, csrRead_state]
  cases wr <;> simp

theorem csrAccess_turns (c : Csr) (rd : Reg) (wr : Bool) (op : Word → Word) (s : State) :
    (csrAccess c rd wr op s).turns = s.turns := by
  rw [csrAccess_eq, csrRead_state]
  cases wr <;> simp

/-- An instruction leaves S-mode only as SRET with SPP clear (60_exceptions.md R323). -/
theorem InstrEffect.of_supervisor_to_user {i : Instr} {s t : State} (h : InstrEffect i s t) (hp : s.priv = .supervisor)
    (ht : t.priv = .user) : i = .sret ∧ s.sstatus.spp = false ∧ t = returnFromS s := by
  have hstays : t.priv ≠ s.priv := by rw [hp, ht]; decide
  cases h with
  | traps e tval => cases ht
  | csr num c rd wr op _ => exact absurd (csrAccess_priv c rd wr op s) hstays
  | returns hi _ =>
    refine ⟨hi, ?_, rfl⟩
    rw [returnFromS_priv] at ht
    cases hspp : s.sstatus.spp with
    | false => rfl
    | true => rw [hspp] at ht; cases ht
  | fences va asid _ => exact absurd (by simp) hstays
  | calls _ _ => exact absurd (by simp [sbiCall]) hstays
  | retires => exact absurd (by simp) hstays

/-- An instruction leaves U-mode only by a trap (60_exceptions.md R323). -/
theorem InstrEffect.of_user_to_supervisor {i : Instr} {s t : State} (h : InstrEffect i s t) (hp : s.priv = .user)
    (ht : t.priv = .supervisor) : ∃ e tval, t = trapToS (.exception e) tval s.pc s := by
  have hstays : t.priv ≠ s.priv := by rw [hp, ht]; decide
  cases h with
  | traps e tval => exact ⟨e, tval, rfl⟩
  | csr num c rd wr op _ => exact absurd (csrAccess_priv c rd wr op s) hstays
  | returns _ hs => rw [hp] at hs; cases hs
  | fences _ _ hs => rw [hp] at hs; cases hs
  | calls _ hs => rw [hp] at hs; cases hs
  | retires => exact absurd (by simp) hstays

/-! ## Turns -/

theorem InstrEffect.turns {i : Instr} {s t : State} (h : InstrEffect i s t) : t.turns = s.turns := by
  cases h with
  | csr num c rd wr op _ => exact csrAccess_turns c rd wr op s
  | calls _ _ => simp [sbiCall]
  | _ => simp

theorem FetchChange.turns {s t : State} (h : FetchChange s t) : t.turns = s.turns := by rw [h.1]

theorem ExecuteEffect.turns {s t : State} (h : ExecuteEffect s t) : t.turns = s.turns := by
  cases h with
  | fetchTraps e tval s1 hf _ => exact hf.turns
  | illegal w s1 hf _ => exact hf.turns
  | executes i s1 _ hf _ he => exact he.turns.trans hf.turns

/-- A step takes the first of the turns listed. -/
theorem step_turns {s t : State} (h : step s = .next t) : t.turns = s.turns.tail := by
  have hexecute {s0 : State} (hnext : executeNext s0 = .next t) : t.turns = s0.turns :=
    (executeNext_effect hnext).turns
  cases hturns : s.turns with
  | nil =>
    rw [step_of_noTurns hturns] at h
    cases hi : firstTakeable s with
    | none =>
      rw [hartTurn_of_none hi] at h
      exact (hexecute h).trans hturns
    | some i =>
      rcases hartTurn_of_some hi with ht | ht <;> rw [ht] at h
      · cases h
        exact hturns
      · exact (hexecute h).trans hturns
  | cons turn rest =>
    cases turn with
    | hartExecutes =>
      rw [step_of_hartExecutes hturns] at h
      exact hexecute h
    | hartInterrupted =>
      rw [step_of_hartInterrupted hturns] at h
      cases hi : firstTakeable { s with turns := rest } with
      | none =>
        rw [hartTurnInterrupted_of_none hi] at h
        exact hexecute h
      | some i =>
        rw [hartTurnInterrupted_of_some hi] at h
        cases h
        rfl
    | agent a =>
      rw [step_of_agent hturns] at h
      cases h
      rw [agentStep_frame]
      rfl

/-! ## Leaving a mode -/

/-- The state is that of a trap, taken where since `s` only a turn, draws, notes and the accesses of a fetch have been
made. -/
def TrappedAfterFetch (s t : State) : Prop :=
  ∃ cause tval s1, t = trapToS cause tval s1.pc s1 ∧
    s1 = { s with
      turns := s1.turns, draws := s1.draws, mem := s1.mem, oldBytes := s1.oldBytes, reservedPte := s1.reservedPte } ∧
    FetchMemory s s1

theorem TrappedAfterFetch.of_fetch {s s0 s1 : State} (h0 : s0 = { s with turns := s0.turns, draws := s0.draws })
    (hf : FetchChange s0 s1) (hm : FetchMemory s0 s1) (cause : Cause) (tval : Word) :
    TrappedAfterFetch s (trapToS cause tval s1.pc s1) := by
  refine ⟨cause, tval, s1, rfl, ?_, hm.congr h0 rfl rfl⟩
  rw [hf.1, h0]

/-- A turn of the hart that leaves U-mode is a trap. -/
theorem ExecuteEffect.of_user_to_supervisor {s s0 t : State} (h : ExecuteEffect s0 t)
    (h0 : s0 = { s with turns := s0.turns, draws := s0.draws }) (hp : s.priv = .user) (ht : t.priv = .supervisor) :
    TrappedAfterFetch s t := by
  cases h with
  | fetchTraps e tval s1 hf hm => exact .of_fetch h0 hf hm ..
  | illegal w s1 hf hm => exact .of_fetch h0 hf hm ..
  | executes i s1 _ hf hm he =>
    have hp1 : s1.priv = .user := by rw [hf.1, h0]; exact hp
    obtain ⟨e, tval, rfl⟩ := he.of_user_to_supervisor hp1 ht
    exact .of_fetch h0 hf hm ..

theorem step_of_user_to_supervisor {s t : State} (h : step s = .next t) (hp : s.priv = .user)
    (ht : t.priv = .supervisor) : TrappedAfterFetch s t := by
  cases step_effect h with
  | interrupted i rest d _ => exact ⟨.interrupt i, 0, _, rfl, rfl, .inl ⟨rfl, rfl⟩⟩
  | executed rest d _ he => exact he.of_user_to_supervisor rfl hp ht
  | agent a rest =>
    rw [agentStep_frame, hp] at ht
    cases ht

/-- Settles O58: a step that leaves U-mode is a trap (`step_of_user_to_supervisor`), and `trapEntryState` says what a
trap leaves. -/
theorem userModeIsLeftOnlyByTrap : Obligations.UserModeIsLeftOnlyByTrap := by
  unfold Obligations.UserModeIsLeftOnlyByTrap
  intro s t hp hstep ht
  have hturns := step_turns hstep
  obtain ⟨cause, tval, s1, rfl, hs1, hmemory⟩ := step_of_user_to_supervisor hstep hp ht
  have hmem := hmemory.congr (s' := s) (t' := trapToS cause tval s1.pc s1) rfl rfl rfl
  have htrapped := trapEntryState cause tval s1.pc s1
  rw [hs1] at htrapped hturns hmem ⊢
  obtain ⟨-, hsepc, hscause, -, hspp, hspie, hsie, hpc, hcsrs, hregs, -, hcounters, htc, hcfg, -, htimer, -, -,
    hcall⟩ := htrapped
  exact ⟨cause, hpc, hscause, hsepc, hspp.trans (by simp [hp]), hspie, hsie, hcsrs, hregs, hcounters, htc, hcfg, hturns,
    htimer, hcall, hmem⟩

/-- Settles O59: an instruction leaves S-mode only as SRET (`InstrEffect.of_supervisor_to_user`), and traps and other
agents do not. -/
theorem supervisorModeIsLeftOnlyBySret : Obligations.SupervisorModeIsLeftOnlyBySret := by
  unfold Obligations.SupervisorModeIsLeftOnlyBySret
  refine ⟨fun i s t hp hexec ht => ?_, fun s t hp hstep ht => ?_⟩
  · obtain ⟨hi, hspp, -⟩ := (exec_effect hexec).of_supervisor_to_user hp ht
    exact ⟨hi, hspp⟩
  · cases step_effect hstep with
    | interrupted i rest d _ => cases ht
    | agent a rest =>
      rw [agentStep_frame, hp] at ht
      cases ht
    | executed rest d _ he =>
      cases he with
      | fetchTraps e tval s1 _ _ => cases ht
      | illegal w s1 _ _ => cases ht
      | executes i s1 _ hf _ he =>
        have hp1 : s1.priv = .supervisor := by rw [hf.1]; exact hp
        obtain ⟨-, hspp, rfl⟩ := he.of_supervisor_to_user hp1 ht
        have hpc := returnFromS_pc_eq s1
        rw [hf.1] at hspp hpc ⊢
        exact ⟨hspp, hpc, rfl, rfl, fun _ => rfl, by simp [KeepsCsrsBut]⟩

end Sys2Proof.Machine
end
